-- ==== Sys2Proof/Word.lean ====
section
/-! DEFINITION. The widths of the machine's values: the byte and the 16-bit word. -/

namespace Sys2Proof

/-- 8 bits: a general register, a timer, a byte of memory (10_state.md R20, R30, R36). -/
abbrev Byte := BitVec 8

/-- 16 bits: an opcode, the pc, I, a stack entry (10_state.md R23, R24, R28, R34). -/
abbrev Word := BitVec 16

/-- A register selector `x` or `y` (00_scope.md R16). -/
abbrev Reg := Fin 16

end Sys2Proof
end

