-- ==== Sys2Proof/Config.lean ====
section
/-! DEFINITION. What is fixed for a run of the machine: the parameters of 00_scope.md R5 to R11 with this hardware's
values, the fixed sizes of R4, and the one free value, the draw of R12. -/

namespace Sys2Proof

/-- SPRITE_EDGE (R9): what becomes of a sprite pixel beyond the right or bottom edge. -/
inductive SpriteEdge where
  | clip
  | wrap
  deriving DecidableEq, Repr

/-- ALU_ALIAS (R10): are an instruction's operands read once, or again after each of its writes. -/
inductive AluAlias where
  | latched
  | reread
  deriving DecidableEq, Repr

/-- The named parameters of 00_scope.md R5 to R11. -/
structure Config where
  /-- STRICT_DECODE (R5). -/
  strictDecode : Bool
  /-- FONT_BASE (R6), a 12-bit address. -/
  fontBase : BitVec 12
  /-- FONT_DATA (R7): glyph `g` is the bytes `5g .. 5g + 4`, top row first. -/
  fontData : Vector (Vector Byte 5) 16
  /-- DUMP_INCLUSIVE (R8). -/
  dumpInclusive : Bool
  /-- SPRITE_EDGE (R9). -/
  spriteEdge : SpriteEdge
  /-- ALU_ALIAS (R10). -/
  aluAlias : AluAlias
  /-- PROTECT_LOW (R11). -/
  protectLow : Bool
  deriving DecidableEq, Repr

/-- R6: FONT_BASE + 80 <= 0x200. -/
abbrev Config.wf (cfg : Config) : Prop := cfg.fontBase.toNat + 80 ≤ 0x200

/-- The glyphs 0 to 7 of R7 (PRESUMED by the spec itself, its D5; log 10). -/
def Config.glyphsLow : Vector (Vector Byte 5) 8 := #v[
  #v[0xF0, 0x90, 0x90, 0x90, 0xF0],
  #v[0x20, 0x60, 0x20, 0x20, 0x70],
  #v[0xF0, 0x10, 0xF0, 0x80, 0xF0],
  #v[0xF0, 0x10, 0xF0, 0x10, 0xF0],
  #v[0x90, 0x90, 0xF0, 0x10, 0x10],
  #v[0xF0, 0x80, 0xF0, 0x10, 0xF0],
  #v[0xF0, 0x80, 0xF0, 0x90, 0xF0],
  #v[0xF0, 0x10, 0x20, 0x40, 0x40]]

/-- The glyphs 8 to F of R7 (PRESUMED by the spec itself, its D5; log 10). -/
def Config.glyphsHigh : Vector (Vector Byte 5) 8 := #v[
  #v[0xF0, 0x90, 0xF0, 0x90, 0xF0],
  #v[0xF0, 0x90, 0xF0, 0x10, 0xF0],
  #v[0xF0, 0x90, 0xF0, 0x90, 0x90],
  #v[0xE0, 0x90, 0xE0, 0x90, 0xE0],
  #v[0xF0, 0x80, 0x80, 0x80, 0xF0],
  #v[0xE0, 0x90, 0x90, 0x90, 0xE0],
  #v[0xF0, 0x80, 0xF0, 0x80, 0xF0],
  #v[0xF0, 0x80, 0xF0, 0x80, 0x80]]

/-- This hardware (the values of R5 to R11; each is the spec's own decision: log 8, 10 to 13, 15). -/
def Config.hardware : Config where
  strictDecode := false
  fontBase := 0x050#12
  fontData := Config.glyphsLow ++ Config.glyphsHigh
  dumpInclusive := true
  spriteEdge := .clip
  aluAlias := .latched
  protectLow := true

/-- FLAG_REG (R4, R21): VF is `V[0xF]`. -/
abbrev Config.flagReg : Reg := 15

/-- The free value of R12: the byte the host's random source hands to the `k`-th STEP. It has no body: nothing can be
proved of its value (log 1). -/
opaque Config.randomByte : Nat → Byte

end Sys2Proof
end

