-- ==== Sys2Proof/Syntax.lean ====
section
/-! DEFINITION. The instructions: one constructor per row of spec/opcode_table.json (30_encoding.md R87), with the
operands the row names. A register selector is bounded by its type; the bits a format ignores (R82) are no operand
(log 17). -/

namespace Sys2Proof

inductive Instr where
  /-- 00E0, R200 -/
  | cls
  /-- 00EE, R131 -/
  | ret
  /-- 1nnn, R133 -/
  | jp (nnn : BitVec 12)
  /-- 2nnn, R132 -/
  | call (nnn : BitVec 12)
  /-- 3xkk, R134 -/
  | seVxKk (x : Reg) (kk : Byte)
  /-- 4xkk, R135 -/
  | sneVxKk (x : Reg) (kk : Byte)
  /-- 5xy0, R136 -/
  | seVxVy (x y : Reg)
  /-- 6xkk, R160 -/
  | ldVxKk (x : Reg) (kk : Byte)
  /-- 7xkk, R161 -/
  | addVxKk (x : Reg) (kk : Byte)
  /-- 8xy0, R162 -/
  | ldVxVy (x y : Reg)
  /-- 8xy1, R163 -/
  | or (x y : Reg)
  /-- 8xy2, R164 -/
  | and (x y : Reg)
  /-- 8xy3, R165 -/
  | xor (x y : Reg)
  /-- 8xy4, R166 -/
  | addVxVy (x y : Reg)
  /-- 8xy5, R167 -/
  | sub (x y : Reg)
  /-- 8xy6, R168 (`y` is encoded and ignored) -/
  | shr (x : Reg)
  /-- 8xy7, R169 -/
  | subn (x y : Reg)
  /-- 8xyE, R170 (`y` is encoded and ignored) -/
  | shl (x : Reg)
  /-- 9xy0, R137 -/
  | sneVxVy (x y : Reg)
  /-- Annn, R240 -/
  | ldINnn (nnn : BitVec 12)
  /-- Bnnn, R138 -/
  | jpV0 (nnn : BitVec 12)
  /-- Cxkk, R171 -/
  | rnd (x : Reg) (kk : Byte)
  /-- Dxyn, R201 -/
  | drw (x y : Reg) (n : Fin 16)
  /-- Ex9E, R220 -/
  | skp (x : Reg)
  /-- ExA1, R221 -/
  | sknp (x : Reg)
  /-- Fx07, R222 -/
  | ldVxDt (x : Reg)
  /-- Fx0A, R223 -/
  | ldVxK (x : Reg)
  /-- Fx15, R224 -/
  | ldDtVx (x : Reg)
  /-- Fx18, R225 -/
  | ldStVx (x : Reg)
  /-- Fx1E, R241 -/
  | addIVx (x : Reg)
  /-- Fx29, R242 -/
  | ldFVx (x : Reg)
  /-- Fx33, R243 -/
  | ldBVx (x : Reg)
  /-- Fx55, R244 -/
  | ldMiVx (x : Reg)
  /-- Fx65, R245 -/
  | ldVxMi (x : Reg)
  /-- the null operation, R116: the word it stands for (R92's `DW word`), one of the null space R88 -/
  | null (op : Word)
  deriving DecidableEq, Repr

end Sys2Proof
end

