-- ==== Sys2Proof/WellFormed.lean ====
section
/-! DEFINITION. Which terms of `Instr` are instructions. Selectors, immediates, addresses and counts are bounded by
their types; the one check left is that a null operation's word is in the null space (30_encoding.md R88). -/

namespace Sys2Proof

/-- R88 with STRICT_DECODE = false: the words that match no row. -/
def nullWordLoose (op : Word) : Bool :=
  let t := op.extractLsb 15 12
  let n := op.extractLsb 3 0
  let kk := op.extractLsb 7 0
  (t == 0x0#4 && !([0x0#4, 0xE#4].contains n)) ||
  (t == 0x8#4 && [0x8#4, 0x9#4, 0xA#4, 0xB#4, 0xC#4, 0xD#4, 0xF#4].contains n) ||
  (t == 0xE#4 && !([0xE#4, 0x1#4].contains n)) ||
  (t == 0xF#4 && !([0x07#8, 0x0A#8, 0x15#8, 0x18#8, 0x1E#8, 0x29#8, 0x33#8, 0x55#8, 0x65#8].contains kk))

/-- R88 with STRICT_DECODE = true: those and, in addition, family 0x0 except 00E0 and 00EE exactly, family 0xE with
another selector byte, families 0x5 and 0x9 with a nonzero low nibble. -/
def nullWordStrict (op : Word) : Bool :=
  let t := op.extractLsb 15 12
  let n := op.extractLsb 3 0
  let kk := op.extractLsb 7 0
  nullWordLoose op ||
  (t == 0x0#4 && !([0x00E0#16, 0x00EE#16].contains op)) ||
  (t == 0xE#4 && !([0x9E#8, 0xA1#8].contains kk)) ||
  ((t == 0x5#4 || t == 0x9#4) && n != 0x0#4)

/-- The null space R88 under either setting of STRICT_DECODE (R5). -/
def nullWord (strict : Bool) (op : Word) : Bool :=
  if strict then nullWordStrict op else nullWordLoose op

/-- A well-formed instruction. -/
def Instr.wellFormed (strict : Bool) : Instr → Bool
  | .null op => nullWord strict op
  | .cls | .ret | .jp _ | .call _ | .seVxKk _ _ | .sneVxKk _ _ | .seVxVy _ _ | .ldVxKk _ _ | .addVxKk _ _
  | .ldVxVy _ _ | .or _ _ | .and _ _ | .xor _ _ | .addVxVy _ _ | .sub _ _ | .shr _ | .subn _ _ | .shl _
  | .sneVxVy _ _ | .ldINnn _ | .jpV0 _ | .rnd _ _ | .drw _ _ _ | .skp _ | .sknp _ | .ldVxDt _ | .ldVxK _
  | .ldDtVx _ | .ldStVx _ | .addIVx _ | .ldFVx _ | .ldBVx _ | .ldMiVx _ | .ldVxMi _ => true

end Sys2Proof
end

