-- ==== Sys2Proof/Decode.lean ====
section
/-! DEFINITION. The decoder (30_encoding.md R81 to R91), total on every word and on any bytes, and after it the encoder.
The bit patterns are the spec's own (its D2, log 7); the setting of STRICT_DECODE is an argument (R5). -/

namespace Sys2Proof

/-! ## The fields of an opcode (R81) -/

/-- `t = op[15:12]`, the primary family. -/
def opT (op : Word) : BitVec 4 := op.extractLsb 15 12

/-- `x = op[11:8]`. -/
def opX (op : Word) : Reg := (op.extractLsb 11 8).toFin

/-- `y = op[7:4]`. -/
def opY (op : Word) : Reg := (op.extractLsb 7 4).toFin

/-- `n = op[3:0]`. -/
def opN (op : Word) : BitVec 4 := op.extractLsb 3 0

/-- `kk = op[7:0]`. -/
def opKK (op : Word) : Byte := op.extractLsb 7 0

/-- `nnn = op[11:0]`. -/
def opNNN (op : Word) : BitVec 12 := op.extractLsb 11 0

/-! ## The second level (R85): families 0x0, 0x8, 0xE and 0xF -/

/-- Family 0x0: the low nibble, or all of `op[11:0]` when strict. -/
def decode0 (strict : Bool) (op : Word) : Instr :=
  if strict then
    if opNNN op = 0x0E0#12 then .cls else if opNNN op = 0x0EE#12 then .ret else .null op
  else
    if opN op = 0x0#4 then .cls else if opN op = 0xE#4 then .ret else .null op

/-- Families 0x5 and 0x9 (R86): decoded by `t` alone, or with `op[3:0] = 0` when strict. -/
def decodePair (strict : Bool) (mk : Reg → Reg → Instr) (op : Word) : Instr :=
  if strict && opN op != 0x0#4 then .null op else mk (opX op) (opY op)

/-- Family 0x8: the low nibble under either setting. -/
def decode8 (op : Word) : Instr :=
  if opN op = 0x0#4 then .ldVxVy (opX op) (opY op)
  else if opN op = 0x1#4 then .or (opX op) (opY op)
  else if opN op = 0x2#4 then .and (opX op) (opY op)
  else if opN op = 0x3#4 then .xor (opX op) (opY op)
  else if opN op = 0x4#4 then .addVxVy (opX op) (opY op)
  else if opN op = 0x5#4 then .sub (opX op) (opY op)
  else if opN op = 0x6#4 then .shr (opX op)
  else if opN op = 0x7#4 then .subn (opX op) (opY op)
  else if opN op = 0xE#4 then .shl (opX op)
  else .null op

/-- Family 0xE: the low nibble, or the low byte when strict. -/
def decodeE (strict : Bool) (op : Word) : Instr :=
  if strict then
    if opKK op = 0x9E#8 then .skp (opX op) else if opKK op = 0xA1#8 then .sknp (opX op) else .null op
  else
    if opN op = 0xE#4 then .skp (opX op) else if opN op = 0x1#4 then .sknp (opX op) else .null op

/-- Family 0xF: the low byte under either setting. -/
def decodeF (op : Word) : Instr :=
  if opKK op = 0x07#8 then .ldVxDt (opX op)
  else if opKK op = 0x0A#8 then .ldVxK (opX op)
  else if opKK op = 0x15#8 then .ldDtVx (opX op)
  else if opKK op = 0x18#8 then .ldStVx (opX op)
  else if opKK op = 0x1E#8 then .addIVx (opX op)
  else if opKK op = 0x29#8 then .ldFVx (opX op)
  else if opKK op = 0x33#8 then .ldBVx (opX op)
  else if opKK op = 0x55#8 then .ldMiVx (opX op)
  else if opKK op = 0x65#8 then .ldVxMi (opX op)
  else .null op

/-- Decode (R84, R90): the top nibble selects the family. Total: a word that no row matches is the null operation
(R88, R89). -/
def decodeWord (strict : Bool) (op : Word) : Instr :=
  if opT op = 0x0#4 then decode0 strict op
  else if opT op = 0x1#4 then .jp (opNNN op)
  else if opT op = 0x2#4 then .call (opNNN op)
  else if opT op = 0x3#4 then .seVxKk (opX op) (opKK op)
  else if opT op = 0x4#4 then .sneVxKk (opX op) (opKK op)
  else if opT op = 0x5#4 then decodePair strict .seVxVy op
  else if opT op = 0x6#4 then .ldVxKk (opX op) (opKK op)
  else if opT op = 0x7#4 then .addVxKk (opX op) (opKK op)
  else if opT op = 0x8#4 then decode8 op
  else if opT op = 0x9#4 then decodePair strict .sneVxVy op
  else if opT op = 0xA#4 then .ldINnn (opNNN op)
  else if opT op = 0xB#4 then .jpV0 (opNNN op)
  else if opT op = 0xC#4 then .rnd (opX op) (opKK op)
  else if opT op = 0xD#4 then .drw (opX op) (opY op) (opN op).toFin
  else if opT op = 0xE#4 then decodeE strict op
  else decodeF op

/-! ## Bytes -/

/-- Big-endian (R52): the byte fetched first is `op[15:8]`. -/
def wordOfBytes (hi lo : Byte) : Word := hi ++ lo

/-- Why a list of bytes is no instruction. -/
inductive DecodeError where
  /-- fewer than the two bytes every instruction has (R80); a fetch never raises it, it reads two bytes or faults -/
  | truncated
  deriving DecidableEq, Repr

/-- The instruction at the head of a list of bytes, and the bytes after it (R80, R91: always two bytes). -/
def decode (strict : Bool) : List Byte → Except DecodeError (Instr × List Byte)
  | hi :: lo :: rest => .ok (decodeWord strict (wordOfBytes hi lo), rest)
  | [] | [_] => .error .truncated

/-- `op[15:8]`, the byte stored at the lower address. -/
def highByte (op : Word) : Byte := op.extractLsb 15 8

/-- `op[7:0]`, the byte stored at the higher address. -/
def lowByte (op : Word) : Byte := op.extractLsb 7 0

/-- A word as the table numbers it: `nbits` bits of `w`, every bit above them 0. -/
def tableWord (nbits w : Nat) : Word := BitVec.ofNat 16 (w % 2 ^ nbits)

/-- What the decoder of this hardware reads from a table word, laid out as memory holds it. -/
def decodeTableWord (nbits w : Nat) : Option Instr :=
  match decode Config.hardware.strictDecode [highByte (tableWord nbits w), lowByte (tableWord nbits w)] with
  | .ok (i, _) => some i
  | .error _ => none

/-! ## The encoder (R82, R87; ignored bits as the assembler writes them, R92: log 17) -/

/-- Format A: `tttt aaaa aaaa aaaa`. -/
def encA (t : BitVec 4) (nnn : BitVec 12) : Word := t ++ nnn

/-- Format RK: `tttt xxxx kkkk kkkk`; format RF is the same with the selector byte in `kk`. -/
def encRK (t : BitVec 4) (x : Reg) (kk : Byte) : Word := t ++ BitVec.ofFin (w := 4) x ++ kk

/-- Format RR: `tttt xxxx yyyy ffff`; format RRN is the same with the count in `f`. -/
def encRR (t : BitVec 4) (x y : Reg) (f : BitVec 4) : Word :=
  t ++ BitVec.ofFin (w := 4) x ++ BitVec.ofFin (w := 4) y ++ f

/-- The word of an instruction. -/
def encode : Instr → Word
  | .cls => 0x00E0#16
  | .ret => 0x00EE#16
  | .jp nnn => encA 0x1#4 nnn
  | .call nnn => encA 0x2#4 nnn
  | .seVxKk x kk => encRK 0x3#4 x kk
  | .sneVxKk x kk => encRK 0x4#4 x kk
  | .seVxVy x y => encRR 0x5#4 x y 0x0#4
  | .ldVxKk x kk => encRK 0x6#4 x kk
  | .addVxKk x kk => encRK 0x7#4 x kk
  | .ldVxVy x y => encRR 0x8#4 x y 0x0#4
  | .or x y => encRR 0x8#4 x y 0x1#4
  | .and x y => encRR 0x8#4 x y 0x2#4
  | .xor x y => encRR 0x8#4 x y 0x3#4
  | .addVxVy x y => encRR 0x8#4 x y 0x4#4
  | .sub x y => encRR 0x8#4 x y 0x5#4
  | .shr x => encRR 0x8#4 x 0 0x6#4
  | .subn x y => encRR 0x8#4 x y 0x7#4
  | .shl x => encRR 0x8#4 x 0 0xE#4
  | .sneVxVy x y => encRR 0x9#4 x y 0x0#4
  | .ldINnn nnn => encA 0xA#4 nnn
  | .jpV0 nnn => encA 0xB#4 nnn
  | .rnd x kk => encRK 0xC#4 x kk
  | .drw x y n => encRR 0xD#4 x y (BitVec.ofFin (w := 4) n)
  | .skp x => encRK 0xE#4 x 0x9E#8
  | .sknp x => encRK 0xE#4 x 0xA1#8
  | .ldVxDt x => encRK 0xF#4 x 0x07#8
  | .ldVxK x => encRK 0xF#4 x 0x0A#8
  | .ldDtVx x => encRK 0xF#4 x 0x15#8
  | .ldStVx x => encRK 0xF#4 x 0x18#8
  | .addIVx x => encRK 0xF#4 x 0x1E#8
  | .ldFVx x => encRK 0xF#4 x 0x29#8
  | .ldBVx x => encRK 0xF#4 x 0x33#8
  | .ldMiVx x => encRK 0xF#4 x 0x55#8
  | .ldVxMi x => encRK 0xF#4 x 0x65#8
  | .null op => op

/-! ## The assembler's text (R92; R93: there are no pseudo-instructions) -/

/-- The last `k` hexadecimal digits of a number. -/
def hexText : Nat → Nat → String
  | 0, _ => ""
  | k + 1, v => hexText k (v / 16) ++ String.singleton (Nat.digitChar (v % 16)).toUpper

/-- `V0` to `VF`. -/
def regText (x : Reg) : String := "V" ++ hexText 1 x.val

/-- Two register operands. -/
def regsText (x y : Reg) : String := regText x ++ ", " ++ regText y

/-- A register and a `byte` literal. -/
def regByteText (x : Reg) (kk : Byte) : String := regText x ++ ", " ++ hexText 2 kk.toNat

/-- An instruction as the assembler writes it; the ignored `Vy` of SHR and SHL is left out (their word then has
`y = 0`). -/
def Instr.assemblerText : Instr → String
  | .cls => "CLS"
  | .ret => "RET"
  | .jp nnn => "JP " ++ hexText 3 nnn.toNat
  | .call nnn => "CALL " ++ hexText 3 nnn.toNat
  | .seVxKk x kk => "SE " ++ regByteText x kk
  | .sneVxKk x kk => "SNE " ++ regByteText x kk
  | .seVxVy x y => "SE " ++ regsText x y
  | .ldVxKk x kk => "LD " ++ regByteText x kk
  | .addVxKk x kk => "ADD " ++ regByteText x kk
  | .ldVxVy x y => "LD " ++ regsText x y
  | .or x y => "OR " ++ regsText x y
  | .and x y => "AND " ++ regsText x y
  | .xor x y => "XOR " ++ regsText x y
  | .addVxVy x y => "ADD " ++ regsText x y
  | .sub x y => "SUB " ++ regsText x y
  | .shr x => "SHR " ++ regText x
  | .subn x y => "SUBN " ++ regsText x y
  | .shl x => "SHL " ++ regText x
  | .sneVxVy x y => "SNE " ++ regsText x y
  | .ldINnn nnn => "LD I, " ++ hexText 3 nnn.toNat
  | .jpV0 nnn => "JP V0, " ++ hexText 3 nnn.toNat
  | .rnd x kk => "RND " ++ regByteText x kk
  | .drw x y n => "DRW " ++ regsText x y ++ ", " ++ hexText 1 n.val
  | .skp x => "SKP " ++ regText x
  | .sknp x => "SKNP " ++ regText x
  | .ldVxDt x => "LD " ++ regText x ++ ", DT"
  | .ldVxK x => "LD " ++ regText x ++ ", K"
  | .ldDtVx x => "LD DT, " ++ regText x
  | .ldStVx x => "LD ST, " ++ regText x
  | .addIVx x => "ADD I, " ++ regText x
  | .ldFVx x => "LD F, " ++ regText x
  | .ldBVx x => "LD B, " ++ regText x
  | .ldMiVx x => "LD [I], " ++ regText x
  | .ldVxMi x => "LD " ++ regText x ++ ", [I]"
  | .null op => "DW " ++ hexText 4 op.toNat

/-! ## The opcode map R87 as a table -/

/-- One row of R87: mask and match, and the same when STRICT_DECODE is true. -/
structure OpRow where
  mask : Word
  value : Word
  strictMask : Word
  strictValue : Word
  deriving DecidableEq, Repr

/-- `(word & mask) = match` under a setting of STRICT_DECODE. -/
def OpRow.hits (strict : Bool) (r : OpRow) (op : Word) : Bool :=
  if strict then op &&& r.strictMask == r.strictValue else op &&& r.mask == r.value

/-- A row whose pattern both settings share. -/
def OpRow.same (mask value : Word) : OpRow := ⟨mask, value, mask, value⟩

/-- The row of R87 an instruction belongs to; the null operation has none. -/
def Instr.row : Instr → Option OpRow
  | .cls => some ⟨0xF00F#16, 0x0000#16, 0xFFFF#16, 0x00E0#16⟩
  | .ret => some ⟨0xF00F#16, 0x000E#16, 0xFFFF#16, 0x00EE#16⟩
  | .jp _ => some (.same 0xF000#16 0x1000#16)
  | .call _ => some (.same 0xF000#16 0x2000#16)
  | .seVxKk _ _ => some (.same 0xF000#16 0x3000#16)
  | .sneVxKk _ _ => some (.same 0xF000#16 0x4000#16)
  | .seVxVy _ _ => some ⟨0xF000#16, 0x5000#16, 0xF00F#16, 0x5000#16⟩
  | .ldVxKk _ _ => some (.same 0xF000#16 0x6000#16)
  | .addVxKk _ _ => some (.same 0xF000#16 0x7000#16)
  | .ldVxVy _ _ => some (.same 0xF00F#16 0x8000#16)
  | .or _ _ => some (.same 0xF00F#16 0x8001#16)
  | .and _ _ => some (.same 0xF00F#16 0x8002#16)
  | .xor _ _ => some (.same 0xF00F#16 0x8003#16)
  | .addVxVy _ _ => some (.same 0xF00F#16 0x8004#16)
  | .sub _ _ => some (.same 0xF00F#16 0x8005#16)
  | .shr _ => some (.same 0xF00F#16 0x8006#16)
  | .subn _ _ => some (.same 0xF00F#16 0x8007#16)
  | .shl _ => some (.same 0xF00F#16 0x800E#16)
  | .sneVxVy _ _ => some ⟨0xF000#16, 0x9000#16, 0xF00F#16, 0x9000#16⟩
  | .ldINnn _ => some (.same 0xF000#16 0xA000#16)
  | .jpV0 _ => some (.same 0xF000#16 0xB000#16)
  | .rnd _ _ => some (.same 0xF000#16 0xC000#16)
  | .drw _ _ _ => some (.same 0xF000#16 0xD000#16)
  | .skp _ => some ⟨0xF00F#16, 0xE00E#16, 0xF0FF#16, 0xE09E#16⟩
  | .sknp _ => some ⟨0xF00F#16, 0xE001#16, 0xF0FF#16, 0xE0A1#16⟩
  | .ldVxDt _ => some (.same 0xF0FF#16 0xF007#16)
  | .ldVxK _ => some (.same 0xF0FF#16 0xF00A#16)
  | .ldDtVx _ => some (.same 0xF0FF#16 0xF015#16)
  | .ldStVx _ => some (.same 0xF0FF#16 0xF018#16)
  | .addIVx _ => some (.same 0xF0FF#16 0xF01E#16)
  | .ldFVx _ => some (.same 0xF0FF#16 0xF029#16)
  | .ldBVx _ => some (.same 0xF0FF#16 0xF033#16)
  | .ldMiVx _ => some (.same 0xF0FF#16 0xF055#16)
  | .ldVxMi _ => some (.same 0xF0FF#16 0xF065#16)
  | .null _ => none

/-- One specimen instruction of each row of R87, in the map's order: the first half. -/
def tableInstrsLow : List Instr := [
  .cls, .ret, .jp 0, .call 0, .seVxKk 0 0, .sneVxKk 0 0, .seVxVy 0 0, .ldVxKk 0 0, .addVxKk 0 0,
  .ldVxVy 0 0, .or 0 0, .and 0 0, .xor 0 0, .addVxVy 0 0, .sub 0 0, .shr 0, .subn 0 0, .shl 0]

/-- The second half. -/
def tableInstrsHigh : List Instr := [
  .sneVxVy 0 0, .ldINnn 0, .jpV0 0, .rnd 0 0, .drw 0 0 0, .skp 0, .sknp 0, .ldVxDt 0, .ldVxK 0,
  .ldDtVx 0, .ldStVx 0, .addIVx 0, .ldFVx 0, .ldBVx 0, .ldMiVx 0, .ldVxMi 0]

/-- The 34 rows of R87. -/
def opRows : List OpRow := (tableInstrsLow ++ tableInstrsHigh).filterMap Instr.row

end Sys2Proof
end

