-- ==== Sys2Proof/Machine/State.lean ====
section
/-! DEFINITION. The state of the machine (10_state.md), the reasons a step could stop, and the state after reset
(R39). -/

namespace Sys2Proof.Machine

/-- Memory `M` (R36): the bytes that differ from what reset leaves, addresses strictly rising (log 19). -/
abbrev Memory := List Host.Cell

/-- The framebuffer (R33): 32 rows of 64 cells, true = on (log 20). -/
abbrev Framebuffer := Vector (Vector Bool 64) 32

/-- The keypad cells (R32), true = pressed. -/
abbrev Keypad := Vector Bool 16

/-- Everything the spec gives the machine; INVENTORY.md lists each field with its rule. -/
structure State where
  /-- `V[0]` to `V[15]` (R20); `V[15]` is VF (R21). -/
  v : Vector Byte 16
  /-- `I` (R23). -/
  index : Word
  /-- `pc` (R24). -/
  pc : Word
  /-- `SP`, the number of stack entries in use, 0 to 16 (R28, R29). -/
  sp : Fin 17
  /-- `S[0]` to `S[15]` (R28). -/
  stack : Vector Word 16
  /-- `DT` (R30). -/
  dt : Byte
  /-- `ST` (R31). -/
  st : Byte
  /-- `Key[0]` to `Key[15]`, the cells the host writes (R32). -/
  keys : Keypad
  /-- The sample of the cells taken at the start of the cycle (20_memory.md R62; log 3). -/
  keySample : Keypad
  /-- `FB` (R33). -/
  fb : Framebuffer
  /-- `OPCODE` (R34). -/
  opcode : Word
  /-- `HALT` (R35). -/
  halt : Bool
  /-- `FCAUSE` (R35, 60_exceptions.md R272). -/
  fcause : BitVec 4
  /-- `FPC` (R35). -/
  fpc : Word
  /-- `FINFO` (R35). -/
  finfo : Word
  /-- `M` (R36). -/
  mem : Memory
  /-- The draw handed over with the STEP in progress (00_scope.md R12, 60_exceptions.md R288): an input, the model's own
  field (log 1). -/
  rnd : Byte
  /-- How many STEPs have taken a draw: the model's own counter behind the free value (log 1). -/
  draws : Nat
  deriving DecidableEq, Repr

/-- The reasons for which a step of this machine stops with a fault of the MODEL: none. A bounds violation of
60_exceptions.md R272 has an entry the spec describes (R275), so it is a next state with `HALT = 1`; a halted core's
STEP changes nothing (R276), so it is a next state too (log 5). -/
inductive Fault where
  deriving DecidableEq, Repr

/-- The reasons for which the model refuses. -/
inductive Refusal where
  /-- Raised by an arm of `exec` whose instruction has no meaning yet (none on this hardware). Safe: the run stops. -/
  | notModelled (mnemonic : String)
  /-- Raised by the host transaction LOAD for more than 3584 bytes (60_exceptions.md R291: "refuse; no byte is written;
  the host is told the load failed"). No step of the core raises it. Safe: it is what the spec says. -/
  | loadTooLong
  deriving DecidableEq, Repr

/-- The machine right after reset (R39, 70_reset_and_hazards.md R310). The spec gives every value but those of
`keySample`, `rnd` and `draws` (DESIGN CHOICE, log 2). Memory lists nothing: an unlisted byte reads as reset leaves it. -/
def State.reset : State where
  v := Vector.replicate 16 0#8
  index := 0#16
  pc := 0x200#16
  sp := 0
  stack := Vector.replicate 16 0#16
  dt := 0#8
  st := 0#8
  keys := Vector.replicate 16 false
  keySample := Vector.replicate 16 false
  fb := Vector.replicate 32 (Vector.replicate 64 false)
  opcode := 0#16
  halt := false
  fcause := 0#4
  fpc := 0#16
  finfo := 0#16
  mem := []
  rnd := 0#8
  draws := 0

end Sys2Proof.Machine
end

