-- ==== Sys2Proof/Machine/Flags.lean ====
section
/-! DEFINITION. Every flag computation of the spec (42_alu.md R166 to R170, 43_display.md R201): the value written to VF.
There are no other flags (10_state.md R37). -/

namespace Sys2Proof.Machine

/-- A flag as VF holds it: 1 or 0. -/
def flagByte (b : Bool) : Byte := if b then 1#8 else 0#8

/-- R166: carry out of bit 7. -/
def carryFlag (a b : Byte) : Byte := flagByte (decide (a.toNat + b.toNat > 255))

/-- R167: 1 if a > b, strictly (90_conflicts.md C2). -/
def greaterFlag (a b : Byte) : Byte := flagByte (decide (a.toNat > b.toNat))

/-- R168: the bit shifted out to the right. -/
def lowBitFlag (a : Byte) : Byte := flagByte a[0]

/-- R170: the bit shifted out to the left. -/
def highBitFlag (a : Byte) : Byte := flagByte a[7]

/-- R201: 1 if at least one drawn pixel found its cell on. -/
def collisionFlag (hit : Bool) : Byte := flagByte hit

end Sys2Proof.Machine
end

