-- ==== Sys2Proof/Machine/Memory.lean ====
section
/-! DEFINITION. The memory array (20_memory.md): what an unlisted byte reads as, one byte read and written, the
canonical form. Addresses are natural numbers (R55); the range checks are the instructions' (Machine/Ops.lean). -/

namespace Sys2Proof.Machine

/-- What reset leaves at an address (10_state.md R39): the font table at FONT_BASE .. FONT_BASE + 79, zero elsewhere. -/
def Memory.unlisted (cfg : Config) (a : Nat) : Byte :=
  if h : cfg.fontBase.toNat ≤ a ∧ a < cfg.fontBase.toNat + 80 then
    (cfg.fontData[(a - cfg.fontBase.toNat) / 5])[(a - cfg.fontBase.toNat) % 5]
  else 0#8

/-- The byte listed at an address, if one is. -/
def Memory.listed : Memory → Nat → Option Byte
  | [], _ => none
  | (b, w) :: m, a => if b = a then some w else Memory.listed m a

/-- `MemRead(addr, 1)` (R56). -/
def Memory.read (cfg : Config) (m : Memory) (a : Nat) : Byte :=
  (Memory.listed m a).getD (Memory.unlisted cfg a)

/-- List a byte at an address, in rising order, in place of one listed before. -/
def Memory.insert : Memory → Nat → Byte → Memory
  | [], a, v => [(a, v)]
  | (b, w) :: m, a, v =>
    if a < b then (a, v) :: (b, w) :: m
    else if a = b then (a, v) :: m
    else (b, w) :: Memory.insert m a v

/-- Take an address off the list. -/
def Memory.erase (m : Memory) (a : Nat) : Memory := m.filter (fun c => c.1 != a)

/-- `MemWrite(addr, 1, v)` (R57): writing what an unlisted address reads as takes the entry away. -/
def Memory.write (cfg : Config) (m : Memory) (a : Nat) (v : Byte) : Memory :=
  if v = Memory.unlisted cfg a then Memory.erase m a else Memory.insert m a v

/-- Write bytes at `a`, `a + 1`, ..., in ascending order (R54). -/
def Memory.writeBytes (cfg : Config) (m : Memory) (a : Nat) : List Byte → Memory
  | [] => m
  | b :: bs => Memory.writeBytes cfg (Memory.write cfg m a b) (a + 1) bs

/-- Read `k` bytes at `a`, `a + 1`, ..., in ascending order (R54). -/
def Memory.readBytes (cfg : Config) (m : Memory) (a : Nat) : Nat → List Byte
  | 0 => []
  | k + 1 => Memory.read cfg m a :: Memory.readBytes cfg m (a + 1) k

/-- The canonical form: addresses strictly rising and inside the 4096 bytes (R50), no entry equal to what an unlisted
address reads as. -/
def Memory.wf (cfg : Config) (m : Memory) : Bool :=
  decide (m.Pairwise (fun c d => c.1 < d.1)) &&
    m.all (fun c => decide (c.1 ≤ 0xFFF) && c.2 != Memory.unlisted cfg c.1)

end Sys2Proof.Machine
end

