-- ==== Sys2Proof/Machine/Operands.lean ====
section
/-! DEFINITION. Operand assembly (30_encoding.md R83) and the operand forms of the memory instructions: addresses off I,
the bound of a register transfer, decimal digits, the key index. -/

namespace Sys2Proof.Machine

/-- `zext_16(nnn)` (R83). -/
def addrOperand (nnn : BitVec 12) : Word := nnn.zeroExtend 16

/-- `zext_16(V[x])`. -/
def byteOperand (b : Byte) : Word := b.zeroExtend 16

/-- The base address of a memory operand (20_memory.md R55): `I` as a natural number; sums on it are not reduced. -/
def memBase (s : State) : Nat := s.index.toNat

/-- How many registers a dump or load moves (00_scope.md R8): `x + 1`, or `x` when DUMP_INCLUSIVE is false. -/
def transferCount (cfg : Config) (x : Reg) : Nat := if cfg.dumpInclusive then x.val + 1 else x.val

/-- The decimal digits of R243: hundreds, tens, ones. -/
def bcdDigits (v : Byte) : List Byte := [v / 100#8, (v / 10#8) % 10#8, v % 10#8]

/-- R242: FONT_BASE + 5 * V[x], unmasked. -/
def glyphAddr (cfg : Config) (b : Byte) : Word := BitVec.ofNat 16 (cfg.fontBase.toNat + 5 * b.toNat)

/-- The origin column of a sprite (R201): wrapped modulo 64. -/
def originCol (b : Byte) : Nat := b.toNat % 64

/-- The origin row of a sprite (R201): wrapped modulo 32. -/
def originRow (b : Byte) : Nat := b.toNat % 32

/-- The smallest pressed key of a sample (44_keypad_timers.md R223), if one is pressed. -/
def lowestKey (k : Keypad) : Option Reg := (List.finRange 16).find? (fun i => k[i])

end Sys2Proof.Machine
end

