-- ==== Sys2Proof/Machine/Ops.lean ====
section
/-! DEFINITION. The named operations over the state that the meanings share: registers, the pc, fault entry, the
address checks, the stack, the framebuffer. -/

namespace Sys2Proof.Machine

/-! ## Registers -/

/-- `V[x]` (R20). -/
def State.getV (s : State) (x : Reg) : Byte := s.v[x]

/-- `V[x] <- b` (R20). -/
def State.setV (s : State) (x : Reg) (b : Byte) : State := { s with v := s.v.set x b }

/-- `V[0xF] <- b` (R21). -/
def State.setVF (s : State) (b : Byte) : State := s.setV Config.flagReg b

/-- `I <- w` (R23). -/
def State.setIndex (s : State) (w : Word) : State := { s with index := w }

/-- `pc <- w` (R24). -/
def State.setPc (s : State) (w : Word) : State := { s with pc := w }

/-- `DT <- b` (R30). -/
def State.setDt (s : State) (b : Byte) : State := { s with dt := b }

/-- `ST <- b` (R31). -/
def State.setSt (s : State) (b : Byte) : State := { s with st := b }

/-- `FB <- f` (R33). -/
def State.setFb (s : State) (f : Framebuffer) : State := { s with fb := f }

/-- `M <- m` (R36). -/
def State.setMem (s : State) (m : Memory) : State := { s with mem := m }

/-- The skip of 41_control_flow.md R130, when its condition holds. -/
def State.skipIf (s : State) (c : Bool) : State := if c then s.setPc (s.pc + 2#16) else s

/-- The rewind of 44_keypad_timers.md R223: the same word is fetched next cycle. -/
def State.rewind (s : State) : State := s.setPc (s.pc - 2#16)

/-- The sound output of 60_exceptions.md R283 (log 21). -/
def State.tone (s : State) : Bool := s.st != 0#8

/-! ## Faults (60_exceptions.md section 1) -/

/-- The causes of R272. -/
inductive Cause where
  | fetchRange
  | stackOverflow
  | stackUnderflow
  | memReadRange
  | memWriteRange
  | reservedWrite
  | keyRange
  deriving DecidableEq, Repr

/-- The codes of R272. -/
def Cause.code : Cause → BitVec 4
  | .fetchRange => 1#4
  | .stackOverflow => 2#4
  | .stackUnderflow => 3#4
  | .memReadRange => 4#4
  | .memWriteRange => 5#4
  | .reservedWrite => 6#4
  | .keyRange => 7#4

/-- Fault entry (R275) in the cycle of the instruction at `p`. There is no return from it (R277): only RESET clears
`HALT`. -/
def State.enterFault (s : State) (p : Word) (c : Cause) (info : Word) : State :=
  { s with pc := p, halt := true, fcause := c.code, fpc := p, finfo := info }

/-- `raise Fault(cause, info)` in step 3, where `pc = p + 2` (R24, 40_cycle.md R113; log 6). -/
def State.raise (s : State) (c : Cause) (info : Word) : State := s.enterFault (s.pc - 2#16) c info

/-! ## Address checks (45_index_memory.md R246) -/

/-- `rcheck`: the cause a read of this address raises, if any. -/
def readCheck (a : Nat) : Option Cause := if a ≤ 0xFFF then none else some .memReadRange

/-- `wcheck`: the cause a write of this address raises, if any. -/
def writeCheck (cfg : Config) (a : Nat) : Option Cause :=
  if a ≤ 0xFFF then
    if cfg.protectLow && decide (a < 0x200) then some .reservedWrite else none
  else some .memWriteRange

/-- The checks of the `k` addresses from `a` on, ascending; the first that fails, with its address. -/
def firstFailure (chk : Nat → Option Cause) (a : Nat) : Nat → Option (Cause × Nat)
  | 0 => none
  | k + 1 =>
    match chk a with
    | some c => some (c, a)
    | none => firstFailure chk (a + 1) k

/-- All checks before any write (00_scope.md R15, R246): fault entry at the first failure, else the state given. -/
def State.checked (s : State) (failure : Option (Cause × Nat)) (t : State) : Host.Outcome State Fault Refusal :=
  match failure with
  | some (c, a) => .next (s.raise c (BitVec.ofNat 16 a))
  | none => .next t

/-! ## The call stack (10_state.md R28, R29) -/

/-- Push `pc` and jump (41_control_flow.md R132), or STACK_OVERFLOW. -/
def State.pushJump (s : State) (target : Word) : State :=
  if h : s.sp.val < 16 then
    { s with stack := s.stack.set s.sp.val s.pc, sp := ⟨s.sp.val + 1, by omega⟩, pc := target }
  else s.raise .stackOverflow (BitVec.ofNat 16 s.sp.val)

/-- Pop into `pc` (41_control_flow.md R131), or STACK_UNDERFLOW; the entry keeps its value. -/
def State.popJump (s : State) : State :=
  if h : 0 < s.sp.val then
    { s with sp := ⟨s.sp.val - 1, by omega⟩, pc := s.stack[s.sp.val - 1] }
  else s.raise .stackUnderflow (BitVec.ofNat 16 s.sp.val)

/-! ## Flag and result writes (00_scope.md R10, 42_alu.md R173) -/

/-- Flag first, result last (R167 to R170), over the operands `V[x]` and `V[y]`. LATCHED reads them once; REREAD reads
them again after the flag write. -/
def State.flagThenResult (s : State) (mode : AluAlias) (x y : Reg) (flag result : Byte → Byte → Byte) : State :=
  let f := flag (s.getV x) (s.getV y)
  match mode with
  | .latched => (s.setVF f).setV x (result (s.getV x) (s.getV y))
  | .reread => (s.setVF f).setV x (result ((s.setVF f).getV x) ((s.setVF f).getV y))

/-- Result first, flag last (R166): the operands are those before either write under both settings (R173, C9). -/
def State.resultThenFlag (s : State) (x y : Reg) (flag result : Byte → Byte → Byte) : State :=
  (s.setV x (result (s.getV x) (s.getV y))).setVF (flag (s.getV x) (s.getV y))

/-! ## The framebuffer (43_display.md) -/

/-- `FB[r][c]` (R15, R33). -/
def Framebuffer.cell (f : Framebuffer) (r : Fin 32) (c : Fin 64) : Bool := f[r][c]

/-- Every cell off (R200). -/
def Framebuffer.clear : Framebuffer := Vector.replicate 32 (Vector.replicate 64 false)

/-- `FB[r][c] <- FB[r][c] ^ 1`. -/
def Framebuffer.toggle (f : Framebuffer) (r : Fin 32) (c : Fin 64) : Framebuffer :=
  f.set r (f[r].set c (!f[r][c]))

/-- The cell a sprite pixel at row `py`, column `px` lands on (R9, R201): none when it is clipped. -/
def pixelCell (edge : SpriteEdge) (py px : Nat) : Option (Fin 32 × Fin 64) :=
  match edge with
  | .clip => if h : py < 32 ∧ px < 64 then some (⟨py, h.1⟩, ⟨px, h.2⟩) else none
  | .wrap => some (⟨py % 32, Nat.mod_lt _ (by decide)⟩, ⟨px % 64, Nat.mod_lt _ (by decide)⟩)

/-- One pixel of R201: the collision test comes before the toggle. The pair is the framebuffer and whether a drawn pixel
has found its cell on so far. -/
def drawPixel (edge : SpriteEdge) (py px : Nat) (acc : Framebuffer × Bool) : Framebuffer × Bool :=
  match pixelCell edge py px with
  | some (r, c) => (acc.1.toggle r c, acc.2 || acc.1.cell r c)
  | none => acc

/-- One sprite row: the set bits among the columns listed, the most significant bit first. -/
def drawRowFrom (edge : SpriteEdge) (row : Byte) (py ox : Nat) (acc : Framebuffer × Bool) : List Nat → Framebuffer × Bool
  | [] => acc
  | c :: cs =>
    drawRowFrom edge row py ox (if row.getLsbD (7 - c) then drawPixel edge py (ox + c) acc else acc) cs

/-- The rows of a sprite, from row `py` of the screen down. -/
def drawRows (edge : SpriteEdge) (py ox : Nat) (acc : Framebuffer × Bool) : List Byte → Framebuffer × Bool
  | [] => acc
  | row :: rows => drawRows edge (py + 1) ox (drawRowFrom edge row py ox acc [0, 1, 2, 3, 4, 5, 6, 7]) rows

/-! ## Register transfer (45_index_memory.md R245) -/

/-- `V[i] <- MemRead(base + i, 1)` for the first `k` registers, ascending. -/
def loadRegs (cfg : Config) (m : Memory) (base : Nat) (v : Vector Byte 16) : Nat → Vector Byte 16
  | 0 => v
  | k + 1 => (loadRegs cfg m base v k).setIfInBounds k (Memory.read cfg m (base + k))

end Sys2Proof.Machine
end

