-- ==== Sys2Proof/Machine/Cycle.lean ====
section
/-! DEFINITION. The cycle (40_cycle.md R110 to R115) around a given step 3: sample, fetch, advance, execute, tick; the
halted core (60_exceptions.md R276); the draw a STEP carries (R12, R288). -/

namespace Sys2Proof.Machine

/-- `Key <- sample of the keypad cells` (20_memory.md R62). -/
def State.sampleKeys (s : State) : State := { s with keySample := s.keys }

/-- The check of step 1 (R111): both bytes in range. -/
def State.canFetch (s : State) : Bool := decide (s.pc.toNat + 1 ≤ 0xFFF)

/-- The word at `[pc, pc + 1]`, big-endian (R111, 20_memory.md R52). -/
def State.fetchWord (cfg : Config) (s : State) : Word :=
  wordOfBytes (Memory.read cfg s.mem s.pc.toNat) (Memory.read cfg s.mem (s.pc.toNat + 1))

/-- `OPCODE <- op` and step 2, `pc <- p + 2` (R111, R112). -/
def State.advance (s : State) (op : Word) : State := { s with opcode := op, pc := s.pc + 2#16 }

/-- A timer's tick: down by one, floor zero (10_state.md R30). -/
def tickDown (b : Byte) : Byte := if b = 0#8 then 0#8 else b - 1#8

/-- Step 4 (R114). -/
def State.tick (s : State) : State := { s with dt := tickDown s.dt, st := tickDown s.st }

/-- What follows step 3: the tick, unless the instruction has faulted (R114, 60_exceptions.md R275). A core that runs a
cycle is not halted (R110), so after step 3 `HALT = 1` says that it faulted. -/
def State.endCycle (s : State) : State := if s.halt then s else s.tick

/-- The end of the cycle after an answer of step 3. -/
def finishCycle (o : Host.Outcome State Fault Refusal) : Host.Outcome State Fault Refusal :=
  match o with
  | .next t => .next t.endCycle
  | .fault r => .fault r
  | .refused r => .refused r

/-- One cycle (R110) with the draw `s.rnd`, for a core that is not halted. -/
def cycle (cfg : Config) (execute : Instr → State → Host.Outcome State Fault Refusal) (s : State) :
    Host.Outcome State Fault Refusal :=
  let s1 := s.sampleKeys
  if s1.canFetch then
    finishCycle (execute (decodeWord cfg.strictDecode (s1.fetchWord cfg)) (s1.advance (s1.fetchWord cfg)))
  else .next (s1.enterFault s1.pc .fetchRange s1.pc)

/-- The draw handed over with a STEP (R288). -/
def State.withDraw (s : State) (b : Byte) : State := { s with rnd := b }

/-- `STEP(rnd)` (R288): one cycle when `HALT = 0`; no change at all when `HALT = 1` (R276). -/
def stepDrawing (cfg : Config) (execute : Instr → State → Host.Outcome State Fault Refusal) (b : Byte) (s : State) :
    Host.Outcome State Fault Refusal :=
  if s.halt then .next s else cycle cfg execute (s.withDraw b)

/-- The STEP counter's advance (the model's own, log 1). -/
def State.countDraw (s : State) : State := if s.halt then s else { s with draws := s.draws + 1 }

/-- `STEP` with a free draw (log 1): a fresh free value for each STEP of a running core. -/
def freeStep (cfg : Config) (execute : Instr → State → Host.Outcome State Fault Refusal) (s : State) :
    Host.Outcome State Fault Refusal :=
  stepDrawing cfg execute (Config.randomByte s.draws) s.countDraw

end Sys2Proof.Machine
end

