-- ==== Sys2Proof/Machine/Alu.lean ====
section
/-! DEFINITION. Loads, arithmetic, logic and the random byte (42_alu.md): step 3 of the cycle. The definitions ending in
`With` take the setting of ALU_ALIAS (00_scope.md R10, 42_alu.md R173). -/

namespace Sys2Proof.Machine

/-- LD Vx, byte, R160. -/
def execLdVxKk (x : Reg) (kk : Byte) (s : State) : Host.Outcome State Fault Refusal := .next (s.setV x kk)

/-- ADD Vx, byte, R161: wraps, no flag. -/
def execAddVxKk (x : Reg) (kk : Byte) (s : State) : Host.Outcome State Fault Refusal :=
  .next (s.setV x (s.getV x + kk))

/-- LD Vx, Vy, R162. -/
def execLdVxVy (x y : Reg) (s : State) : Host.Outcome State Fault Refusal := .next (s.setV x (s.getV y))

/-- OR Vx, Vy, R163: VF is not cleared. -/
def execOr (x y : Reg) (s : State) : Host.Outcome State Fault Refusal := .next (s.setV x (s.getV x ||| s.getV y))

/-- AND Vx, Vy, R164. -/
def execAnd (x y : Reg) (s : State) : Host.Outcome State Fault Refusal := .next (s.setV x (s.getV x &&& s.getV y))

/-- XOR Vx, Vy, R165. -/
def execXor (x y : Reg) (s : State) : Host.Outcome State Fault Refusal := .next (s.setV x (s.getV x ^^^ s.getV y))

/-- ADD Vx, Vy, R166: the result, then the carry. -/
def execAddVxVy (x y : Reg) (s : State) : Host.Outcome State Fault Refusal :=
  .next (s.resultThenFlag x y carryFlag (fun a b => a + b))

/-- SUB Vx, Vy, R167: the flag (a > b), then a - b. -/
def execSubWith (cfg : Config) (x y : Reg) (s : State) : Host.Outcome State Fault Refusal :=
  .next (s.flagThenResult cfg.aluAlias x y greaterFlag (fun a b => a - b))

/-- SUB Vx, Vy, R167, on this hardware (LATCHED). -/
def execSub (x y : Reg) (s : State) : Host.Outcome State Fault Refusal := execSubWith Config.hardware x y s

/-- SHR Vx, R168: the low bit, then a >> 1. -/
def execShrWith (cfg : Config) (x : Reg) (s : State) : Host.Outcome State Fault Refusal :=
  .next (s.flagThenResult cfg.aluAlias x x (fun a _ => lowBitFlag a) (fun a _ => a >>> 1))

/-- SHR Vx, R168, on this hardware (LATCHED). -/
def execShr (x : Reg) (s : State) : Host.Outcome State Fault Refusal := execShrWith Config.hardware x s

/-- SUBN Vx, Vy, R169: the flag (b > a), then b - a. -/
def execSubnWith (cfg : Config) (x y : Reg) (s : State) : Host.Outcome State Fault Refusal :=
  .next (s.flagThenResult cfg.aluAlias x y (fun a b => greaterFlag b a) (fun a b => b - a))

/-- SUBN Vx, Vy, R169, on this hardware (LATCHED). -/
def execSubn (x y : Reg) (s : State) : Host.Outcome State Fault Refusal := execSubnWith Config.hardware x y s

/-- SHL Vx, R170: the high bit, then (a << 1) mod 256. -/
def execShlWith (cfg : Config) (x : Reg) (s : State) : Host.Outcome State Fault Refusal :=
  .next (s.flagThenResult cfg.aluAlias x x (fun a _ => highBitFlag a) (fun a _ => a <<< 1))

/-- SHL Vx, R170, on this hardware (LATCHED). -/
def execShl (x : Reg) (s : State) : Host.Outcome State Fault Refusal := execShlWith Config.hardware x s

/-- RND Vx, byte, R171: the draw of this STEP (R12) and kk. -/
def execRnd (x : Reg) (kk : Byte) (s : State) : Host.Outcome State Fault Refusal := .next (s.setV x (s.rnd &&& kk))

end Sys2Proof.Machine
end

