-- ==== Sys2Proof/Machine/ControlFlow.lean ====
section
/-! DEFINITION. The control-flow instructions (41_control_flow.md): step 3 of the cycle, on entry `pc = p + 2`. -/

namespace Sys2Proof.Machine

/-- RET, R131. -/
def execRet (s : State) : Host.Outcome State Fault Refusal := .next s.popJump

/-- JP nnn, R133. -/
def execJp (nnn : BitVec 12) (s : State) : Host.Outcome State Fault Refusal := .next (s.setPc (addrOperand nnn))

/-- CALL nnn, R132. -/
def execCall (nnn : BitVec 12) (s : State) : Host.Outcome State Fault Refusal := .next (s.pushJump (addrOperand nnn))

/-- SE Vx, byte, R134. -/
def execSeVxKk (x : Reg) (kk : Byte) (s : State) : Host.Outcome State Fault Refusal :=
  .next (s.skipIf (s.getV x == kk))

/-- SNE Vx, byte, R135. -/
def execSneVxKk (x : Reg) (kk : Byte) (s : State) : Host.Outcome State Fault Refusal :=
  .next (s.skipIf (s.getV x != kk))

/-- SE Vx, Vy, R136. -/
def execSeVxVy (x y : Reg) (s : State) : Host.Outcome State Fault Refusal :=
  .next (s.skipIf (s.getV x == s.getV y))

/-- SNE Vx, Vy, R137. -/
def execSneVxVy (x y : Reg) (s : State) : Host.Outcome State Fault Refusal :=
  .next (s.skipIf (s.getV x != s.getV y))

/-- JP V0, addr, R138: no wrap, no 12-bit mask. -/
def execJpV0 (nnn : BitVec 12) (s : State) : Host.Outcome State Fault Refusal :=
  .next (s.setPc (addrOperand nnn + byteOperand (s.getV 0)))

end Sys2Proof.Machine
end

