-- ==== Sys2Proof/Machine/Display.lean ====
section
/-! DEFINITION. The display instructions (43_display.md): step 3 of the cycle, on entry `pc = p + 2`. -/

namespace Sys2Proof.Machine

/-- CLS, R200. -/
def execCls (s : State) : Host.Outcome State Fault Refusal := .next (s.setFb Framebuffer.clear)

/-- DRW, R201, under any setting of SPRITE_EDGE (R9). The origin is read before VF is written; the row addresses are
checked before any write. -/
def execDrwWith (cfg : Config) (x y : Reg) (n : Fin 16) (s : State) : Host.Outcome State Fault Refusal :=
  let drawn := drawRows cfg.spriteEdge (originRow (s.getV y)) (originCol (s.getV x)) (s.fb, false)
    (Memory.readBytes cfg s.mem (memBase s) n.val)
  s.checked (firstFailure readCheck (memBase s) n.val) ((s.setVF (collisionFlag drawn.2)).setFb drawn.1)

/-- DRW, R201, on this hardware (CLIP). -/
def execDrw (x y : Reg) (n : Fin 16) (s : State) : Host.Outcome State Fault Refusal :=
  execDrwWith Config.hardware x y n s

end Sys2Proof.Machine
end

