-- ==== Sys2Proof/Machine/IndexMemory.lean ====
section
/-! DEFINITION. The index register and the memory transfers (45_index_memory.md): step 3 of the cycle. The definitions
ending in `With` take the parameters (00_scope.md R6, R8, R11); `I` is never changed by a transfer. -/

namespace Sys2Proof.Machine

/-- LD I, addr, R240. -/
def execLdINnn (nnn : BitVec 12) (s : State) : Host.Outcome State Fault Refusal := .next (s.setIndex (addrOperand nnn))

/-- ADD I, Vx, R241: modulo 65536, no flag. -/
def execAddIVx (x : Reg) (s : State) : Host.Outcome State Fault Refusal :=
  .next (s.setIndex (s.index + byteOperand (s.getV x)))

/-- LD F, Vx, R242, for any FONT_BASE (R6). -/
def execLdFVxWith (cfg : Config) (x : Reg) (s : State) : Host.Outcome State Fault Refusal :=
  .next (s.setIndex (glyphAddr cfg (s.getV x)))

/-- LD F, Vx, R242, on this hardware. -/
def execLdFVx (x : Reg) (s : State) : Host.Outcome State Fault Refusal := execLdFVxWith Config.hardware x s

/-- Store bytes at `I`, `I + 1`, ... after the write checks of all of them (R246). -/
def storeAtIndex (cfg : Config) (s : State) (bytes : List Byte) : Host.Outcome State Fault Refusal :=
  s.checked (firstFailure (writeCheck cfg) (memBase s) bytes.length)
    (s.setMem (Memory.writeBytes cfg s.mem (memBase s) bytes))

/-- LD B, Vx, R243, under any setting of PROTECT_LOW (R11). -/
def execLdBVxWith (cfg : Config) (x : Reg) (s : State) : Host.Outcome State Fault Refusal :=
  storeAtIndex cfg s (bcdDigits (s.getV x))

/-- LD B, Vx, R243, on this hardware. -/
def execLdBVx (x : Reg) (s : State) : Host.Outcome State Fault Refusal := execLdBVxWith Config.hardware x s

/-- LD [I], Vx, R244, under any setting of DUMP_INCLUSIVE (R8) and PROTECT_LOW (R11). -/
def execLdMiVxWith (cfg : Config) (x : Reg) (s : State) : Host.Outcome State Fault Refusal :=
  storeAtIndex cfg s (s.v.toList.take (transferCount cfg x))

/-- LD [I], Vx, R244, on this hardware. -/
def execLdMiVx (x : Reg) (s : State) : Host.Outcome State Fault Refusal := execLdMiVxWith Config.hardware x s

/-- LD Vx, [I], R245, under any setting of DUMP_INCLUSIVE (R8). -/
def execLdVxMiWith (cfg : Config) (x : Reg) (s : State) : Host.Outcome State Fault Refusal :=
  s.checked (firstFailure readCheck (memBase s) (transferCount cfg x))
    { s with v := loadRegs cfg s.mem (memBase s) s.v (transferCount cfg x) }

/-- LD Vx, [I], R245, on this hardware. -/
def execLdVxMi (x : Reg) (s : State) : Host.Outcome State Fault Refusal := execLdVxMiWith Config.hardware x s

end Sys2Proof.Machine
end

