-- ==== Sys2Proof/Machine/KeypadTimers.lean ====
section
/-! DEFINITION. The keypad and timer instructions (44_keypad_timers.md): step 3 of the cycle. Keys are read in the
sample of the cycle (20_memory.md R62); the timers are those before the cycle's tick. -/

namespace Sys2Proof.Machine

/-- A keypad skip (R220, R221): KEY_RANGE when `V[x] > 15`, else a skip when the key is in the state asked for. -/
def State.keySkip (s : State) (x : Reg) (pressed : Bool) : State :=
  if h : (s.getV x).toNat < 16 then s.skipIf (s.keySample[(s.getV x).toNat] == pressed)
  else s.raise .keyRange (byteOperand (s.getV x))

/-- SKP Vx, R220. -/
def execSkp (x : Reg) (s : State) : Host.Outcome State Fault Refusal := .next (s.keySkip x true)

/-- SKNP Vx, R221. -/
def execSknp (x : Reg) (s : State) : Host.Outcome State Fault Refusal := .next (s.keySkip x false)

/-- LD Vx, DT, R222. -/
def execLdVxDt (x : Reg) (s : State) : Host.Outcome State Fault Refusal := .next (s.setV x s.dt)

/-- LD Vx, K, R223: the smallest pressed key, or the same instruction again next cycle. -/
def execLdVxK (x : Reg) (s : State) : Host.Outcome State Fault Refusal :=
  match lowestKey s.keySample with
  | some k => .next (s.setV x (BitVec.ofNat 8 k.val))
  | none => .next s.rewind

/-- LD DT, Vx, R224. -/
def execLdDtVx (x : Reg) (s : State) : Host.Outcome State Fault Refusal := .next (s.setDt (s.getV x))

/-- LD ST, Vx, R225. -/
def execLdStVx (x : Reg) (s : State) : Host.Outcome State Fault Refusal := .next (s.setSt (s.getV x))

end Sys2Proof.Machine
end

