-- ==== Sys2Proof/Machine/NullOp.lean ====
section
/-! DEFINITION. The null operation (40_cycle.md R116). -/

namespace Sys2Proof.Machine

/-- NULL, R116: step 3 does nothing; the cycle around it advances the pc and ticks the timers. -/
def execNull (s : State) : Host.Outcome State Fault Refusal := .next s

end Sys2Proof.Machine
end

