-- ==== Sys2Proof/Machine/Step.lean ====
section
/-! DEFINITION. One STEP of the machine (60_exceptions.md R288), and the placing of a word where it fetches next. -/

namespace Sys2Proof.Machine

/-- One STEP on this hardware, with a free draw. -/
def step (s : State) : Host.Outcome State Fault Refusal := freeStep Config.hardware exec s

/-- `s` with the two bytes of a table word where the next fetch reads, the first at the lower address (20_memory.md R52;
log 4). -/
def State.withFetchWord (s : State) (nbits w : Nat) : State :=
  s.setMem (Memory.writeBytes Config.hardware s.mem s.pc.toNat [highByte (tableWord nbits w), lowByte (tableWord nbits w)])

end Sys2Proof.Machine
end

