-- ==== Sys2Proof/Machine/HostPort.lean ====
section
/-! DEFINITION. The host's transactions (60_exceptions.md R287 to R294): STEP, READ, KEY_SET, LOAD, RESET, one at a
time, between cycles (20_memory.md R60). -/

namespace Sys2Proof.Machine

/-- What READ returns (R289); the framebuffer row-major: cell (row r, column c) is element r * 64 + c (10_state.md R33). -/
structure HostView where
  fb : Vector Bool 2048
  dt : Byte
  st : Byte
  tone : Bool
  halt : Bool
  fcause : BitVec 4
  fpc : Word
  finfo : Word
  opcode : Word
  deriving DecidableEq, Repr

/-- READ (R289): it changes nothing. -/
def State.hostView (s : State) : HostView where
  fb := Vector.ofFn fun k => s.fb.cell ⟨k.val / 64, by omega⟩ ⟨k.val % 64, by omega⟩
  dt := s.dt
  st := s.st
  tone := s.tone
  halt := s.halt
  fcause := s.fcause
  fpc := s.fpc
  finfo := s.finfo
  opcode := s.opcode

/-- `KEY_SET(k, v)` (R290): accepted whether or not the core is halted. -/
def State.keySet (s : State) (k : Fin 16) (v : Bool) : State := { s with keys := s.keys.set k v }

/-- `LOAD(bytes)` (R291): written from 0x200 on, or refused whole above 3584 bytes. -/
def State.load (cfg : Config) (s : State) (bytes : List Byte) : Host.Outcome State Fault Refusal :=
  if bytes.length > 0x1000 - 0x200 then .refused .loadTooLong
  else .next (s.setMem (Memory.writeBytes cfg s.mem 0x200 bytes))

/-- `RESET` (R292, 70_reset_and_hazards.md R310). The random source is outside the block (00_scope.md R12): the draw and
its counter stay (log 22). -/
def State.hostReset (s : State) : State := { State.reset with rnd := s.rnd, draws := s.draws }

/-- The transactions of R287. -/
inductive Transaction where
  | step (rnd : Byte)
  | read
  | keySet (k : Fin 16) (v : Bool)
  | load (bytes : List Byte)
  | reset
  deriving DecidableEq, Repr

/-- The state one transaction leaves. -/
def transact (t : Transaction) (s : State) : Host.Outcome State Fault Refusal :=
  match t with
  | .step b => stepDrawing Config.hardware exec b s
  | .read => .next s
  | .keySet k v => .next (s.keySet k v)
  | .load bytes => s.load Config.hardware bytes
  | .reset => .next s.hostReset

end Sys2Proof.Machine
end

