-- ==== Sys2Proof/Machine/Params.lean ====
section
/-! DEFINITION. The machine under any setting of the parameters of 00_scope.md R5 to R11: the spec's rules that depend
on one take it as an argument (R5, 42_alu.md R173). `exec` and `step` are this machine at `Config.hardware` (log 24;
Laws/Params.lean proves it). -/

namespace Sys2Proof.Machine

/-- Step 3 of the cycle under any parameters. -/
def execWith (cfg : Config) (i : Instr) (s : State) : Host.Outcome State Fault Refusal :=
  match i with
  | .cls => execCls s
  | .ret => execRet s
  | .jp nnn => execJp nnn s
  | .call nnn => execCall nnn s
  | .seVxKk x kk => execSeVxKk x kk s
  | .sneVxKk x kk => execSneVxKk x kk s
  | .seVxVy x y => execSeVxVy x y s
  | .ldVxKk x kk => execLdVxKk x kk s
  | .addVxKk x kk => execAddVxKk x kk s
  | .ldVxVy x y => execLdVxVy x y s
  | .or x y => execOr x y s
  | .and x y => execAnd x y s
  | .xor x y => execXor x y s
  | .addVxVy x y => execAddVxVy x y s
  | .sub x y => execSubWith cfg x y s
  | .shr x => execShrWith cfg x s
  | .subn x y => execSubnWith cfg x y s
  | .shl x => execShlWith cfg x s
  | .sneVxVy x y => execSneVxVy x y s
  | .ldINnn nnn => execLdINnn nnn s
  | .jpV0 nnn => execJpV0 nnn s
  | .rnd x kk => execRnd x kk s
  | .drw x y n => execDrwWith cfg x y n s
  | .skp x => execSkp x s
  | .sknp x => execSknp x s
  | .ldVxDt x => execLdVxDt x s
  | .ldVxK x => execLdVxK x s
  | .ldDtVx x => execLdDtVx x s
  | .ldStVx x => execLdStVx x s
  | .addIVx x => execAddIVx x s
  | .ldFVx x => execLdFVxWith cfg x s
  | .ldBVx x => execLdBVxWith cfg x s
  | .ldMiVx x => execLdMiVxWith cfg x s
  | .ldVxMi x => execLdVxMiWith cfg x s
  | .null _ => execNull s

/-- One STEP under any parameters. -/
def stepWith (cfg : Config) (s : State) : Host.Outcome State Fault Refusal := freeStep cfg (execWith cfg) s

end Sys2Proof.Machine
end

