-- ==== Sys2Proof/Safety.lean ====
section
/-! DEFINITION. The words the claims use: a byte of memory, what an instruction may change, fault entry, the machine's
invariants, and the register tables of 10_state.md R22 and R25. -/

namespace Sys2Proof.Machine

/-- The byte at an address on this hardware. -/
abbrev State.byte (s : State) (a : Nat) : Byte := Memory.read Config.hardware s.mem a

/-- The word in the two bytes at an address, big-endian (20_memory.md R52). -/
abbrev State.wordAt (s : State) (a : Nat) : Word := BitVec.ofNat 16 ((s.byte a).toNat * 256 + (s.byte (a + 1)).toNat)

/-- The next STEP executes this instruction: the core is not halted, the fetch is in range, and the word at the pc
decodes to it. -/
def State.runs (s : State) (i : Instr) : Prop :=
  s.halt = false ∧ s.pc.toNat + 1 ≤ 0xFFF ∧ decodeWord Config.hardware.strictDecode (s.wordAt s.pc.toNat) = i

/-- On this hardware every word under the mask decodes so (30_encoding.md R87). -/
def Encodes (mask value : Word) (instr : Word → Instr) : Prop :=
  ∀ op, op &&& mask = value → decodeWord Config.hardware.strictDecode op = instr op

/-! ## Frames: what is left unchanged -/

/-- Nothing but the listed registers differs; every byte of memory reads as before. -/
def OnlyRegs (xs : List Reg) (s t : State) : Prop :=
  t = { s with v := t.v } ∧ (∀ r, r ∉ xs → t.getV r = s.getV r) ∧ ∀ a, t.byte a = s.byte a

/-- Nothing but the pc differs; every byte of memory reads as before. -/
def OnlyPc (s t : State) : Prop := t = { s with pc := t.pc } ∧ ∀ a, t.byte a = s.byte a

/-- Nothing but I differs; every byte of memory reads as before. -/
def OnlyIndex (s t : State) : Prop := t = { s with index := t.index } ∧ ∀ a, t.byte a = s.byte a

/-- Nothing but the `len` bytes from `base` on differs. -/
def OnlyBytes (base len : Nat) (s t : State) : Prop :=
  t = { s with mem := t.mem } ∧ ∀ a, a < base ∨ base + len ≤ a → t.byte a = s.byte a

/-- Fault entry in step 3 (60_exceptions.md R275): the four fault registers, the pc back at the instruction, nothing
else. -/
def FaultsWith (code : BitVec 4) (info : Nat) (s t : State) : Prop :=
  t = { s with pc := s.pc - 2#16, halt := true, fcause := code, fpc := s.pc - 2#16, finfo := BitVec.ofNat 16 info }

/-! ## Sprites, cell by cell (43_display.md R201) -/

/-- Does a set bit of the sprite land on this cell, clipped at the edges. -/
def spriteClip (s : State) (x y : Reg) (n : Fin 16) (r : Fin 32) (c : Fin 64) : Bool :=
  let oy := (s.getV y).toNat % 32
  let ox := (s.getV x).toNat % 64
  decide (oy ≤ r.val ∧ r.val < oy + n.val ∧ ox ≤ c.val ∧ c.val < ox + 8) &&
    (s.byte (memBase s + (r.val - oy))).getLsbD (7 - (c.val - ox))

/-- Does a set bit of the sprite land on this cell, wrapped around the edges. -/
def spriteWrap (cfg : Config) (s : State) (x y : Reg) (n : Fin 16) (r : Fin 32) (c : Fin 64) : Bool :=
  let dy := (r.val + 32 - (s.getV y).toNat % 32) % 32
  let dx := (c.val + 64 - (s.getV x).toNat % 64) % 64
  decide (dy < n.val ∧ dx < 8) && (Memory.read cfg s.mem (memBase s + dy)).getLsbD (7 - dx)

end Sys2Proof.Machine

/-! ## The register tables -/

namespace Sys2Proof

/-- The registers an instruction may write (10_state.md R22). -/
def Instr.writesV (i : Instr) (r : Reg) : Bool :=
  match i with
  | .ldVxKk x _ | .rnd x _ | .ldVxDt x | .ldVxK x | .addVxKk x _ => r == x
  | .ldVxVy x _ | .or x _ | .and x _ | .xor x _ => r == x
  | .addVxVy x _ | .sub x _ | .subn x _ | .shr x | .shl x => r == x || r == Config.flagReg
  | .drw _ _ _ => r == Config.flagReg
  | .ldVxMi x => decide (r ≤ x)
  | .cls | .ret | .jp _ | .call _ | .seVxKk _ _ | .sneVxKk _ _ | .seVxVy _ _ | .sneVxVy _ _ | .ldINnn _ | .jpV0 _
  | .skp _ | .sknp _ | .ldDtVx _ | .ldStVx _ | .addIVx _ | .ldFVx _ | .ldBVx _ | .ldMiVx _ | .null _ => false

/-- The registers an instruction reads (10_state.md R22). -/
def Instr.readsV (i : Instr) (r : Reg) : Bool :=
  match i with
  | .seVxKk x _ | .sneVxKk x _ | .skp x | .sknp x | .ldDtVx x | .ldStVx x | .addIVx x | .ldFVx x | .ldBVx x
  | .addVxKk x _ | .shr x | .shl x => r == x
  | .seVxVy x y | .sneVxVy x y | .or x y | .and x y | .xor x y | .addVxVy x y | .sub x y | .subn x y
  | .drw x y _ => r == x || r == y
  | .ldVxVy _ y => r == y
  | .jpV0 _ => r == 0
  | .ldMiVx x => decide (r ≤ x)
  | .cls | .ret | .jp _ | .call _ | .ldVxKk _ _ | .rnd _ _ | .ldVxDt _ | .ldVxK _ | .ldINnn _ | .ldVxMi _
  | .null _ => false

/-- The instructions that may leave the pc elsewhere than after themselves (10_state.md R25). -/
def Instr.movesPc : Instr → Bool
  | .ret | .jp _ | .call _ | .jpV0 _ | .seVxKk _ _ | .sneVxKk _ _ | .seVxVy _ _ | .sneVxVy _ _ | .skp _ | .sknp _
  | .ldVxK _ => true
  | .cls | .ldVxKk _ _ | .addVxKk _ _ | .ldVxVy _ _ | .or _ _ | .and _ _ | .xor _ _ | .addVxVy _ _ | .sub _ _
  | .shr _ | .subn _ _ | .shl _ | .ldINnn _ | .rnd _ _ | .drw _ _ _ | .ldVxDt _ | .ldDtVx _ | .ldStVx _ | .addIVx _
  | .ldFVx _ | .ldBVx _ | .ldMiVx _ | .ldVxMi _ | .null _ => false

/-- The instructions whose rule names a parameter of 00_scope.md R6 to R11, or reads memory, whose reset contents depend
on the font (R6, R7). -/
def Instr.takesParameter : Instr → Bool
  | .sub _ _ | .shr _ | .subn _ _ | .shl _ | .drw _ _ _ | .ldFVx _ | .ldBVx _ | .ldMiVx _ | .ldVxMi _ => true
  | .cls | .ret | .jp _ | .call _ | .seVxKk _ _ | .sneVxKk _ _ | .seVxVy _ _ | .ldVxKk _ _ | .addVxKk _ _
  | .ldVxVy _ _ | .or _ _ | .and _ _ | .xor _ _ | .addVxVy _ _ | .sneVxVy _ _ | .ldINnn _ | .jpV0 _ | .rnd _ _
  | .skp _ | .sknp _ | .ldVxDt _ | .ldVxK _ | .ldDtVx _ | .ldStVx _ | .addIVx _ | .null _ => false

end Sys2Proof

/-! ## Invariants -/

namespace Sys2Proof.Machine

/-- Memory is in its canonical form. -/
abbrev MemInv (s : State) : Prop := Memory.wf Config.hardware s.mem = true

/-- The reserved region reads as reset leaves it: the font table is never mutated (20_memory.md R57, R58). -/
def ReservedInv (s : State) : Prop := ∀ a, a < 0x200 → s.byte a = Memory.unlisted Config.hardware a

/-- The pc is at most 0x10FE (10_state.md R27), and no stack entry exceeds the largest return address. -/
abbrev PcInv (s : State) : Prop := s.pc.toNat ≤ 0x10FE ∧ ∀ j : Fin 16, s.stack[j].toNat ≤ 0x1000

/-- The fault registers hold what a fault writes, or the reset value 0 (10_state.md R35). -/
abbrev FaultInv (s : State) : Prop :=
  (s.halt = false → s.fcause = 0#4 ∧ s.fpc = 0#16 ∧ s.finfo = 0#16) ∧
  (s.halt = true → 1 ≤ s.fcause.toNat ∧ s.fcause.toNat ≤ 7 ∧ s.fpc = s.pc)

/-- All of them. -/
def Inv (s : State) : Prop := MemInv s ∧ ReservedInv s ∧ PcInv s ∧ FaultInv s

/-- A safe run stays out of the halted state. -/
def Safe (s : State) : Prop := s.halt = false

end Sys2Proof.Machine
end

