-- ==== Sys2Proof/Certificates/Slice0/Obligations.lean ====
section
/-! DEFINITION. The statements for the provers. Each docstring names the rule of spec/ it formalises; where a clause rests
on a decision the spec marks as its own (D<n>) or on the model's choice (log <n>), it says so. -/

open Sys2Proof Sys2Proof.Machine

/-- Words written out in the spec decode to the instructions they stand for. The four words of the source scenario and a
few more of the spec decode, laid out as bytes, to their instructions with their operands. Patterns beyond the four
rest on the spec's decision D2 (log 7). [30_encoding.md section 1 (the words of the scenario) and section 2;
95_test_vectors.md S8, V-CF-11, V-DEC-1, V-DEC-4, V-KEY-6] -/
def Obligations.SpecWordsDecode : Prop :=
  decodeTableWord 16 0x6005 = some (.ldVxKk 0 5) ∧ decodeTableWord 16 0x6103 = some (.ldVxKk 1 3) ∧
  decodeTableWord 16 0x8014 = some (.addVxVy 0 1) ∧ decodeTableWord 16 0x00E0 = some .cls ∧
  decodeTableWord 16 0x012E = some .ret ∧ decodeTableWord 16 0x5121 = some (.seVxVy 1 2) ∧
  decodeTableWord 16 0xD125 = some (.drw 1 2 5) ∧ decodeTableWord 16 0xE0AE = some (.skp 0) ∧
  decodeTableWord 16 0xF20A = some (.ldVxK 2) ∧ decodeTableWord 16 0x8008 = some (.null 0x8008)

/-- Decoding the encoding of a well-formed instruction gives it back, under both settings of STRICT_DECODE. For every
instruction, with every operand at every value, and both settings of STRICT_DECODE: if it is well formed, decoding
its word gives it back. Rests on the spec's patterns (D2, log 7). [30_encoding.md R82, R87, R92] -/
def Obligations.DecodeEncodeRoundTrip : Prop :=
  ∀ (strict : Bool) (i : Instr), i.wellFormed strict = true → decodeWord strict (encode i) = i

/-- The dispatcher is the opcode map: a word matches a row exactly when it decodes to that row. For both settings of
STRICT_DECODE, every word and every one of the 34 rows of the opcode map: the word matches the row's mask and match
exactly when the decoder gives an instruction of that row. So no word matches two rows, and a word that decodes to
the null operation matches none. [30_encoding.md R87, R90; 93_implementation_defined.md G3] -/
def Obligations.DecodeAgreesWithOpcodeMap : Prop :=
  opRows.length = 34 ∧
  ∀ (strict : Bool) (op : Word) (r : OpRow), r ∈ opRows →
    (r.hits strict op = true ↔ (decodeWord strict op).row = some r)

/-- A word is the null operation exactly when it lies in the null-operation space. For both settings of STRICT_DECODE
and every word: the decoder gives the null operation (carrying that word) exactly when the word lies in the null
space the spec lists, and every decoded instruction is well formed. [30_encoding.md R88, R89] -/
def Obligations.NullSpaceIsExact : Prop :=
  ∀ (strict : Bool) (op : Word),
    (decodeWord strict op = .null op ↔ nullWord strict op = true) ∧ (decodeWord strict op).wellFormed strict = true

/-- Setting STRICT_DECODE turns words into null operations and changes no other decoding. If a word is not the null
operation with STRICT_DECODE true, both settings decode it alike; and a word that is null with false is null with
true. [00_scope.md R5; 30_encoding.md R85, R86, R88] -/
def Obligations.StrictDecodeOnlyRemovesWords : Prop :=
  ∀ op : Word,
    (decodeWord true op ≠ .null op → decodeWord false op = decodeWord true op) ∧
    (decodeWord false op = .null op → decodeWord true op = .null op)

/-- The byte at the pc is the high byte of the fetched word, and bytes decode in pairs. The fetched word is 256 times
the byte at the pc plus the byte after it; decoding a list of bytes takes the first two, the first as the high byte,
and returns the rest. [20_memory.md R52; 30_encoding.md R80, R91; 40_cycle.md R111] -/
def Obligations.FetchIsBigEndian : Prop :=
  (∀ s : State, (s.fetchWord Config.hardware).toNat = (s.byte s.pc.toNat).toNat * 256 + (s.byte (s.pc.toNat + 1)).toNat) ∧
  (∀ (strict : Bool) (hi lo : Byte) (rest : List Byte),
    decode strict (hi :: lo :: rest) = .ok (decodeWord strict (BitVec.ofNat 16 (hi.toNat * 256 + lo.toNat)), rest))

/-- A step, and STEP(b), is exec of the instruction at the pc, between fetch and tick, with that draw. If the core is
not halted and the word at the pc decodes to i, then step executes i on the state with the keypad sampled, the draw
of this STEP in place (model's form of the input, log 1), the word in OPCODE and the pc advanced by 2; if exec
answers t, step answers t with both timers ticked, or t itself when i has faulted. The transaction STEP(b) does the
same with the draw b. [40_cycle.md R110 to R114; 60_exceptions.md R288 (decisions D1, D16); 95_test_vectors.md H7] -/
def Obligations.StepRunsTheDecodedInstruction : Prop :=
  ∀ (s t : State) (i : Instr), s.runs i →
    (exec i { s with keySample := s.keys, rnd := Config.randomByte s.draws, draws := s.draws + 1,
                     opcode := s.wordAt s.pc.toNat, pc := s.pc + 2#16 } = .next t →
      step s = .next (if t.halt then t else
        { t with dt := if t.dt = 0#8 then 0#8 else t.dt - 1#8, st := if t.st = 0#8 then 0#8 else t.st - 1#8 })) ∧
    ∀ b : Byte,
      exec i { s with keySample := s.keys, rnd := b, opcode := s.wordAt s.pc.toNat, pc := s.pc + 2#16 } = .next t →
      transact (.step b) s = .next (if t.halt then t else
        { t with dt := if t.dt = 0#8 then 0#8 else t.dt - 1#8, st := if t.st = 0#8 then 0#8 else t.st - 1#8 })

/-- While HALT is 1 a STEP changes no state at all. For every state with HALT = 1, step answers that state, and so does
a STEP transaction with any draw (the spec's decision D9, log 5, 14). [60_exceptions.md R276 (decision D9)] -/
def Obligations.HaltedStepChangesNothing : Prop :=
  ∀ s : State, s.halt = true → step s = .next s ∧ ∀ b : Byte, transact (.step b) s = .next s

/-- A fetch at or above 0xFFF faults FETCH_RANGE and leaves everything else. If the core is not halted and pc >= 0xFFF,
step enters the fault with cause 1, FPC and FINFO the pc; only the fault registers, the keypad sample and the
model's own draw fields (log 1, 3) differ. STEP(b) does the same with the draw b. [40_cycle.md R111 (decision D11);
60_exceptions.md R272, R275, R288] -/
def Obligations.FetchOutOfRangeFaults : Prop :=
  ∀ s : State, s.halt = false → 0xFFF ≤ s.pc.toNat →
    step s = .next { s with keySample := s.keys, rnd := Config.randomByte s.draws, draws := s.draws + 1,
                            halt := true, fcause := 1#4, fpc := s.pc, finfo := s.pc } ∧
    ∀ b : Byte, transact (.step b) s = .next { s with keySample := s.keys, rnd := b, halt := true, fcause := 1#4,
                                                      fpc := s.pc, finfo := s.pc }

/-- A cycle that faults leaves the state before it, plus the fault registers and OPCODE. If a running core's step ends
halted, every register, memory byte, stack entry, timer and framebuffer cell is as before the step, the pc and FPC
are the address of the instruction, and OPCODE holds the fetched word, or is unchanged when the fetch itself
faulted. (The keypad sample and the draw fields of log 1, 3 are the cycle's inputs.) [60_exceptions.md R275
(decision D9)] -/
def Obligations.FaultsArePrecise : Prop :=
  ∀ s t : State, s.halt = false → step s = .next t → t.halt = true →
    t = { s with keySample := s.keys, rnd := Config.randomByte s.draws, draws := s.draws + 1, opcode := t.opcode,
                 halt := true, fcause := t.fcause, fpc := s.pc, finfo := t.finfo } ∧
    (s.pc.toNat + 1 ≤ 0xFFF → t.opcode = s.wordAt s.pc.toNat) ∧
    (0xFFF ≤ s.pc.toNat → t.opcode = s.opcode ∧ t.fcause = 1#4)

/-- An instruction faults only for the causes of the table, with the table's code and FINFO. If exec of an instruction
on a running core answers a halted state, the instruction, the condition, the code and FINFO are those of one row of
the fault table; nothing else faults. [60_exceptions.md R270, R272, R273, R278 (decisions D9 to D13)] -/
def Obligations.FaultCausesAreThoseOfTheTable : Prop :=
  ∀ (i : Instr) (s t : State), s.halt = false → exec i s = .next t → t.halt = true →
    (∃ nnn, i = .call nnn ∧ s.sp.val = 16 ∧ FaultsWith 2#4 16 s t) ∨
    (i = .ret ∧ s.sp.val = 0 ∧ FaultsWith 3#4 0 s t) ∨
    (∃ x y n, i = .drw x y n ∧ 0 < n.val ∧ 0x1000 < memBase s + n.val ∧ FaultsWith 4#4 (max (memBase s) 0x1000) s t) ∨
    (∃ x, i = .ldVxMi x ∧ 0x1000 < memBase s + x.val + 1 ∧ FaultsWith 4#4 (max (memBase s) 0x1000) s t) ∨
    (∃ x len, (i = .ldBVx x ∧ len = 3 ∨ i = .ldMiVx x ∧ len = x.val + 1) ∧
      (0x200 ≤ memBase s ∧ 0x1000 < memBase s + len ∧ FaultsWith 5#4 (max (memBase s) 0x1000) s t ∨
       memBase s < 0x200 ∧ FaultsWith 6#4 (memBase s) s t)) ∨
    (∃ x, (i = .skp x ∨ i = .sknp x) ∧ 15 < (s.getV x).toNat ∧ FaultsWith 7#4 (s.getV x).toNat s t)

/-- No step and no instruction ever stops the machine without a next state. For every state step answers a next state,
and so does exec for every instruction and every host transaction but a LOAD of more than 3584 bytes (log 5).
[30_encoding.md R89, R90; 60_exceptions.md R270, R291] -/
def Obligations.EveryStepCompletes : Prop :=
  (∀ s : State, ∃ t, step s = .next t) ∧ (∀ (i : Instr) (s : State), ∃ t, exec i s = .next t) ∧
  (∀ (x : Transaction) (s : State), (∀ bytes, x = .load bytes → bytes.length ≤ 3584) → ∃ t, transact x s = .next t)

/-- LD Vx, byte: register x = kk and nothing else changes. Every word under mask F000 match 6000 decodes to LD Vx, byte
with x = op[11:8], kk = op[7:0]; it completes on every state, sets V[x] to kk and changes nothing else (with x = 0xF
the flag register like any other). [R160] -/
def Obligations.LoadImmediateSetsVx : Prop :=
  Encodes 0xF000 0x6000 (fun op => .ldVxKk (opX op) (opKK op)) ∧
  ∀ (x : Reg) (kk : Byte) (s : State), ∃ t, exec (.ldVxKk x kk) s = .next t ∧ t.getV x = kk ∧ OnlyRegs [x] s t

/-- ADD Vx, byte: register x += kk modulo 256, no carry flag. Every word under mask F000 match 7000 decodes to ADD Vx,
byte; it completes on every state, sets V[x] to (V[x] + kk) mod 256 and changes nothing else, VF keeping its value
unless x = 0xF. [R161] -/
def Obligations.AddImmediateWrapsWithoutFlag : Prop :=
  Encodes 0xF000 0x7000 (fun op => .addVxKk (opX op) (opKK op)) ∧
  ∀ (x : Reg) (kk : Byte) (s : State), ∃ t, exec (.addVxKk x kk) s = .next t ∧
    (t.getV x).toNat = ((s.getV x).toNat + kk.toNat) % 256 ∧ OnlyRegs [x] s t

/-- LD Vx, Vy, OR, AND, XOR: the bitwise result in register x, no flag. The words of the four encodings decode to them;
each completes on every state, leaves in each bit of V[x] the copy, or, and, xor of the bits of V[x] and V[y], and
changes nothing else; x = y copies, keeps or clears. [R162; R163; R164; R165] -/
def Obligations.CopyAndLogicWithoutFlags : Prop :=
  Encodes 0xF00F 0x8000 (fun op => .ldVxVy (opX op) (opY op)) ∧ Encodes 0xF00F 0x8001 (fun op => .or (opX op) (opY op)) ∧
  Encodes 0xF00F 0x8002 (fun op => .and (opX op) (opY op)) ∧ Encodes 0xF00F 0x8003 (fun op => .xor (opX op) (opY op)) ∧
  ∀ (x y : Reg) (s : State),
    (∃ t, exec (.ldVxVy x y) s = .next t ∧ t.getV x = s.getV y ∧ OnlyRegs [x] s t) ∧
    (∃ t, exec (.or x y) s = .next t ∧ OnlyRegs [x] s t ∧
      ∀ k, (t.getV x).getLsbD k = ((s.getV x).getLsbD k || (s.getV y).getLsbD k)) ∧
    (∃ t, exec (.and x y) s = .next t ∧ OnlyRegs [x] s t ∧
      ∀ k, (t.getV x).getLsbD k = ((s.getV x).getLsbD k && (s.getV y).getLsbD k)) ∧
    (∃ t, exec (.xor x y) s = .next t ∧ OnlyRegs [x] s t ∧
      ∀ k, (t.getV x).getLsbD k = ((s.getV x).getLsbD k ^^ (s.getV y).getLsbD k))

/-- ADD Vx, Vy: the sum modulo 256 in register x, then VF = 1 exactly on a carry. It completes on every state. VF ends
as 1 when V[x] + V[y] > 255 and 0 otherwise, also with x = 0xF; for x other than 0xF, V[x] is the sum mod 256, and
VF is 1 exactly when the new V[x] is below the old; nothing else changes. [42_alu.md R166, R173 (decision D8,
conflict C4)] -/
def Obligations.AddRegistersSetsCarry : Prop :=
  ∀ (x y : Reg) (s : State), ∃ t, exec (.addVxVy x y) s = .next t ∧ OnlyRegs [x, 15] s t ∧
    t.getV 15 = (if (s.getV x).toNat + (s.getV y).toNat > 255 then 1#8 else 0#8) ∧
    (x ≠ 15 → (t.getV x).toNat = ((s.getV x).toNat + (s.getV y).toNat) % 256 ∧
      (t.getV 15 = 1#8 ↔ (t.getV x).toNat < (s.getV x).toNat))

/-- SUB and SUBN: VF = 1 exactly when strictly greater, then the difference modulo 256 in register x. Both complete on
every state. SUB leaves (V[x] - V[y]) mod 256 in V[x], SUBN (V[y] - V[x]) mod 256, with operands read before any
write; for x other than 0xF, VF is 1 when V[x] > V[y] (SUB) or V[y] > V[x] (SUBN), else 0, so 0 when they are equal;
with x = 0xF the difference stays; nothing else changes. [42_alu.md R167, R169, R173 (decisions D8, D27, conflict
C2)] -/
def Obligations.SubtractsSetStrictFlag : Prop :=
  ∀ (x y : Reg) (s : State),
    (∃ t, exec (.sub x y) s = .next t ∧ OnlyRegs [x, 15] s t ∧
      (t.getV x).toNat = ((s.getV x).toNat + 256 - (s.getV y).toNat) % 256 ∧
      (x ≠ 15 → t.getV 15 = if (s.getV x).toNat > (s.getV y).toNat then 1#8 else 0#8)) ∧
    (∃ t, exec (.subn x y) s = .next t ∧ OnlyRegs [x, 15] s t ∧
      (t.getV x).toNat = ((s.getV y).toNat + 256 - (s.getV x).toNat) % 256 ∧
      (x ≠ 15 → t.getV 15 = if (s.getV y).toNat > (s.getV x).toNat then 1#8 else 0#8))

/-- SHR and SHL: VF = the bit shifted out, then the shifted value in register x. Every word under mask F00F match 8006
or 800E decodes to SHR or SHL of x = op[11:8], whatever y. Both complete on every state. SHR leaves V[x] / 2 in V[x]
and, for x other than 0xF, V[x] mod 2 in VF; SHL leaves 2 * V[x] mod 256 and V[x] / 128; with x = 0xF the shifted
value stays; V[y] is no operand; nothing else changes. [42_alu.md R168, R170, R173 (decision D8, conflict C5);
30_encoding.md R87 (decision D2)] -/
def Obligations.ShiftsPutTheLostBitInVF : Prop :=
  Encodes 0xF00F 0x8006 (fun op => .shr (opX op)) ∧ Encodes 0xF00F 0x800E (fun op => .shl (opX op)) ∧
  ∀ (x : Reg) (s : State),
    (∃ t, exec (.shr x) s = .next t ∧ OnlyRegs [x, 15] s t ∧ (t.getV x).toNat = (s.getV x).toNat / 2 ∧
      (x ≠ 15 → (t.getV 15).toNat = (s.getV x).toNat % 2)) ∧
    (∃ t, exec (.shl x) s = .next t ∧ OnlyRegs [x, 15] s t ∧ (t.getV x).toNat = (s.getV x).toNat * 2 % 256 ∧
      (x ≠ 15 → (t.getV 15).toNat = (s.getV x).toNat / 128))

/-- With ALU_ALIAS = REREAD the VF cases end as the aliasing table says. Under any parameters with REREAD: 8Fy5 leaves f
- b, 8xF5 leaves a - f with VF = f, 8Fy6 leaves 0, 8Fy7 leaves b - f, 8xF7 leaves f - a with VF = f, 8FyE leaves 2f,
8FF5 and 8FF7 leave 0, all modulo 256 (a = V[x], b = V[y] before, f the flag of the rule). [42_alu.md R173 (its
REREAD column, decision D8)] -/
def Obligations.RereadAliasing : Prop :=
  ∀ (cfg : Config), cfg.aluAlias = .reread → ∀ (s : State) (r : Reg), r ≠ 15 →
    (∃ t, execWith cfg (.sub 15 r) s = .next t ∧
      t.getV 15 = (if (s.getV 15).toNat > (s.getV r).toNat then 1#8 else 0#8) - s.getV r) ∧
    (∃ t, execWith cfg (.sub r 15) s = .next t ∧
      t.getV 15 = (if (s.getV r).toNat > (s.getV 15).toNat then 1#8 else 0#8) ∧ t.getV r = s.getV r - t.getV 15) ∧
    (∃ t, execWith cfg (.shr 15) s = .next t ∧ t.getV 15 = 0#8) ∧
    (∃ t, execWith cfg (.subn 15 r) s = .next t ∧
      t.getV 15 = s.getV r - (if (s.getV r).toNat > (s.getV 15).toNat then 1#8 else 0#8)) ∧
    (∃ t, execWith cfg (.subn r 15) s = .next t ∧
      t.getV 15 = (if (s.getV 15).toNat > (s.getV r).toNat then 1#8 else 0#8) ∧ t.getV r = t.getV 15 - s.getV r) ∧
    (∃ t, execWith cfg (.shl 15) s = .next t ∧ (t.getV 15).toNat = (s.getV 15).toNat / 128 * 2) ∧
    (∃ t, execWith cfg (.sub 15 15) s = .next t ∧ t.getV 15 = 0#8) ∧
    (∃ t, execWith cfg (.subn 15 15) s = .next t ∧ t.getV 15 = 0#8)

/-- LATCHED and REREAD differ only for SUB, SUBN with VF as an operand and for SHR, SHL of VF. For every instruction
other than SUB or SUBN with x or y = 0xF and SHR or SHL with x = 0xF, the machine answers the same under both
settings of ALU_ALIAS. [00_scope.md R10 (decision D8, conflict C9)] -/
def Obligations.AliasSettingsDifferOnlyAtVF : Prop :=
  ∀ (cfg : Config) (i : Instr) (s : State),
    (∀ x y, i = .sub x y ∨ i = .subn x y → x ≠ 15 ∧ y ≠ 15) → (∀ x, i = .shr x ∨ i = .shl x → x ≠ 15) →
    execWith { cfg with aluAlias := .latched } i s = execWith { cfg with aluAlias := .reread } i s

/-- RND Vx, byte: register x = the draw of this STEP and kk, whatever the draw. It completes on every state and for
every draw: V[x] becomes the draw and kk, so 0 when kk = 0 and the draw when kk = 0xFF; nothing else changes. The
draw is the model's field rnd (log 1); the statement holds for every value of it. [42_alu.md R171 (decision D16);
00_scope.md R12] -/
def Obligations.RandomAndMaskUsesTheDraw : Prop :=
  ∀ (x : Reg) (kk : Byte) (s : State), ∃ t, exec (.rnd x kk) s = .next t ∧ OnlyRegs [x] s t ∧
    t.getV x = s.rnd &&& kk ∧ (kk = 0x00#8 → t.getV x = 0#8) ∧ (kk = 0xFF#8 → t.getV x = s.rnd)

/-- The draw reaches only Cxkk, the keypad sample only Ex9E, ExA1, Fx0A, and the keypad cells no instruction. Changing
the draw changes nothing but the draw in what any instruction other than RND does; changing the keypad sample,
likewise for any other than SKP, SKNP, LD Vx, K; changing the cells (after the sample is taken), for every
instruction. [60_exceptions.md R288; 10_state.md R32, R22; 20_memory.md R62] -/
def Obligations.InputsReachOnlyTheirReaders : Prop :=
  (∀ (i : Instr) (s : State) (b : Byte), (∀ x kk, i ≠ .rnd x kk) →
    ∃ t, exec i s = .next t ∧ exec i { s with rnd := b } = .next { t with rnd := b }) ∧
  (∀ (i : Instr) (s : State) (k : Keypad), (∀ x, i ≠ .skp x ∧ i ≠ .sknp x ∧ i ≠ .ldVxK x) →
    ∃ t, exec i s = .next t ∧ exec i { s with keySample := k } = .next { t with keySample := k }) ∧
  (∀ (i : Instr) (s : State) (k : Keypad),
    ∃ t, exec i s = .next t ∧ exec i { s with keys := k } = .next { t with keys := k })

/-- JP nnn: PC = nnn and nothing else changes. Every word under mask F000 match 1000 decodes to JP nnn; it completes on
every state with pc = nnn zero-extended, and changes nothing else. [R133] -/
def Obligations.JumpSetsPc : Prop :=
  Encodes 0xF000 0x1000 (fun op => .jp (opNNN op)) ∧
  ∀ (nnn : BitVec 12) (s : State), ∃ t, exec (.jp nnn) s = .next t ∧ t.pc.toNat = nnn.toNat ∧ OnlyPc s t

/-- The four register skips add 2 to the pc exactly when their condition holds. The words of the four encodings decode
to them (the low nibble of 5xyN and 9xyN ignored on this hardware); each completes on every state, adds 2 to the
advanced pc when its comparison holds and leaves it otherwise, and changes nothing else. [R134; R135; R136; R137] -/
def Obligations.SkipsAddTwoWhenTheirConditionHolds : Prop :=
  Encodes 0xF000 0x3000 (fun op => .seVxKk (opX op) (opKK op)) ∧
  Encodes 0xF000 0x4000 (fun op => .sneVxKk (opX op) (opKK op)) ∧
  Encodes 0xF000 0x5000 (fun op => .seVxVy (opX op) (opY op)) ∧
  Encodes 0xF000 0x9000 (fun op => .sneVxVy (opX op) (opY op)) ∧
  (∀ op : Word, op &&& 0xF00F = 0x5000 → decodeWord true op = .seVxVy (opX op) (opY op)) ∧
  (∀ op : Word, op &&& 0xF00F = 0x9000 → decodeWord true op = .sneVxVy (opX op) (opY op)) ∧
  ∀ (x y : Reg) (kk : Byte) (s : State),
    (∃ t, exec (.seVxKk x kk) s = .next t ∧ OnlyPc s t ∧ t.pc = if s.getV x = kk then s.pc + 2#16 else s.pc) ∧
    (∃ t, exec (.sneVxKk x kk) s = .next t ∧ OnlyPc s t ∧ t.pc = if s.getV x ≠ kk then s.pc + 2#16 else s.pc) ∧
    (∃ t, exec (.seVxVy x y) s = .next t ∧ OnlyPc s t ∧ t.pc = if s.getV x = s.getV y then s.pc + 2#16 else s.pc) ∧
    (∃ t, exec (.sneVxVy x y) s = .next t ∧ OnlyPc s t ∧ t.pc = if s.getV x ≠ s.getV y then s.pc + 2#16 else s.pc)

/-- CALL nnn with room on the stack: push the pc, SP + 1, PC = nnn. When SP < 16 it completes: S[SP] holds the advanced
pc, every other entry is kept, SP is one more, pc = nnn, nothing else changes. [41_control_flow.md R132 (decision
D10)] -/
def Obligations.CallPushesTheReturnAddress : Prop :=
  ∀ (nnn : BitVec 12) (s : State), s.sp.val < 16 → ∃ t, exec (.call nnn) s = .next t ∧
    t = { s with stack := t.stack, sp := t.sp, pc := t.pc } ∧ t.sp.val = s.sp.val + 1 ∧ t.pc.toNat = nnn.toNat ∧
    (∀ j : Fin 16, t.stack[j] = if j.val = s.sp.val then s.pc else s.stack[j]) ∧ ∀ a, t.byte a = s.byte a

/-- RET with an entry on the stack: SP - 1, PC = the popped address, the entry kept. When SP > 0 it completes: SP is one
less, pc is S[SP] at the new SP, used as is; the stack entries and everything else are unchanged.
[41_control_flow.md R131 (decision D10); 10_state.md R29] -/
def Obligations.ReturnPopsTheStack : Prop :=
  ∀ s : State, 0 < s.sp.val → ∃ t, exec .ret s = .next t ∧ t = { s with sp := t.sp, pc := t.pc } ∧
    t.sp.val + 1 = s.sp.val ∧ (∀ j : Fin 16, j.val = t.sp.val → t.pc = s.stack[j]) ∧ ∀ a, t.byte a = s.byte a

/-- CALL at SP = 16, RET at SP = 0 and a keypad skip with V[x] > 15 fault, writing nothing else. Each takes its fault:
codes 2, 3 and 7 with FINFO 16, 0 and V[x], the pc back at the instruction, every other piece of state kept.
[41_control_flow.md R131, R132; 44_keypad_timers.md R220, R221; 60_exceptions.md R272, R275 (decisions D9, D10,
D13)] -/
def Obligations.StackAndKeyBoundsFault : Prop :=
  (∀ (nnn : BitVec 12) (s : State), s.sp.val = 16 → ∃ t, exec (.call nnn) s = .next t ∧ FaultsWith 2#4 16 s t) ∧
  (∀ s : State, s.sp.val = 0 → ∃ t, exec .ret s = .next t ∧ FaultsWith 3#4 0 s t) ∧
  (∀ (x : Reg) (s : State), 15 < (s.getV x).toNat →
    (∃ t, exec (.skp x) s = .next t ∧ FaultsWith 7#4 (s.getV x).toNat s t) ∧
    (∃ t, exec (.sknp x) s = .next t ∧ FaultsWith 7#4 (s.getV x).toNat s t))

/-- JP V0, addr: PC = nnn + V[0], neither wrapped nor masked. It completes on every state; the pc is exactly nnn + V[0],
up to 0x10FE; the offset register is always V[0]; nothing else changes. [41_control_flow.md R138 (decision D24)] -/
def Obligations.JumpWithOffsetDoesNotWrap : Prop :=
  ∀ (nnn : BitVec 12) (s : State), ∃ t, exec (.jpV0 nnn) s = .next t ∧ OnlyPc s t ∧
    t.pc.toNat = nnn.toNat + (s.getV 0).toNat

/-- A CALL followed at once by a RET leaves the pc after the CALL and SP as before. Two steps of the machine: from a
running core whose next instruction is CALL nnn with SP < 16, where the word at nnn is RET, the pc is 2 past the
CALL, SP is as before and the core is not halted. [41_control_flow.md R139, R131, R132] -/
def Obligations.CallThenReturnComesBack : Prop :=
  ∀ (s : State) (nnn : BitVec 12), s.runs (.call nnn) → s.sp.val < 16 → nnn.toNat + 1 ≤ 0xFFF →
    decodeWord Config.hardware.strictDecode (s.wordAt nnn.toNat) = .ret →
    ∃ t u, step s = .next t ∧ step t = .next u ∧ u.pc = s.pc + 2#16 ∧ u.sp = s.sp ∧ u.halt = false

/-- CLS: every framebuffer cell off, nothing else changed. Every word under mask F00F match 0000 decodes to CLS (0x0000
among them), and 00E0 does under STRICT_DECODE; it completes on every state with every cell off and everything else,
VF among it, unchanged. [R200] -/
def Obligations.ClearTurnsEveryCellOff : Prop :=
  Encodes 0xF00F 0x0000 (fun _ => .cls) ∧ decodeWord true 0x00E0 = .cls ∧
  ∀ s : State, ∃ t, exec .cls s = .next t ∧ (∀ (r : Fin 32) (c : Fin 64), t.fb.cell r c = false) ∧
    t = { s with fb := t.fb } ∧ ∀ a, t.byte a = s.byte a

/-- DRW: each cell is inverted exactly when a set sprite bit lands on it, VF tells a collision. When the n row bytes lie
inside memory (or n = 0), DRW completes: a cell changes exactly when a set bit of the sprite, placed at (V[x] mod
64, V[y] mod 32) and clipped at the edges, lands on it; VF is 1 when such a cell was on before, else 0; the origin
is read before VF is written; nothing else changes. The pixel loop is thus the cell-wise rule. [43_display.md R201
(decisions D7, D8)] -/
def Obligations.DrawTogglesExactlyTheSpriteCells : Prop :=
  ∀ (x y : Reg) (n : Fin 16) (s : State), n.val = 0 ∨ memBase s + n.val ≤ 0x1000 →
    ∃ t, exec (.drw x y n) s = .next t ∧ t = { s with v := t.v, fb := t.fb } ∧
      (∀ r c, t.fb.cell r c = (s.fb.cell r c ^^ spriteClip s x y n r c)) ∧
      t.getV 15 = (if ∃ r c, spriteClip s x y n r c = true ∧ s.fb.cell r c = true then 1#8 else 0#8) ∧
      (∀ r, r ≠ 15 → t.getV r = s.getV r) ∧ ∀ a, t.byte a = s.byte a

/-- Drawing the same sprite twice restores every cell; the second collides exactly where the first turned pixels on.
After a DRW, a second DRW of the same x, y, n from any state with that framebuffer and the same V[x], V[y], I and
memory restores every framebuffer cell, and leaves VF = 1 exactly when the first turned at least one cell on.
[43_display.md R202, R201] -/
def Obligations.DrawTwiceRestoresTheScreen : Prop :=
  ∀ (x y : Reg) (n : Fin 16) (s t u : State), n.val = 0 ∨ memBase s + n.val ≤ 0x1000 →
    exec (.drw x y n) s = .next t → u.fb = t.fb → u.index = s.index → u.mem = s.mem →
    u.getV x = s.getV x → u.getV y = s.getV y →
    ∃ w, exec (.drw x y n) u = .next w ∧ w.fb = s.fb ∧
      w.getV 15 = (if ∃ r c, s.fb.cell r c = false ∧ t.fb.cell r c = true then 1#8 else 0#8)

/-- With SPRITE_EDGE = WRAP a sprite pixel beyond an edge lands modulo the screen. Under any parameters with WRAP, DRW
with its rows inside memory completes, inverts exactly the cells a set bit lands on at column mod 64 and row mod 32,
sets VF to 1 when one of them was on and to 0 otherwise, and changes nothing else. SPRITE_EDGE changes no
instruction but DRW. [00_scope.md R9; 43_display.md R201 (decision D7)] -/
def Obligations.WrapEdgeDrawsModuloTheScreen : Prop :=
  (∀ (cfg : Config), cfg.spriteEdge = .wrap → ∀ (x y : Reg) (n : Fin 16) (s : State),
    n.val = 0 ∨ memBase s + n.val ≤ 0x1000 →
    ∃ t, execWith cfg (.drw x y n) s = .next t ∧ t = { s with v := t.v, fb := t.fb } ∧
      (∀ r, r ≠ 15 → t.getV r = s.getV r) ∧
      (∀ r c, t.fb.cell r c = (s.fb.cell r c ^^ spriteWrap cfg s x y n r c)) ∧
      t.getV 15 = if ∃ r c, spriteWrap cfg s x y n r c = true ∧ s.fb.cell r c = true then 1#8 else 0#8) ∧
  ∀ (cfg : Config) (edge : SpriteEdge) (i : Instr) (s : State), (∀ x y n, i ≠ .drw x y n) →
    execWith { cfg with spriteEdge := edge } i s = execWith cfg i s

/-- DRW and register-load reaching above 0xFFF fault MEM_READ_RANGE with the smallest such address. When a sprite row or
a loaded byte would lie above 0xFFF, the instruction faults with code 4 and FINFO max(I, 0x1000), and writes nothing
else. [43_display.md R201; 45_index_memory.md R245, R246; 60_exceptions.md R272 (decision D11)] -/
def Obligations.ReadsPastMemoryFault : Prop :=
  (∀ (x y : Reg) (n : Fin 16) (s : State), 0 < n.val → 0x1000 < memBase s + n.val →
    ∃ t, exec (.drw x y n) s = .next t ∧ FaultsWith 4#4 (max (memBase s) 0x1000) s t) ∧
  (∀ (x : Reg) (s : State), 0x1000 < memBase s + x.val + 1 →
    ∃ t, exec (.ldVxMi x) s = .next t ∧ FaultsWith 4#4 (max (memBase s) 0x1000) s t)

/-- SKP and SKNP add 2 to the pc exactly when the key V[x] is pressed, or not pressed, in the sample. Every word under
mask F00F match E00E or E001 decodes to SKP or SKNP of x = op[11:8] on this hardware (under STRICT_DECODE, under
mask F0FF match E09E or E0A1). When V[x] <= 15 both complete: the pc advances by 2 more exactly when the sampled
cell V[x] is 1 (SKP) or 0 (SKNP); nothing else changes. [44_keypad_timers.md R220, R221 (decision D13); 20_memory.md
R62; 30_encoding.md R85, R87 (decisions D2, D3)] -/
def Obligations.KeySkipsReadTheSample : Prop :=
  Encodes 0xF00F 0xE00E (fun op => .skp (opX op)) ∧ Encodes 0xF00F 0xE001 (fun op => .sknp (opX op)) ∧
  (∀ op : Word, op &&& 0xF0FF = 0xE09E → decodeWord true op = .skp (opX op)) ∧
  (∀ op : Word, op &&& 0xF0FF = 0xE0A1 → decodeWord true op = .sknp (opX op)) ∧
  ∀ (x k : Reg) (s : State), (s.getV x).toNat = k.val →
    (∃ t, exec (.skp x) s = .next t ∧ OnlyPc s t ∧ t.pc = if s.keySample[k] = true then s.pc + 2#16 else s.pc) ∧
    (∃ t, exec (.sknp x) s = .next t ∧ OnlyPc s t ∧ t.pc = if s.keySample[k] = false then s.pc + 2#16 else s.pc)

/-- LD Vx, K: the smallest pressed key in register x, or the pc rewound by 2. Every word under mask F0FF match F00A
decodes to LD Vx, K. It completes on every state: if some sampled key is pressed, V[x] is the smallest such index
and nothing else changes (the pc stays advanced); if none is, the pc is 2 less and nothing else changes. [R223] -/
def Obligations.WaitForKeyTakesTheLowestKey : Prop :=
  Encodes 0xF0FF 0xF00A (fun op => .ldVxK (opX op)) ∧
  ∀ (x : Reg) (s : State),
    (∀ k : Fin 16, s.keySample[k] = true → (∀ j : Fin 16, j < k → s.keySample[j] = false) →
      ∃ t, exec (.ldVxK x) s = .next t ∧ (t.getV x).toNat = k.val ∧ OnlyRegs [x] s t) ∧
    ((∀ k : Fin 16, s.keySample[k] = false) →
      ∃ t, exec (.ldVxK x) s = .next t ∧ t.pc = s.pc - 2#16 ∧ OnlyPc s t)

/-- LD Vx, DT, LD DT, Vx and LD ST, Vx move one byte and change nothing else. Each completes on every state: V[x] = DT
as it stands before the tick; DT = V[x]; ST = V[x]; nothing else changes in step 3. [44_keypad_timers.md R222, R224,
R225] -/
def Obligations.TimerTransfersMoveOneByte : Prop :=
  ∀ (x : Reg) (s : State),
    (∃ t, exec (.ldVxDt x) s = .next t ∧ t.getV x = s.dt ∧ OnlyRegs [x] s t) ∧
    (∃ t, exec (.ldDtVx x) s = .next t ∧ t = { s with dt := s.getV x } ∧ ∀ a, t.byte a = s.byte a) ∧
    (∃ t, exec (.ldStVx x) s = .next t ∧ t = { s with st := s.getV x } ∧ ∀ a, t.byte a = s.byte a)

/-- A timer written by Fx15 or Fx18 is one less at the end of the cycle; Fx07 reads the value before the tick. Over a
whole step: after LD DT, Vx (or LD ST, Vx) the timer is V[x] - 1, or 0 when V[x] = 0; after LD Vx, DT the register
holds DT from before the step and DT is one less, floor zero. [44_keypad_timers.md R222, R224, R225;
70_reset_and_hazards.md R315] -/
def Obligations.TimerWrittenIsTickedInTheSameCycle : Prop :=
  ∀ (x : Reg) (s : State),
    (s.runs (.ldDtVx x) → ∃ t, step s = .next t ∧ t.dt.toNat = (s.getV x).toNat - 1) ∧
    (s.runs (.ldStVx x) → ∃ t, step s = .next t ∧ t.st.toNat = (s.getV x).toNat - 1) ∧
    (s.runs (.ldVxDt x) → ∃ t, step s = .next t ∧ t.getV x = s.dt ∧ t.dt.toNat = s.dt.toNat - 1)

/-- Every completed cycle takes one from each nonzero timer, a faulting cycle none. If a running core's step ends not
halted, DT is one less, floor zero, unless the instruction was LD DT, Vx, and ST likewise unless it was LD ST, Vx;
if it ends halted, both are unchanged. [40_cycle.md R114 (decision D9); 10_state.md R30, R31] -/
def Obligations.TimersTickOncePerCompletedCycle : Prop :=
  ∀ s t : State, s.halt = false → step s = .next t →
    (t.halt = false → (∀ x, ¬ s.runs (.ldDtVx x)) → t.dt.toNat = s.dt.toNat - 1) ∧
    (t.halt = false → (∀ x, ¬ s.runs (.ldStVx x)) → t.st.toNat = s.st.toNat - 1) ∧
    (t.halt = true → t.dt = s.dt ∧ t.st = s.st)

/-- LD I, addr sets I = nnn; LD F, Vx sets I = FONT_BASE + 5 * V[x], unmasked. Both complete on every state, write I
exactly so, and change nothing else; for V[x] = 0xA the second gives FONT_BASE + 50. [45_index_memory.md R240, R242
(decisions D4, D15)] -/
def Obligations.IndexLoadsAreExact : Prop :=
  ∀ (nnn : BitVec 12) (x : Reg) (s : State),
    (∃ t, exec (.ldINnn nnn) s = .next t ∧ t.index.toNat = nnn.toNat ∧ OnlyIndex s t) ∧
    (∃ t, exec (.ldFVx x) s = .next t ∧ OnlyIndex s t ∧
      t.index.toNat = Config.hardware.fontBase.toNat + 5 * (s.getV x).toNat)

/-- ADD I, Vx: I = (I + V[x]) mod 65536, no flag. Every word under mask F0FF match F01E decodes to ADD I, Vx; it
completes on every state, I becomes the sum modulo 65536, and nothing else changes, VF included. [R241] -/
def Obligations.AddToIndexWraps : Prop :=
  Encodes 0xF0FF 0xF01E (fun op => .addIVx (opX op)) ∧
  ∀ (x : Reg) (s : State), ∃ t, exec (.addIVx x) s = .next t ∧
    t.index.toNat = (s.index.toNat + (s.getV x).toNat) % 65536 ∧ OnlyIndex s t

/-- LD B, Vx: the decimal digits of V[x] in the three bytes at I, everything else kept. When the three bytes at I lie in
0x200 to 0xFFF it completes: they hold V[x] / 100, V[x] / 10 mod 10, V[x] mod 10; every other byte and all other
state, I among it, is unchanged. [45_index_memory.md R243, R246 (decision D14)] -/
def Obligations.StoreBcdWritesThreeDigits : Prop :=
  ∀ (x : Reg) (s : State), 0x200 ≤ memBase s → memBase s + 3 ≤ 0x1000 →
    ∃ t, exec (.ldBVx x) s = .next t ∧ OnlyBytes (memBase s) 3 s t ∧
      (t.byte (memBase s)).toNat = (s.getV x).toNat / 100 ∧
      (t.byte (memBase s + 1)).toNat = (s.getV x).toNat / 10 % 10 ∧
      (t.byte (memBase s + 2)).toNat = (s.getV x).toNat % 10

/-- LD [I], Vx: V[0] to V[x] in the bytes at I on, everything else kept. When the x + 1 bytes at I lie in 0x200 to 0xFFF
it completes: byte I + k holds V[k] for k from 0 to x; every other byte and all other state, I among it, is
unchanged. [45_index_memory.md R244, R246 (decisions D6, D14)] -/
def Obligations.RegisterDumpWritesMemory : Prop :=
  ∀ (x : Reg) (s : State), 0x200 ≤ memBase s → memBase s + x.val + 1 ≤ 0x1000 →
    ∃ t, exec (.ldMiVx x) s = .next t ∧ OnlyBytes (memBase s) (x.val + 1) s t ∧
      ∀ k : Reg, k ≤ x → t.byte (memBase s + k.val) = s.getV k

/-- LD Vx, [I]: V[0] to V[x] from the bytes at I on, everything else kept. When the x + 1 bytes at I lie inside memory
(the reserved region included) it completes: V[k] holds byte I + k for k from 0 to x, VF among them when x = 0xF;
every other register and all other state is unchanged. [45_index_memory.md R245, R246 (decisions D6, D14)] -/
def Obligations.RegisterLoadReadsMemory : Prop :=
  ∀ (x : Reg) (s : State), memBase s + x.val + 1 ≤ 0x1000 →
    ∃ t, exec (.ldVxMi x) s = .next t ∧ t = { s with v := t.v } ∧ (∀ a, t.byte a = s.byte a) ∧
      ∀ k : Reg, t.getV k = if k ≤ x then s.byte (memBase s + k.val) else s.getV k

/-- A store of BCD or registers touching the reserved region or passing 0xFFF faults and writes nothing. With I below
0x200 the store faults RESERVED_WRITE (code 6) with FINFO I; with a byte above 0xFFF it faults MEM_WRITE_RANGE (code
5) with FINFO max(I, 0x1000); no byte and no other state is written. [45_index_memory.md R243, R244, R246;
60_exceptions.md R272 (decisions D11, D12)] -/
def Obligations.StoresOutsideProgramRegionFault : Prop :=
  ∀ (x : Reg) (s : State) (i : Instr) (len : Nat), (i = .ldBVx x ∧ len = 3 ∨ i = .ldMiVx x ∧ len = x.val + 1) →
    (memBase s < 0x200 → ∃ t, exec i s = .next t ∧ FaultsWith 6#4 (memBase s) s t) ∧
    (0x1000 < memBase s + len → ∃ t, exec i s = .next t ∧ FaultsWith 5#4 (max (memBase s) 0x1000) s t)

/-- DUMP_INCLUSIVE and PROTECT_LOW change what register-dump, register-load and BCD store do, and nothing else. Under
any parameters let k be x + 1 with DUMP_INCLUSIVE true and x with false. Dump and load with their k bytes inside
memory (k = 0 included) move exactly V[0] to V[k - 1]; a dump and a BCD store below 0x200 are performed when
PROTECT_LOW is false; nothing else changes. DUMP_INCLUSIVE changes no instruction but dump and load; PROTECT_LOW
none but dump and BCD store. [00_scope.md R8, R11; 45_index_memory.md R243 to R246 (decisions D6, D12, D14)] -/
def Obligations.TransferParametersChangeTheirRuleOnly : Prop :=
  (∀ (cfg : Config) (x : Reg) (s : State) (k : Nat), k = (if cfg.dumpInclusive = true then x.val + 1 else x.val) →
    (k = 0 ∨ memBase s + k ≤ 0x1000 ∧ (cfg.protectLow = true → 0x200 ≤ memBase s) →
      ∃ t, execWith cfg (.ldMiVx x) s = .next t ∧ t = { s with mem := t.mem } ∧
        (∀ j : Reg, j.val < k → Memory.read cfg t.mem (memBase s + j.val) = s.getV j) ∧
        ∀ a, a < memBase s ∨ memBase s + k ≤ a → Memory.read cfg t.mem a = Memory.read cfg s.mem a) ∧
    (k = 0 ∨ memBase s + k ≤ 0x1000 →
      ∃ t, execWith cfg (.ldVxMi x) s = .next t ∧ t = { s with v := t.v } ∧
        ∀ j : Reg, t.getV j = if j.val < k then Memory.read cfg s.mem (memBase s + j.val) else s.getV j)) ∧
  (∀ (cfg : Config) (x : Reg) (s : State), memBase s + 3 ≤ 0x1000 → (cfg.protectLow = true → 0x200 ≤ memBase s) →
    ∃ t, execWith cfg (.ldBVx x) s = .next t ∧ t = { s with mem := t.mem } ∧
      (Memory.read cfg t.mem (memBase s)).toNat = (s.getV x).toNat / 100 ∧
      (Memory.read cfg t.mem (memBase s + 1)).toNat = (s.getV x).toNat / 10 % 10 ∧
      (Memory.read cfg t.mem (memBase s + 2)).toNat = (s.getV x).toNat % 10 ∧
      ∀ a, a < memBase s ∨ memBase s + 3 ≤ a → Memory.read cfg t.mem a = Memory.read cfg s.mem a) ∧
  (∀ (cfg : Config) (b : Bool) (i : Instr) (s : State), (∀ x, i ≠ .ldMiVx x ∧ i ≠ .ldVxMi x) →
    execWith { cfg with dumpInclusive := b } i s = execWith cfg i s) ∧
  (∀ (cfg : Config) (b : Bool) (i : Instr) (s : State), (∀ x, i ≠ .ldBVx x ∧ i ≠ .ldMiVx x) →
    execWith { cfg with protectLow := b } i s = execWith cfg i s)

/-- The null operation changes nothing in step 3, whatever its word. exec of the null operation answers the state it is
given, for every word and state; its cycle fetches, advances the pc, ticks both timers, and changes nothing else
(but the sample and the draw fields of log 1, 3). [40_cycle.md R116; 30_encoding.md R88, R89] -/
def Obligations.NullOperationDoesNothing : Prop :=
  ∀ (op : Word) (s : State), exec (.null op) s = .next s ∧
    (s.runs (.null op) → ∃ t, step s = .next t ∧
      t = { s with pc := s.pc + 2#16, opcode := s.wordAt s.pc.toNat, dt := t.dt, st := t.st,
                   keySample := s.keys, rnd := t.rnd, draws := t.draws } ∧
      t.dt.toNat = s.dt.toNat - 1 ∧ t.st.toNat = s.st.toNat - 1 ∧ ∀ a, t.byte a = s.byte a)

/-- An instruction writes no register the access table does not give it. For every instruction and state, every register
outside the table's write column for that instruction is unchanged, also in a fault. [10_state.md R22, R21] -/
def Obligations.RegisterWritersAreThoseOfTheTable : Prop :=
  ∀ (i : Instr) (s t : State) (r : Reg), exec i s = .next t → i.writesV r = false → t.getV r = s.getV r

/-- A register the access table does not let an instruction read cannot influence it. If an instruction does not read
register r by the table, changing r beforehand changes nothing in what the instruction leaves but r itself; and r
itself ends the same in both runs, or neither run has written it. [10_state.md R22] -/
def Obligations.RegisterReadersAreThoseOfTheTable : Prop :=
  ∀ (i : Instr) (s : State) (r : Reg) (b : Byte), i.readsV r = false →
    ∃ t u, exec i s = .next t ∧ exec i { s with v := s.v.set r b } = .next u ∧ u = { t with v := u.v } ∧
      (∀ k, k ≠ r → u.getV k = t.getV k) ∧ (u.getV r = t.getV r ∨ u.getV r = b ∧ t.getV r = s.getV r)

/-- Framebuffer, stack, SP, memory, I, timers and pc are changed only by the instructions the spec names. If exec
answers t: the framebuffer differs only for CLS and DRW, the stack for CALL, SP for CALL and RET, memory for LD B
and LD [I], I for Annn, Fx1E, Fx29, DT for Fx15, ST for Fx18, the pc (unless it faults) for the transfers, skips and
Fx0A; the keypad cells, the sample, OPCODE and the draw fields for none; FCAUSE, FPC, FINFO only in a fault. (The
sample as a field is the model's, log 3, DEDUCED from R62; rnd and draws are the model's own form of the input of
R12, R288, log 1, DESIGN CHOICE.) [10_state.md R23, R25, R28, R30 to R35; 20_memory.md R54, R62; 00_scope.md R12;
60_exceptions.md R275, R288; notes/assumptions/1.md; notes/assumptions/3.md] -/
def Obligations.EveryPieceOfStateHasItsNamedWriters : Prop :=
  ∀ (i : Instr) (s t : State), exec i s = .next t →
    (t.fb ≠ s.fb → i = .cls ∨ ∃ x y n, i = .drw x y n) ∧
    (t.stack ≠ s.stack → ∃ nnn, i = .call nnn) ∧
    (t.sp ≠ s.sp → i = .ret ∨ ∃ nnn, i = .call nnn) ∧
    (t.mem ≠ s.mem → ∃ x, i = .ldBVx x ∨ i = .ldMiVx x) ∧
    (t.index ≠ s.index → (∃ nnn, i = .ldINnn nnn) ∨ ∃ x, i = .addIVx x ∨ i = .ldFVx x) ∧
    (t.dt ≠ s.dt → ∃ x, i = .ldDtVx x) ∧ (t.st ≠ s.st → ∃ x, i = .ldStVx x) ∧
    (s.halt = false → t.halt = false → t.pc ≠ s.pc → i.movesPc = true) ∧
    (s.halt = false → t.halt = false → t.fcause = s.fcause ∧ t.fpc = s.fpc ∧ t.finfo = s.finfo) ∧
    t.keys = s.keys ∧ t.keySample = s.keySample ∧ t.opcode = s.opcode ∧ t.rnd = s.rnd ∧ t.draws = s.draws

/-- Reset leaves every piece of state at the value of the reset table. After reset every register, stack entry, timer,
keypad cell, framebuffer cell and fault register is 0, pc is 0x200, SP is 0, memory holds the font table at
FONT_BASE = 0x050, the 80 bytes of R7 one by one, and 0 elsewhere. (The fault registers' 0 is the spec's decision
D9; FONT_BASE and FONT_DATA are its D5, log 10; the model's own fields, log 2, are not claimed.) [10_state.md R39
(decision D9); 00_scope.md R6, R7 (decision D5); notes/assumptions/10.md] -/
def Obligations.ResetLeavesTheSpecValues : Prop :=
  (∀ r : Reg, State.reset.getV r = 0#8) ∧ State.reset.index = 0#16 ∧ State.reset.pc = 0x200#16 ∧
  State.reset.sp.val = 0 ∧ (∀ j : Fin 16, State.reset.stack[j] = 0#16) ∧ State.reset.dt = 0#8 ∧ State.reset.st = 0#8 ∧
  (∀ k : Fin 16, State.reset.keys[k] = false) ∧ (∀ r c, State.reset.fb.cell r c = false) ∧
  State.reset.opcode = 0#16 ∧ State.reset.halt = false ∧ State.reset.fcause = 0#4 ∧ State.reset.fpc = 0#16 ∧
  State.reset.finfo = 0#16 ∧ Config.hardware.fontBase = 0x050#12 ∧
  (∀ (g : Fin 16) (k : Fin 5), State.reset.byte (Config.hardware.fontBase.toNat + 5 * g.val + k.val) =
    Config.hardware.fontData[g][k]) ∧
  (List.range 80).map (fun k => State.reset.byte (0x050 + k)) =
    [0xF0, 0x90, 0x90, 0x90, 0xF0, 0x20, 0x60, 0x20, 0x20, 0x70, 0xF0, 0x10, 0xF0, 0x80, 0xF0, 0xF0, 0x10, 0xF0, 0x10, 0xF0,
     0x90, 0x90, 0xF0, 0x10, 0x10, 0xF0, 0x80, 0xF0, 0x10, 0xF0, 0xF0, 0x80, 0xF0, 0x90, 0xF0, 0xF0, 0x10, 0x20, 0x40, 0x40] ++
    [0xF0, 0x90, 0xF0, 0x90, 0xF0, 0xF0, 0x90, 0xF0, 0x10, 0xF0, 0xF0, 0x90, 0xF0, 0x90, 0x90, 0xE0, 0x90, 0xE0, 0x90, 0xE0,
     0xF0, 0x80, 0x80, 0x80, 0xF0, 0xE0, 0x90, 0x90, 0x90, 0xE0, 0xF0, 0x80, 0xF0, 0x80, 0xF0, 0xF0, 0x80, 0xF0, 0x80, 0x80] ∧
  ∀ a, a < Config.hardware.fontBase.toNat ∨ Config.hardware.fontBase.toNat + 80 ≤ a → State.reset.byte a = 0#8

/-- LOAD writes its bytes from 0x200 on and nothing else, or is refused whole above 3584 bytes. A LOAD of at most 3584
bytes completes, halted or not: byte 0x200 + k holds bytes[k], every other byte and all other state is unchanged; a
longer one is refused. [60_exceptions.md R291 (decision D19)] -/
def Obligations.LoadWritesTheProgramVerbatim : Prop :=
  ∀ (s : State) (bytes : List Byte),
    (bytes.length ≤ 3584 → ∃ t, transact (.load bytes) s = .next t ∧ OnlyBytes 0x200 bytes.length s t ∧
      ∀ (k : Nat) (h : k < bytes.length), t.byte (0x200 + k) = bytes[k]) ∧
    (3584 < bytes.length → transact (.load bytes) s = .refused .loadTooLong)

/-- KEY_SET writes one cell, RESET restores the reset state, READ changes nothing and returns the nine items of R289.
KEY_SET(k, v) leaves cell k at v and all else unchanged, halted or not; RESET gives the reset state (the model's
draw fields kept, log 22); READ changes nothing, its framebuffer element r * 64 + c is cell (r, c), DT, ST, HALT,
FCAUSE, FPC, FINFO and OPCODE are the registers, and tone is ST != 0 (R283, decision D21; computed from ST, log 21,
DEDUCED). [60_exceptions.md R283, R289, R290, R292 (decisions D17, D21, D25); 70_reset_and_hazards.md R310 (decision
D18); 10_state.md R33; notes/assumptions/21.md; notes/assumptions/22.md] -/
def Obligations.KeySetResetAndRead : Prop :=
  ∀ s : State,
    (∀ (k : Fin 16) (v : Bool), ∃ t, transact (.keySet k v) s = .next t ∧ t = { s with keys := t.keys } ∧
      ∀ j : Fin 16, t.keys[j] = if j = k then v else s.keys[j]) ∧
    transact .reset s = .next { State.reset with rnd := s.rnd, draws := s.draws } ∧
    transact .read s = .next s ∧
    (∀ (r : Fin 32) (c : Fin 64), s.hostView.fb[r.val * 64 + c.val]? = some (s.fb.cell r c)) ∧
    s.hostView.dt = s.dt ∧ s.hostView.st = s.st ∧ (s.hostView.tone = true ↔ s.st ≠ 0#8) ∧ s.hostView.halt = s.halt ∧
    s.hostView.fcause = s.fcause ∧ s.hostView.fpc = s.fpc ∧ s.hostView.finfo = s.finfo ∧ s.hostView.opcode = s.opcode

/-- Every step keeps memory in its canonical form, inside the 4096 addresses. From every state whose memory is in the
model's canonical form (sorted, within 0x000 to 0xFFF, no entry equal to the reset contents; the form is the model's
choice, log 19), a step leaves it so. [20_memory.md R50, R55, R57; notes/assumptions/19.md] -/
def Obligations.MemoryStaysCanonical : Prop :=
  ∀ s t : State, MemInv s → step s = .next t → MemInv t

/-- No step changes a byte below 0x200: the font table is never mutated. For every state and step, each byte below 0x200
reads as before; so a reserved region as reset left it stays so. [20_memory.md R57, R58 (decision D12); 00_scope.md
R11] -/
def Obligations.ReservedRegionIsNeverWritten : Prop :=
  (∀ (s t : State) (a : Nat), step s = .next t → a < 0x200 → t.byte a = s.byte a) ∧
  ∀ s t : State, ReservedInv s → step s = .next t → ReservedInv t

/-- The pc never exceeds 0x10FE and no stack entry exceeds 0x1000. From every state where the pc is at most 0x10FE and
every stack entry at most 0x1000, a step keeps both. [10_state.md R27] -/
def Obligations.PcStaysInRange : Prop :=
  ∀ s t : State, PcInv s → step s = .next t → PcInv t

/-- FCAUSE, FPC and FINFO are 0 while running; once halted, HALT and all three stay. The fault registers hold 0 when
HALT = 0, and when HALT = 1 a cause from 1 to 7 with FPC the pc; every step keeps that, and a halted core stays
halted with the same cause, FPC and FINFO. [10_state.md R35; 60_exceptions.md R272, R276 (decision D9)] -/
def Obligations.FaultRegistersStayConsistent : Prop :=
  ∀ s t : State, FaultInv s → step s = .next t →
    FaultInv t ∧
      (s.halt = true → t.halt = true ∧ t.fcause = s.fcause ∧ t.fpc = s.fpc ∧ t.finfo = s.finfo ∧ t.fcause ≠ 0#4)

/-- The reset state meets every invariant. Memory canonical (the form is the model's choice, log 19, DESIGN CHOICE),
reserved region as reset left it, pc and stack in range, fault registers 0: all hold at reset. [10_state.md R27,
R35, R39; 70_reset_and_hazards.md R310, R311; notes/assumptions/19.md] -/
def Obligations.ResetMeetsTheInvariants : Prop :=
  Inv State.reset

/-- Every host transaction that completes keeps every invariant. STEP with any draw, READ, KEY_SET, LOAD and RESET each
lead from a state that meets all the invariants to one that does. (One of them, the canonical form of memory, is the
model's choice, log 19, DESIGN CHOICE.) [60_exceptions.md R287 to R292; 20_memory.md R57; 10_state.md R27, R35;
notes/assumptions/19.md] -/
def Obligations.TransactionsKeepTheInvariants : Prop :=
  ∀ (x : Transaction) (s t : State), Inv s → transact x s = .next t → Inv t

/-- No parameter reaches an instruction whose rule names none, and STRICT_DECODE reaches decoding only. Under every
setting of every parameter the 26 instructions whose rules name no parameter do what they do on this hardware;
STRICT_DECODE changes no instruction's effect, and of two machines that differ in it alone, a step differs only
where the fetched word decodes differently. [00_scope.md R5, R6, R8 to R11 (decisions D3, D5 to D8, D12); 42_alu.md
R173; notes/assumptions/24.md] -/
def Obligations.ParametersReachOnlyTheirInstructions : Prop :=
  (∀ (cfg : Config) (i : Instr) (s : State), i.takesParameter = false → execWith cfg i s = exec i s) ∧
  (∀ (cfg : Config) (b : Bool) (i : Instr) (s : State), execWith { cfg with strictDecode := b } i s = execWith cfg i s) ∧
  ∀ (cfg : Config) (b : Bool) (s : State),
    decodeWord b (s.fetchWord cfg) = decodeWord cfg.strictDecode (s.fetchWord cfg) →
    stepWith { cfg with strictDecode := b } s = stepWith cfg s
end

