-- ==== Sys2Proof/Laws/Decode.lean ====
section
/-! SUPPORT. Decoding and encoding as arithmetic: every field and every format as a number, so that their equations are
linear (30_encoding.md R81, R82). -/

namespace Sys2Proof

/-! ## The formats as numbers -/

theorem ofFin_toNat (x : Reg) : (BitVec.ofFin (w := 4) x).toNat = x.val := rfl

theorem encA_toNat (t : BitVec 4) (nnn : BitVec 12) : (encA t nnn).toNat = t.toNat * 4096 + nnn.toNat := by
  simp only [encA, BitVec.toNat_append]
  rw [← Nat.shiftLeft_add_eq_or_of_lt nnn.isLt, Nat.shiftLeft_eq]

theorem encRK_toNat (t : BitVec 4) (x : Reg) (kk : Byte) :
    (encRK t x kk).toNat = t.toNat * 4096 + x.val * 256 + kk.toNat := by
  simp only [encRK, BitVec.toNat_append]
  rw [← Nat.shiftLeft_add_eq_or_of_lt kk.isLt, ← Nat.shiftLeft_add_eq_or_of_lt (BitVec.isLt _)]
  simp only [Nat.shiftLeft_eq, ofFin_toNat]
  omega

theorem encRR_toNat (t : BitVec 4) (x y : Reg) (f : BitVec 4) :
    (encRR t x y f).toNat = t.toNat * 4096 + x.val * 256 + y.val * 16 + f.toNat := by
  simp only [encRR, BitVec.toNat_append]
  rw [← Nat.shiftLeft_add_eq_or_of_lt f.isLt, ← Nat.shiftLeft_add_eq_or_of_lt (BitVec.isLt _),
    ← Nat.shiftLeft_add_eq_or_of_lt (BitVec.isLt _)]
  simp only [Nat.shiftLeft_eq, ofFin_toNat]
  omega

/-! ## The fields as numbers -/

theorem opT_toNat (op : Word) : (opT op).toNat = op.toNat / 4096 := by
  have := op.isLt
  simp only [opT, BitVec.extractLsb_toNat, Nat.shiftRight_eq_div_pow]
  omega

theorem opX_val (op : Word) : (opX op).val = op.toNat / 256 % 16 := by
  show (op.extractLsb 11 8).toNat = _
  simp only [BitVec.extractLsb_toNat, Nat.shiftRight_eq_div_pow]

theorem opY_val (op : Word) : (opY op).val = op.toNat / 16 % 16 := by
  show (op.extractLsb 7 4).toNat = _
  simp only [BitVec.extractLsb_toNat, Nat.shiftRight_eq_div_pow]

theorem opN_toNat (op : Word) : (opN op).toNat = op.toNat % 16 := by
  simp only [opN, BitVec.extractLsb_toNat, Nat.shiftRight_eq_div_pow]
  omega

theorem opKK_toNat (op : Word) : (opKK op).toNat = op.toNat % 256 := by
  simp only [opKK, BitVec.extractLsb_toNat, Nat.shiftRight_eq_div_pow]
  omega

theorem opNNN_toNat (op : Word) : (opNNN op).toNat = op.toNat % 4096 := by
  simp only [opNNN, BitVec.extractLsb_toNat, Nat.shiftRight_eq_div_pow]
  omega

/-! ## The fields of a format -/

@[simp] theorem opT_encA (t : BitVec 4) (nnn : BitVec 12) : opT (encA t nnn) = t := by
  apply BitVec.eq_of_toNat_eq
  have := nnn.isLt
  rw [opT_toNat, encA_toNat]; omega

@[simp] theorem opNNN_encA (t : BitVec 4) (nnn : BitVec 12) : opNNN (encA t nnn) = nnn := by
  apply BitVec.eq_of_toNat_eq
  have := nnn.isLt
  rw [opNNN_toNat, encA_toNat]; omega

@[simp] theorem opT_encRK (t : BitVec 4) (x : Reg) (kk : Byte) : opT (encRK t x kk) = t := by
  apply BitVec.eq_of_toNat_eq
  have := x.isLt; have := kk.isLt
  rw [opT_toNat, encRK_toNat]; omega

@[simp] theorem opX_encRK (t : BitVec 4) (x : Reg) (kk : Byte) : opX (encRK t x kk) = x := by
  apply Fin.ext
  have := x.isLt; have := kk.isLt
  rw [opX_val, encRK_toNat]; omega

@[simp] theorem opKK_encRK (t : BitVec 4) (x : Reg) (kk : Byte) : opKK (encRK t x kk) = kk := by
  apply BitVec.eq_of_toNat_eq
  have := x.isLt; have := kk.isLt
  rw [opKK_toNat, encRK_toNat]; omega

@[simp] theorem opN_encRK (t : BitVec 4) (x : Reg) (kk : Byte) : opN (encRK t x kk) = kk.extractLsb 3 0 := by
  apply BitVec.eq_of_toNat_eq
  have := x.isLt; have := kk.isLt
  rw [opN_toNat, encRK_toNat, BitVec.extractLsb_toNat, Nat.shiftRight_eq_div_pow]
  omega

@[simp] theorem opT_encRR (t : BitVec 4) (x y : Reg) (f : BitVec 4) : opT (encRR t x y f) = t := by
  apply BitVec.eq_of_toNat_eq
  have := x.isLt; have := y.isLt; have := f.isLt
  rw [opT_toNat, encRR_toNat]; omega

@[simp] theorem opX_encRR (t : BitVec 4) (x y : Reg) (f : BitVec 4) : opX (encRR t x y f) = x := by
  apply Fin.ext
  have := x.isLt; have := y.isLt; have := f.isLt
  rw [opX_val, encRR_toNat]; omega

@[simp] theorem opY_encRR (t : BitVec 4) (x y : Reg) (f : BitVec 4) : opY (encRR t x y f) = y := by
  apply Fin.ext
  have := x.isLt; have := y.isLt; have := f.isLt
  rw [opY_val, encRR_toNat]; omega

@[simp] theorem opN_encRR (t : BitVec 4) (x y : Reg) (f : BitVec 4) : opN (encRR t x y f) = f := by
  apply BitVec.eq_of_toNat_eq
  have := x.isLt; have := y.isLt; have := f.isLt
  rw [opN_toNat, encRR_toNat]; omega

/-! ## What a mask of R87 looks at -/

theorem and_F000 (op : Word) : op &&& 0xF000#16 = encA (opT op) 0#12 := by
  apply BitVec.eq_of_getLsbD_eq
  intro i hi
  simp only [encA, opT, BitVec.getLsbD_and, BitVec.getLsbD_append, BitVec.getLsbD_extractLsb]
  interval_cases i <;> simp

theorem and_F00F (op : Word) : op &&& 0xF00F#16 = encRR (opT op) 0 0 (opN op) := by
  apply BitVec.eq_of_getLsbD_eq
  intro i hi
  simp only [encRR, opT, opN, BitVec.getLsbD_and, BitVec.getLsbD_append, BitVec.getLsbD_extractLsb]
  interval_cases i <;> simp

theorem and_F0FF (op : Word) : op &&& 0xF0FF#16 = encRK (opT op) 0 (opKK op) := by
  apply BitVec.eq_of_getLsbD_eq
  intro i hi
  simp only [encRK, opT, opKK, BitVec.getLsbD_and, BitVec.getLsbD_append, BitVec.getLsbD_extractLsb]
  interval_cases i <;> simp

theorem and_FFFF (op : Word) : op &&& 0xFFFF#16 = op := by
  apply BitVec.eq_of_getLsbD_eq
  intro i hi
  interval_cases i <;> simp

/-- A masked word determines the family. -/
theorem and_F000_eq_iff (op : Word) (t : BitVec 4) : op &&& 0xF000#16 = encA t 0#12 ↔ opT op = t := by
  rw [and_F000]
  exact ⟨fun h => by simpa using congrArg opT h, fun h => by rw [h]⟩

/-- A masked word determines the family and the low nibble. -/
theorem and_F00F_eq_iff (op : Word) (t f : BitVec 4) :
    op &&& 0xF00F#16 = encRR t 0 0 f ↔ opT op = t ∧ opN op = f := by
  rw [and_F00F]
  exact ⟨fun h => ⟨by simpa using congrArg opT h, by simpa using congrArg opN h⟩, fun ⟨h, h'⟩ => by rw [h, h']⟩

/-- A masked word determines the family and the low byte. -/
theorem and_F0FF_eq_iff (op : Word) (t : BitVec 4) (kk : Byte) :
    op &&& 0xF0FF#16 = encRK t 0 kk ↔ opT op = t ∧ opKK op = kk := by
  rw [and_F0FF]
  exact ⟨fun h => ⟨by simpa using congrArg opT h, by simpa using congrArg opKK h⟩, fun ⟨h, h'⟩ => by rw [h, h']⟩

/-! ## Bytes -/

theorem wordOfBytes_toNat (hi lo : Byte) : (wordOfBytes hi lo).toNat = hi.toNat * 256 + lo.toNat := by
  simp only [wordOfBytes, BitVec.toNat_append]
  rw [← Nat.shiftLeft_add_eq_or_of_lt lo.isLt, Nat.shiftLeft_eq]

theorem highByte_toNat (op : Word) : (highByte op).toNat = op.toNat / 256 := by
  have := op.isLt
  simp only [highByte, BitVec.extractLsb_toNat, Nat.shiftRight_eq_div_pow]
  omega

theorem lowByte_toNat (op : Word) : (lowByte op).toNat = op.toNat % 256 := by
  simp only [lowByte, BitVec.extractLsb_toNat, Nat.shiftRight_eq_div_pow]
  omega

/-- Big-endian (20_memory.md R52): the two bytes of a word make it up again. -/
@[simp] theorem wordOfBytes_high_low (op : Word) : wordOfBytes (highByte op) (lowByte op) = op := by
  apply BitVec.eq_of_toNat_eq
  rw [wordOfBytes_toNat, highByte_toNat, lowByte_toNat]
  omega

/-! ## The null space (R88) -/

/-- A word is its family and its address field. -/
theorem encA_fields (op : Word) : encA (opT op) (opNNN op) = op := by
  apply BitVec.eq_of_toNat_eq
  rw [encA_toNat, opT_toNat, opNNN_toNat]; omega

/-- The low nibble is in the low byte. -/
theorem opN_eq_of_opKK (op : Word) : opN op = (opKK op).extractLsb 3 0 := by
  apply BitVec.eq_of_toNat_eq
  rw [opN_toNat, BitVec.extractLsb_toNat, opKK_toNat, Nat.shiftRight_eq_div_pow]
  omega

/-- The low nibble is in the address field. -/
theorem opN_eq_of_opNNN (op : Word) : opN op = (opNNN op).extractLsb 3 0 := by
  apply BitVec.eq_of_toNat_eq
  rw [opN_toNat, BitVec.extractLsb_toNat, opNNN_toNat, Nat.shiftRight_eq_div_pow]
  omega

/-- R88, not strict, over the fields. -/
theorem nullWordLoose_eq (op : Word) : nullWordLoose op =
    ((opT op == 0x0#4 && !([0x0#4, 0xE#4].contains (opN op))) ||
    (opT op == 0x8#4 && [0x8#4, 0x9#4, 0xA#4, 0xB#4, 0xC#4, 0xD#4, 0xF#4].contains (opN op)) ||
    (opT op == 0xE#4 && !([0xE#4, 0x1#4].contains (opN op))) ||
    (opT op == 0xF#4 && !([0x07#8, 0x0A#8, 0x15#8, 0x18#8, 0x1E#8, 0x29#8, 0x33#8, 0x55#8, 0x65#8].contains (opKK op)))) := rfl

/-- R88, strict, over the fields. -/
theorem nullWordStrict_eq (op : Word) : nullWordStrict op =
    (nullWordLoose op ||
    (opT op == 0x0#4 && !([0x00E0#16, 0x00EE#16].contains op)) ||
    (opT op == 0xE#4 && !([0x9E#8, 0xA1#8].contains (opKK op))) ||
    ((opT op == 0x5#4 || opT op == 0x9#4) && opN op != 0x0#4)) := rfl

/-- A word of family 0x0 is its address field. -/
theorem word_of_family0 {op : Word} (ht : opT op = 0#4) (c : BitVec 12) (h : opNNN op = c) : op = encA 0#4 c := by
  rw [← ht, ← h, encA_fields]

/-- The four parts of the null space (R88, not strict). -/
theorem nullWordLoose_cases {op : Word} (h : nullWordLoose op = true) :
    (opT op = 0x0#4 ∧ opN op ≠ 0x0#4 ∧ opN op ≠ 0xE#4) ∨
    (opT op = 0x8#4 ∧ opN op ∈ [0x8#4, 0x9#4, 0xA#4, 0xB#4, 0xC#4, 0xD#4, 0xF#4]) ∨
    (opT op = 0xE#4 ∧ opN op ≠ 0xE#4 ∧ opN op ≠ 0x1#4) ∨
    (opT op = 0xF#4 ∧ opKK op ∉ [0x07#8, 0x0A#8, 0x15#8, 0x18#8, 0x1E#8, 0x29#8, 0x33#8, 0x55#8, 0x65#8]) := by
  rw [nullWordLoose_eq] at h
  simp only [Bool.or_eq_true, Bool.and_eq_true, beq_iff_eq, Bool.not_eq_true', List.contains_eq_mem,
    decide_eq_false_iff_not, decide_eq_true_eq] at h
  rcases h with ((⟨ht, hn⟩ | ⟨ht, hn⟩) | ⟨ht, hn⟩) | ⟨ht, hn⟩
  · exact .inl ⟨ht, fun e => hn (by rw [e]; decide), fun e => hn (by rw [e]; decide)⟩
  · exact .inr (.inl ⟨ht, hn⟩)
  · exact .inr (.inr (.inl ⟨ht, fun e => hn (by rw [e]; decide), fun e => hn (by rw [e]; decide)⟩))
  · exact .inr (.inr (.inr ⟨ht, hn⟩))

/-- The selectors family 0x8 leaves free. -/
theorem decode8_null {op : Word} (h : opN op ∈ [0x8#4, 0x9#4, 0xA#4, 0xB#4, 0xC#4, 0xD#4, 0xF#4]) : decode8 op = .null op := by
  simp only [List.mem_cons, List.not_mem_nil, or_false] at h
  unfold decode8
  rcases h with h | h | h | h | h | h | h <;> simp [h]

/-- The selectors family 0xF leaves free. -/
theorem decodeF_null {op : Word} (h : opKK op ∉ [0x07#8, 0x0A#8, 0x15#8, 0x18#8, 0x1E#8, 0x29#8, 0x33#8, 0x55#8, 0x65#8]) :
    decodeF op = .null op := by
  simp only [List.mem_cons, List.not_mem_nil, or_false, not_or] at h
  obtain ⟨h1, h2, h3, h4, h5, h6, h7, h8, h9⟩ := h
  unfold decodeF
  rw [if_neg h1, if_neg h2, if_neg h3, if_neg h4, if_neg h5, if_neg h6, if_neg h7, if_neg h8, if_neg h9]

/-- The words of family 0x0 that are null under both settings. -/
theorem decode0_null_of_loose {op : Word} (strict : Bool) (h0 : opN op ≠ 0x0#4) (hE : opN op ≠ 0xE#4) :
    decode0 strict op = .null op := by
  cases strict
  · simp [decode0, h0, hE]
  · rw [opN_eq_of_opNNN] at h0 hE
    have h1 : opNNN op ≠ 0x0E0#12 := fun h => h0 (by rw [h]; decide)
    have h2 : opNNN op ≠ 0x0EE#12 := fun h => hE (by rw [h]; decide)
    simp [decode0, h1, h2]

/-- The words of family 0xE that are null under both settings. -/
theorem decodeE_null_of_loose {op : Word} (strict : Bool) (hE : opN op ≠ 0xE#4) (h1 : opN op ≠ 0x1#4) :
    decodeE strict op = .null op := by
  cases strict
  · simp [decodeE, h1, hE]
  · rw [opN_eq_of_opKK] at h1 hE
    have h1' : opKK op ≠ 0x9E#8 := fun h => hE (by rw [h]; decide)
    have h2' : opKK op ≠ 0xA1#8 := fun h => h1 (by rw [h]; decide)
    simp [decodeE, h1', h2']

/-- What is null when not strict is null under both settings. -/
theorem decodeWord_null_of_loose {op : Word} (strict : Bool) (h : nullWordLoose op = true) :
    decodeWord strict op = .null op := by
  rcases nullWordLoose_cases h with ⟨ht, h0, hE⟩ | ⟨ht, hn⟩ | ⟨ht, hE, h1⟩ | ⟨ht, hk⟩
  · simp [decodeWord, ht, decode0_null_of_loose strict h0 hE]
  · simp [decodeWord, ht, decode8_null hn]
  · simp [decodeWord, ht, decodeE_null_of_loose strict hE h1]
  · simp [decodeWord, ht, decodeF_null hk]

/-- Every word of the null space decodes to the null operation (R88, R116). -/
theorem decodeWord_null (op : Word) (strict : Bool) (h : nullWord strict op = true) : decodeWord strict op = .null op := by
  cases strict
  · exact decodeWord_null_of_loose false h
  · rw [nullWord, if_pos rfl, nullWordStrict_eq] at h
    simp only [Bool.or_eq_true, Bool.and_eq_true, beq_iff_eq, Bool.not_eq_true', List.contains_eq_mem,
      decide_eq_false_iff_not, List.mem_cons, List.not_mem_nil, or_false, not_or, bne_iff_ne] at h
    rcases h with ((h | ⟨ht, hop⟩) | ⟨ht, hk⟩) | ⟨ht | ht, hn⟩
    · exact decodeWord_null_of_loose true h
    · have h1 : opNNN op ≠ 0x0E0#12 := fun h => hop.1 (word_of_family0 ht _ h)
      have h2 : opNNN op ≠ 0x0EE#12 := fun h => hop.2 (word_of_family0 ht _ h)
      simp [decodeWord, ht, decode0, h1, h2]
    · simp [decodeWord, ht, decodeE, hk]
    · simp [decodeWord, ht, decodePair, hn]
    · simp [decodeWord, ht, decodePair, hn]

end Sys2Proof
end

