-- ==== Sys2Proof/Laws/Memory.lean ====
section
/-! SUPPORT. The laws of memory (20_memory.md R56, R57, R61): a read returns the latest write, a write leaves every
other address alone, and every operation keeps the canonical form. All hold for any parameters. -/

namespace Sys2Proof.Machine.Memory

variable (cfg : Config)

/-! ## Read after write -/

theorem listed_insert (m : Memory) (a c : Nat) (b : Byte) :
    listed (insert m a b) c = if c = a then some b else listed m c := by
  induction m with
  | nil => simp [insert, listed, eq_comm]
  | cons e m ih =>
    obtain ⟨d, w⟩ := e
    unfold insert
    split
    · by_cases hc : c = a
      · simp [listed, hc]
      · simp [listed, hc, Ne.symm hc]
    · split
      · next h =>
        subst h
        by_cases hc : c = a
        · simp [listed, hc]
        · simp [listed, hc, Ne.symm hc]
      · next h1 h2 =>
        by_cases hd : d = c
        · have hca : ¬ c = a := by omega
          simp [listed, hd, hca]
        · simp [listed, hd, ih]

theorem listed_erase (m : Memory) (a c : Nat) :
    listed (erase m a) c = if c = a then none else listed m c := by
  induction m with
  | nil => simp [erase, listed]
  | cons e m ih =>
    obtain ⟨d, w⟩ := e
    unfold erase at ih ⊢
    by_cases hd : d = a
    · rw [List.filter_cons_of_neg (by simp [hd]), ih]
      by_cases hc : c = a
      · simp [hc]
      · have hdc : ¬ d = c := by omega
        simp [hc, listed, hdc]
    · rw [List.filter_cons_of_pos (by simp [hd]), listed, listed, ih]
      by_cases hc : d = c
      · have hca : ¬ c = a := by omega
        simp [hc, hca]
      · simp [hc]

/-- One read after one write (R61). -/
theorem read_write (m : Memory) (a c : Nat) (b : Byte) :
    read cfg (write cfg m a b) c = if c = a then b else read cfg m c := by
  unfold write read
  by_cases hb : b = unlisted cfg a
  · by_cases hc : c = a <;> simp [hb, listed_erase, hc]
  · by_cases hc : c = a <;> simp [hb, listed_insert, hc]

@[simp] theorem read_write_same (m : Memory) (a : Nat) (b : Byte) : read cfg (write cfg m a b) a = b := by
  simp [read_write]

/-- A read after a run of bytes is written. -/
theorem read_writeBytes (bs : List Byte) (m : Memory) (a c : Nat) :
    read cfg (writeBytes cfg m a bs) c =
      if h : a ≤ c ∧ c < a + bs.length then bs[c - a]'(by omega) else read cfg m c := by
  induction bs generalizing m a with
  | nil => simp [writeBytes]
  | cons b bs ih =>
    rw [writeBytes, ih, read_write]
    by_cases hc : c = a
    · subst hc
      have h1 : ¬ (c + 1 ≤ c ∧ c < c + 1 + bs.length) := by omega
      have h2 : c ≤ c ∧ c < c + (b :: bs).length := ⟨Nat.le_refl _, by simp⟩
      rw [dif_neg h1, dif_pos h2]
      simp
    · by_cases h : a + 1 ≤ c ∧ c < a + 1 + bs.length
      · have h2 : a ≤ c ∧ c < a + (b :: bs).length := by simp; omega
        rw [dif_pos h, dif_pos h2]
        have : c - a = (c - (a + 1)) + 1 := by omega
        simp [this]
      · have h2 : ¬ (a ≤ c ∧ c < a + (b :: bs).length) := by simp; omega
        rw [dif_neg h, dif_neg h2, if_neg hc]

/-- Inside the run, the byte written there. -/
theorem read_writeBytes_inside (bs : List Byte) (m : Memory) (a k : Nat) (h : k < bs.length) :
    read cfg (writeBytes cfg m a bs) (a + k) = bs[k] := by
  rw [read_writeBytes, dif_pos (by omega)]
  simp

/-- Outside the run, what was there before. -/
theorem read_writeBytes_outside (bs : List Byte) (m : Memory) (a c : Nat) (h : c < a ∨ a + bs.length ≤ c) :
    read cfg (writeBytes cfg m a bs) c = read cfg m c := by
  rw [read_writeBytes, dif_neg (by omega)]

@[simp] theorem readBytes_length (m : Memory) (a k : Nat) : (readBytes cfg m a k).length = k := by
  induction k generalizing a with
  | zero => rfl
  | succ k ih => simp [readBytes, ih]

/-- The bytes of a run of reads. -/
theorem getElem_readBytes (m : Memory) (a k j : Nat) (h : j < (readBytes cfg m a k).length) :
    (readBytes cfg m a k)[j] = read cfg m (a + j) := by
  induction k generalizing a j with
  | zero => simp [readBytes] at h
  | succ k ih =>
    cases j with
    | zero => simp [readBytes]
    | succ j =>
      have h' : j < (readBytes cfg m (a + 1) k).length := by simpa [readBytes] using h
      have := ih (a + 1) j h'
      simp [readBytes, this, Nat.add_assoc, Nat.add_comm 1 j]

/-! ## The canonical form -/

theorem wf_iff (m : Memory) : wf cfg m = true ↔
    m.Pairwise (fun c d => c.1 < d.1) ∧ ∀ c ∈ m, c.1 ≤ 0xFFF ∧ c.2 ≠ unlisted cfg c.1 := by
  simp [wf]

@[simp] theorem wf_nil : wf cfg [] = true := rfl

theorem mem_insert {m : Memory} {a : Nat} {b : Byte} {c : Host.Cell} (h : c ∈ insert m a b) :
    c = (a, b) ∨ c ∈ m := by
  induction m with
  | nil => simpa [insert] using h
  | cons e m ih =>
    obtain ⟨d, w⟩ := e
    unfold insert at h
    split at h
    · simpa using h
    · split at h
      · simp only [List.mem_cons] at h ⊢; tauto
      · simp only [List.mem_cons] at h ⊢
        rcases h with h | h
        · exact .inr (.inl h)
        · rcases ih h with h | h
          · exact .inl h
          · exact .inr (.inr h)

theorem pairwise_insert {m : Memory} (a : Nat) (b : Byte) (h : m.Pairwise (fun c d => c.1 < d.1)) :
    (insert m a b).Pairwise (fun c d => c.1 < d.1) := by
  induction m with
  | nil => simp [insert]
  | cons e m ih =>
    obtain ⟨d, w⟩ := e
    have hm := (List.pairwise_cons.mp h).2
    have hd := (List.pairwise_cons.mp h).1
    unfold insert
    split
    · next hlt =>
      refine List.pairwise_cons.mpr ⟨fun c hc => ?_, h⟩
      rcases List.mem_cons.mp hc with rfl | hc
      · exact hlt
      · exact Nat.lt_trans hlt (hd c hc)
    · split
      · next heq => subst heq; exact List.pairwise_cons.mpr ⟨hd, hm⟩
      · next h1 h2 =>
        refine List.pairwise_cons.mpr ⟨fun c hc => ?_, ih hm⟩
        rcases mem_insert hc with rfl | hc
        · show d < a; omega
        · exact hd c hc

/-- A write keeps the canonical form. -/
theorem wf_write {m : Memory} {a : Nat} (b : Byte) (hm : wf cfg m = true) (ha : a ≤ 0xFFF) :
    wf cfg (write cfg m a b) = true := by
  obtain ⟨hp, hall⟩ := (wf_iff cfg m).mp hm
  refine (wf_iff cfg _).mpr ?_
  unfold write
  split
  · exact ⟨hp.filter _, fun c hc => hall c (List.mem_filter.mp hc).1⟩
  · next hb =>
    refine ⟨pairwise_insert a b hp, fun c hc => ?_⟩
    rcases mem_insert hc with rfl | hc
    · exact ⟨ha, hb⟩
    · exact hall c hc

/-- A run of writes inside the 4096 bytes keeps the canonical form. -/
theorem wf_writeBytes (bs : List Byte) {m : Memory} {a : Nat} (hm : wf cfg m = true)
    (ha : a + bs.length ≤ 0x1000) : wf cfg (writeBytes cfg m a bs) = true := by
  induction bs generalizing m a with
  | nil => exact hm
  | cons b bs ih =>
    simp only [List.length_cons] at ha
    exact ih (wf_write cfg b hm (by omega)) (by omega)

/-- A listed byte of a sorted memory is on the list. -/
theorem listed_eq_some_iff {m : Memory} (hp : m.Pairwise (fun c d => c.1 < d.1)) (a : Nat) (b : Byte) :
    listed m a = some b ↔ (a, b) ∈ m := by
  induction m with
  | nil => simp [listed]
  | cons e m ih =>
    obtain ⟨d, w⟩ := e
    have hd := (List.pairwise_cons.mp hp).1
    have hm := (List.pairwise_cons.mp hp).2
    by_cases h : d = a
    · subst h
      simp only [listed, if_true, Option.some.injEq, List.mem_cons, Prod.mk.injEq, true_and]
      constructor
      · exact fun h => .inl h.symm
      · rintro (h | h)
        · exact h.symm
        · exact absurd (hd _ h) (Nat.lt_irrefl d)
    · simp [listed, h, ih hm, Ne.symm h]

/-- Equal memories are equal data: two canonical memories that read alike are the same list. -/
theorem eq_of_read_eq {m n : Memory} (hm : wf cfg m = true) (hn : wf cfg n = true)
    (h : ∀ a, read cfg m a = read cfg n a) : m = n := by
  obtain ⟨hpm, ham⟩ := (wf_iff cfg m).mp hm
  obtain ⟨hpn, han⟩ := (wf_iff cfg n).mp hn
  have key : ∀ {m n : Memory}, (∀ a, read cfg m a = read cfg n a) →
      m.Pairwise (fun c d => c.1 < d.1) → n.Pairwise (fun c d => c.1 < d.1) →
      (∀ c ∈ m, c.1 ≤ 0xFFF ∧ c.2 ≠ unlisted cfg c.1) → ∀ c ∈ m, c ∈ n := by
    intro m n h hpm hpn ham c hc
    have hl : listed m c.1 = some c.2 := (listed_eq_some_iff hpm c.1 c.2).mpr hc
    have hr := h c.1
    rw [read, hl, Option.getD_some, read] at hr
    cases hn : listed n c.1 with
    | none => rw [hn] at hr; exact absurd hr (ham c hc).2
    | some w =>
      rw [hn, Option.getD_some] at hr
      rw [← hr] at hn
      exact (listed_eq_some_iff hpn c.1 c.2).mp hn
  have hsub := key h hpm hpn ham
  have hsup := key (fun a => (h a).symm) hpn hpm han
  have nd : ∀ {m : Memory}, m.Pairwise (fun c d => c.1 < d.1) → m.Nodup := fun hp =>
    hp.imp (fun hlt e => by subst e; exact Nat.lt_irrefl _ hlt)
  have hperm : m.Perm n := (List.perm_ext_iff_of_nodup (nd hpm) (nd hpn)).mpr fun c => ⟨hsub c, hsup c⟩
  exact hperm.eq_of_pairwise (fun a b _ _ h1 h2 => absurd h1 (Nat.lt_asymm h2)) hpm hpn

/-! ## The parameters reach memory through its reset contents alone -/

variable {cfg cfg' : Config}

theorem read_congr (h : unlisted cfg = unlisted cfg') (m : Memory) (a : Nat) : read cfg m a = read cfg' m a := by
  rw [read, read, h]

theorem write_congr (h : unlisted cfg = unlisted cfg') (m : Memory) (a : Nat) (b : Byte) :
    write cfg m a b = write cfg' m a b := by
  rw [write, write, h]

theorem writeBytes_congr (h : unlisted cfg = unlisted cfg') (bs : List Byte) (m : Memory) (a : Nat) :
    writeBytes cfg m a bs = writeBytes cfg' m a bs := by
  induction bs generalizing m a with
  | nil => rfl
  | cons b bs ih => rw [writeBytes, writeBytes, write_congr h, ih]

theorem readBytes_congr (h : unlisted cfg = unlisted cfg') (m : Memory) (a k : Nat) :
    readBytes cfg m a k = readBytes cfg' m a k := by
  induction k generalizing a with
  | zero => rfl
  | succ k ih => rw [readBytes, readBytes, read_congr h, ih]

end Sys2Proof.Machine.Memory
end

