-- ==== Sys2Proof/Laws/State.lean ====
section
/-! SUPPORT. One lemma per field per update of State, each true by unfolding once, so that no later proof unfolds a
record update. -/

namespace Sys2Proof.Machine.State

variable (s : State)

/-! ## setV -/

@[simp] theorem setV_v (x : Reg) (b : Byte) : (s.setV x b).v = s.v.set x b := rfl
@[simp] theorem setV_index (x : Reg) (b : Byte) : (s.setV x b).index = s.index := rfl
@[simp] theorem setV_pc (x : Reg) (b : Byte) : (s.setV x b).pc = s.pc := rfl
@[simp] theorem setV_sp (x : Reg) (b : Byte) : (s.setV x b).sp = s.sp := rfl
@[simp] theorem setV_stack (x : Reg) (b : Byte) : (s.setV x b).stack = s.stack := rfl
@[simp] theorem setV_dt (x : Reg) (b : Byte) : (s.setV x b).dt = s.dt := rfl
@[simp] theorem setV_st (x : Reg) (b : Byte) : (s.setV x b).st = s.st := rfl
@[simp] theorem setV_keys (x : Reg) (b : Byte) : (s.setV x b).keys = s.keys := rfl
@[simp] theorem setV_keySample (x : Reg) (b : Byte) : (s.setV x b).keySample = s.keySample := rfl
@[simp] theorem setV_fb (x : Reg) (b : Byte) : (s.setV x b).fb = s.fb := rfl
@[simp] theorem setV_opcode (x : Reg) (b : Byte) : (s.setV x b).opcode = s.opcode := rfl
@[simp] theorem setV_halt (x : Reg) (b : Byte) : (s.setV x b).halt = s.halt := rfl
@[simp] theorem setV_fcause (x : Reg) (b : Byte) : (s.setV x b).fcause = s.fcause := rfl
@[simp] theorem setV_fpc (x : Reg) (b : Byte) : (s.setV x b).fpc = s.fpc := rfl
@[simp] theorem setV_finfo (x : Reg) (b : Byte) : (s.setV x b).finfo = s.finfo := rfl
@[simp] theorem setV_mem (x : Reg) (b : Byte) : (s.setV x b).mem = s.mem := rfl
@[simp] theorem setV_rnd (x : Reg) (b : Byte) : (s.setV x b).rnd = s.rnd := rfl
@[simp] theorem setV_draws (x : Reg) (b : Byte) : (s.setV x b).draws = s.draws := rfl

/-! ## setVF -/

@[simp] theorem setVF_v (b : Byte) : (s.setVF b).v = s.v.set Config.flagReg b := rfl
@[simp] theorem setVF_index (b : Byte) : (s.setVF b).index = s.index := rfl
@[simp] theorem setVF_pc (b : Byte) : (s.setVF b).pc = s.pc := rfl
@[simp] theorem setVF_sp (b : Byte) : (s.setVF b).sp = s.sp := rfl
@[simp] theorem setVF_stack (b : Byte) : (s.setVF b).stack = s.stack := rfl
@[simp] theorem setVF_dt (b : Byte) : (s.setVF b).dt = s.dt := rfl
@[simp] theorem setVF_st (b : Byte) : (s.setVF b).st = s.st := rfl
@[simp] theorem setVF_keys (b : Byte) : (s.setVF b).keys = s.keys := rfl
@[simp] theorem setVF_keySample (b : Byte) : (s.setVF b).keySample = s.keySample := rfl
@[simp] theorem setVF_fb (b : Byte) : (s.setVF b).fb = s.fb := rfl
@[simp] theorem setVF_opcode (b : Byte) : (s.setVF b).opcode = s.opcode := rfl
@[simp] theorem setVF_halt (b : Byte) : (s.setVF b).halt = s.halt := rfl
@[simp] theorem setVF_fcause (b : Byte) : (s.setVF b).fcause = s.fcause := rfl
@[simp] theorem setVF_fpc (b : Byte) : (s.setVF b).fpc = s.fpc := rfl
@[simp] theorem setVF_finfo (b : Byte) : (s.setVF b).finfo = s.finfo := rfl
@[simp] theorem setVF_mem (b : Byte) : (s.setVF b).mem = s.mem := rfl
@[simp] theorem setVF_rnd (b : Byte) : (s.setVF b).rnd = s.rnd := rfl
@[simp] theorem setVF_draws (b : Byte) : (s.setVF b).draws = s.draws := rfl

/-! ## setIndex -/

@[simp] theorem setIndex_v (w : Word) : (s.setIndex w).v = s.v := rfl
@[simp] theorem setIndex_index (w : Word) : (s.setIndex w).index = w := rfl
@[simp] theorem setIndex_pc (w : Word) : (s.setIndex w).pc = s.pc := rfl
@[simp] theorem setIndex_sp (w : Word) : (s.setIndex w).sp = s.sp := rfl
@[simp] theorem setIndex_stack (w : Word) : (s.setIndex w).stack = s.stack := rfl
@[simp] theorem setIndex_dt (w : Word) : (s.setIndex w).dt = s.dt := rfl
@[simp] theorem setIndex_st (w : Word) : (s.setIndex w).st = s.st := rfl
@[simp] theorem setIndex_keys (w : Word) : (s.setIndex w).keys = s.keys := rfl
@[simp] theorem setIndex_keySample (w : Word) : (s.setIndex w).keySample = s.keySample := rfl
@[simp] theorem setIndex_fb (w : Word) : (s.setIndex w).fb = s.fb := rfl
@[simp] theorem setIndex_opcode (w : Word) : (s.setIndex w).opcode = s.opcode := rfl
@[simp] theorem setIndex_halt (w : Word) : (s.setIndex w).halt = s.halt := rfl
@[simp] theorem setIndex_fcause (w : Word) : (s.setIndex w).fcause = s.fcause := rfl
@[simp] theorem setIndex_fpc (w : Word) : (s.setIndex w).fpc = s.fpc := rfl
@[simp] theorem setIndex_finfo (w : Word) : (s.setIndex w).finfo = s.finfo := rfl
@[simp] theorem setIndex_mem (w : Word) : (s.setIndex w).mem = s.mem := rfl
@[simp] theorem setIndex_rnd (w : Word) : (s.setIndex w).rnd = s.rnd := rfl
@[simp] theorem setIndex_draws (w : Word) : (s.setIndex w).draws = s.draws := rfl

/-! ## setPc -/

@[simp] theorem setPc_v (w : Word) : (s.setPc w).v = s.v := rfl
@[simp] theorem setPc_index (w : Word) : (s.setPc w).index = s.index := rfl
@[simp] theorem setPc_pc (w : Word) : (s.setPc w).pc = w := rfl
@[simp] theorem setPc_sp (w : Word) : (s.setPc w).sp = s.sp := rfl
@[simp] theorem setPc_stack (w : Word) : (s.setPc w).stack = s.stack := rfl
@[simp] theorem setPc_dt (w : Word) : (s.setPc w).dt = s.dt := rfl
@[simp] theorem setPc_st (w : Word) : (s.setPc w).st = s.st := rfl
@[simp] theorem setPc_keys (w : Word) : (s.setPc w).keys = s.keys := rfl
@[simp] theorem setPc_keySample (w : Word) : (s.setPc w).keySample = s.keySample := rfl
@[simp] theorem setPc_fb (w : Word) : (s.setPc w).fb = s.fb := rfl
@[simp] theorem setPc_opcode (w : Word) : (s.setPc w).opcode = s.opcode := rfl
@[simp] theorem setPc_halt (w : Word) : (s.setPc w).halt = s.halt := rfl
@[simp] theorem setPc_fcause (w : Word) : (s.setPc w).fcause = s.fcause := rfl
@[simp] theorem setPc_fpc (w : Word) : (s.setPc w).fpc = s.fpc := rfl
@[simp] theorem setPc_finfo (w : Word) : (s.setPc w).finfo = s.finfo := rfl
@[simp] theorem setPc_mem (w : Word) : (s.setPc w).mem = s.mem := rfl
@[simp] theorem setPc_rnd (w : Word) : (s.setPc w).rnd = s.rnd := rfl
@[simp] theorem setPc_draws (w : Word) : (s.setPc w).draws = s.draws := rfl

/-! ## setDt -/

@[simp] theorem setDt_v (b : Byte) : (s.setDt b).v = s.v := rfl
@[simp] theorem setDt_index (b : Byte) : (s.setDt b).index = s.index := rfl
@[simp] theorem setDt_pc (b : Byte) : (s.setDt b).pc = s.pc := rfl
@[simp] theorem setDt_sp (b : Byte) : (s.setDt b).sp = s.sp := rfl
@[simp] theorem setDt_stack (b : Byte) : (s.setDt b).stack = s.stack := rfl
@[simp] theorem setDt_dt (b : Byte) : (s.setDt b).dt = b := rfl
@[simp] theorem setDt_st (b : Byte) : (s.setDt b).st = s.st := rfl
@[simp] theorem setDt_keys (b : Byte) : (s.setDt b).keys = s.keys := rfl
@[simp] theorem setDt_keySample (b : Byte) : (s.setDt b).keySample = s.keySample := rfl
@[simp] theorem setDt_fb (b : Byte) : (s.setDt b).fb = s.fb := rfl
@[simp] theorem setDt_opcode (b : Byte) : (s.setDt b).opcode = s.opcode := rfl
@[simp] theorem setDt_halt (b : Byte) : (s.setDt b).halt = s.halt := rfl
@[simp] theorem setDt_fcause (b : Byte) : (s.setDt b).fcause = s.fcause := rfl
@[simp] theorem setDt_fpc (b : Byte) : (s.setDt b).fpc = s.fpc := rfl
@[simp] theorem setDt_finfo (b : Byte) : (s.setDt b).finfo = s.finfo := rfl
@[simp] theorem setDt_mem (b : Byte) : (s.setDt b).mem = s.mem := rfl
@[simp] theorem setDt_rnd (b : Byte) : (s.setDt b).rnd = s.rnd := rfl
@[simp] theorem setDt_draws (b : Byte) : (s.setDt b).draws = s.draws := rfl

/-! ## setSt -/

@[simp] theorem setSt_v (b : Byte) : (s.setSt b).v = s.v := rfl
@[simp] theorem setSt_index (b : Byte) : (s.setSt b).index = s.index := rfl
@[simp] theorem setSt_pc (b : Byte) : (s.setSt b).pc = s.pc := rfl
@[simp] theorem setSt_sp (b : Byte) : (s.setSt b).sp = s.sp := rfl
@[simp] theorem setSt_stack (b : Byte) : (s.setSt b).stack = s.stack := rfl
@[simp] theorem setSt_dt (b : Byte) : (s.setSt b).dt = s.dt := rfl
@[simp] theorem setSt_st (b : Byte) : (s.setSt b).st = b := rfl
@[simp] theorem setSt_keys (b : Byte) : (s.setSt b).keys = s.keys := rfl
@[simp] theorem setSt_keySample (b : Byte) : (s.setSt b).keySample = s.keySample := rfl
@[simp] theorem setSt_fb (b : Byte) : (s.setSt b).fb = s.fb := rfl
@[simp] theorem setSt_opcode (b : Byte) : (s.setSt b).opcode = s.opcode := rfl
@[simp] theorem setSt_halt (b : Byte) : (s.setSt b).halt = s.halt := rfl
@[simp] theorem setSt_fcause (b : Byte) : (s.setSt b).fcause = s.fcause := rfl
@[simp] theorem setSt_fpc (b : Byte) : (s.setSt b).fpc = s.fpc := rfl
@[simp] theorem setSt_finfo (b : Byte) : (s.setSt b).finfo = s.finfo := rfl
@[simp] theorem setSt_mem (b : Byte) : (s.setSt b).mem = s.mem := rfl
@[simp] theorem setSt_rnd (b : Byte) : (s.setSt b).rnd = s.rnd := rfl
@[simp] theorem setSt_draws (b : Byte) : (s.setSt b).draws = s.draws := rfl

/-! ## setFb -/

@[simp] theorem setFb_v (f : Framebuffer) : (s.setFb f).v = s.v := rfl
@[simp] theorem setFb_index (f : Framebuffer) : (s.setFb f).index = s.index := rfl
@[simp] theorem setFb_pc (f : Framebuffer) : (s.setFb f).pc = s.pc := rfl
@[simp] theorem setFb_sp (f : Framebuffer) : (s.setFb f).sp = s.sp := rfl
@[simp] theorem setFb_stack (f : Framebuffer) : (s.setFb f).stack = s.stack := rfl
@[simp] theorem setFb_dt (f : Framebuffer) : (s.setFb f).dt = s.dt := rfl
@[simp] theorem setFb_st (f : Framebuffer) : (s.setFb f).st = s.st := rfl
@[simp] theorem setFb_keys (f : Framebuffer) : (s.setFb f).keys = s.keys := rfl
@[simp] theorem setFb_keySample (f : Framebuffer) : (s.setFb f).keySample = s.keySample := rfl
@[simp] theorem setFb_fb (f : Framebuffer) : (s.setFb f).fb = f := rfl
@[simp] theorem setFb_opcode (f : Framebuffer) : (s.setFb f).opcode = s.opcode := rfl
@[simp] theorem setFb_halt (f : Framebuffer) : (s.setFb f).halt = s.halt := rfl
@[simp] theorem setFb_fcause (f : Framebuffer) : (s.setFb f).fcause = s.fcause := rfl
@[simp] theorem setFb_fpc (f : Framebuffer) : (s.setFb f).fpc = s.fpc := rfl
@[simp] theorem setFb_finfo (f : Framebuffer) : (s.setFb f).finfo = s.finfo := rfl
@[simp] theorem setFb_mem (f : Framebuffer) : (s.setFb f).mem = s.mem := rfl
@[simp] theorem setFb_rnd (f : Framebuffer) : (s.setFb f).rnd = s.rnd := rfl
@[simp] theorem setFb_draws (f : Framebuffer) : (s.setFb f).draws = s.draws := rfl

/-! ## setMem -/

@[simp] theorem setMem_v (m : Memory) : (s.setMem m).v = s.v := rfl
@[simp] theorem setMem_index (m : Memory) : (s.setMem m).index = s.index := rfl
@[simp] theorem setMem_pc (m : Memory) : (s.setMem m).pc = s.pc := rfl
@[simp] theorem setMem_sp (m : Memory) : (s.setMem m).sp = s.sp := rfl
@[simp] theorem setMem_stack (m : Memory) : (s.setMem m).stack = s.stack := rfl
@[simp] theorem setMem_dt (m : Memory) : (s.setMem m).dt = s.dt := rfl
@[simp] theorem setMem_st (m : Memory) : (s.setMem m).st = s.st := rfl
@[simp] theorem setMem_keys (m : Memory) : (s.setMem m).keys = s.keys := rfl
@[simp] theorem setMem_keySample (m : Memory) : (s.setMem m).keySample = s.keySample := rfl
@[simp] theorem setMem_fb (m : Memory) : (s.setMem m).fb = s.fb := rfl
@[simp] theorem setMem_opcode (m : Memory) : (s.setMem m).opcode = s.opcode := rfl
@[simp] theorem setMem_halt (m : Memory) : (s.setMem m).halt = s.halt := rfl
@[simp] theorem setMem_fcause (m : Memory) : (s.setMem m).fcause = s.fcause := rfl
@[simp] theorem setMem_fpc (m : Memory) : (s.setMem m).fpc = s.fpc := rfl
@[simp] theorem setMem_finfo (m : Memory) : (s.setMem m).finfo = s.finfo := rfl
@[simp] theorem setMem_mem (m : Memory) : (s.setMem m).mem = m := rfl
@[simp] theorem setMem_rnd (m : Memory) : (s.setMem m).rnd = s.rnd := rfl
@[simp] theorem setMem_draws (m : Memory) : (s.setMem m).draws = s.draws := rfl

/-! ## rewind -/

@[simp] theorem rewind_v : s.rewind.v = s.v := rfl
@[simp] theorem rewind_index : s.rewind.index = s.index := rfl
@[simp] theorem rewind_pc : s.rewind.pc = s.pc - 2#16 := rfl
@[simp] theorem rewind_sp : s.rewind.sp = s.sp := rfl
@[simp] theorem rewind_stack : s.rewind.stack = s.stack := rfl
@[simp] theorem rewind_dt : s.rewind.dt = s.dt := rfl
@[simp] theorem rewind_st : s.rewind.st = s.st := rfl
@[simp] theorem rewind_keys : s.rewind.keys = s.keys := rfl
@[simp] theorem rewind_keySample : s.rewind.keySample = s.keySample := rfl
@[simp] theorem rewind_fb : s.rewind.fb = s.fb := rfl
@[simp] theorem rewind_opcode : s.rewind.opcode = s.opcode := rfl
@[simp] theorem rewind_halt : s.rewind.halt = s.halt := rfl
@[simp] theorem rewind_fcause : s.rewind.fcause = s.fcause := rfl
@[simp] theorem rewind_fpc : s.rewind.fpc = s.fpc := rfl
@[simp] theorem rewind_finfo : s.rewind.finfo = s.finfo := rfl
@[simp] theorem rewind_mem : s.rewind.mem = s.mem := rfl
@[simp] theorem rewind_rnd : s.rewind.rnd = s.rnd := rfl
@[simp] theorem rewind_draws : s.rewind.draws = s.draws := rfl

/-! ## enterFault -/

@[simp] theorem enterFault_v (p : Word) (c : Cause) (i : Word) : (s.enterFault p c i).v = s.v := rfl
@[simp] theorem enterFault_index (p : Word) (c : Cause) (i : Word) : (s.enterFault p c i).index = s.index := rfl
@[simp] theorem enterFault_pc (p : Word) (c : Cause) (i : Word) : (s.enterFault p c i).pc = p := rfl
@[simp] theorem enterFault_sp (p : Word) (c : Cause) (i : Word) : (s.enterFault p c i).sp = s.sp := rfl
@[simp] theorem enterFault_stack (p : Word) (c : Cause) (i : Word) : (s.enterFault p c i).stack = s.stack := rfl
@[simp] theorem enterFault_dt (p : Word) (c : Cause) (i : Word) : (s.enterFault p c i).dt = s.dt := rfl
@[simp] theorem enterFault_st (p : Word) (c : Cause) (i : Word) : (s.enterFault p c i).st = s.st := rfl
@[simp] theorem enterFault_keys (p : Word) (c : Cause) (i : Word) : (s.enterFault p c i).keys = s.keys := rfl
@[simp] theorem enterFault_keySample (p : Word) (c : Cause) (i : Word) : (s.enterFault p c i).keySample = s.keySample := rfl
@[simp] theorem enterFault_fb (p : Word) (c : Cause) (i : Word) : (s.enterFault p c i).fb = s.fb := rfl
@[simp] theorem enterFault_opcode (p : Word) (c : Cause) (i : Word) : (s.enterFault p c i).opcode = s.opcode := rfl
@[simp] theorem enterFault_halt (p : Word) (c : Cause) (i : Word) : (s.enterFault p c i).halt = true := rfl
@[simp] theorem enterFault_fcause (p : Word) (c : Cause) (i : Word) : (s.enterFault p c i).fcause = c.code := rfl
@[simp] theorem enterFault_fpc (p : Word) (c : Cause) (i : Word) : (s.enterFault p c i).fpc = p := rfl
@[simp] theorem enterFault_finfo (p : Word) (c : Cause) (i : Word) : (s.enterFault p c i).finfo = i := rfl
@[simp] theorem enterFault_mem (p : Word) (c : Cause) (i : Word) : (s.enterFault p c i).mem = s.mem := rfl
@[simp] theorem enterFault_rnd (p : Word) (c : Cause) (i : Word) : (s.enterFault p c i).rnd = s.rnd := rfl
@[simp] theorem enterFault_draws (p : Word) (c : Cause) (i : Word) : (s.enterFault p c i).draws = s.draws := rfl

/-! ## raise -/

@[simp] theorem raise_v (c : Cause) (i : Word) : (s.raise c i).v = s.v := rfl
@[simp] theorem raise_index (c : Cause) (i : Word) : (s.raise c i).index = s.index := rfl
@[simp] theorem raise_pc (c : Cause) (i : Word) : (s.raise c i).pc = s.pc - 2#16 := rfl
@[simp] theorem raise_sp (c : Cause) (i : Word) : (s.raise c i).sp = s.sp := rfl
@[simp] theorem raise_stack (c : Cause) (i : Word) : (s.raise c i).stack = s.stack := rfl
@[simp] theorem raise_dt (c : Cause) (i : Word) : (s.raise c i).dt = s.dt := rfl
@[simp] theorem raise_st (c : Cause) (i : Word) : (s.raise c i).st = s.st := rfl
@[simp] theorem raise_keys (c : Cause) (i : Word) : (s.raise c i).keys = s.keys := rfl
@[simp] theorem raise_keySample (c : Cause) (i : Word) : (s.raise c i).keySample = s.keySample := rfl
@[simp] theorem raise_fb (c : Cause) (i : Word) : (s.raise c i).fb = s.fb := rfl
@[simp] theorem raise_opcode (c : Cause) (i : Word) : (s.raise c i).opcode = s.opcode := rfl
@[simp] theorem raise_halt (c : Cause) (i : Word) : (s.raise c i).halt = true := rfl
@[simp] theorem raise_fcause (c : Cause) (i : Word) : (s.raise c i).fcause = c.code := rfl
@[simp] theorem raise_fpc (c : Cause) (i : Word) : (s.raise c i).fpc = s.pc - 2#16 := rfl
@[simp] theorem raise_finfo (c : Cause) (i : Word) : (s.raise c i).finfo = i := rfl
@[simp] theorem raise_mem (c : Cause) (i : Word) : (s.raise c i).mem = s.mem := rfl
@[simp] theorem raise_rnd (c : Cause) (i : Word) : (s.raise c i).rnd = s.rnd := rfl
@[simp] theorem raise_draws (c : Cause) (i : Word) : (s.raise c i).draws = s.draws := rfl

/-! ## sampleKeys -/

@[simp] theorem sampleKeys_v : s.sampleKeys.v = s.v := rfl
@[simp] theorem sampleKeys_index : s.sampleKeys.index = s.index := rfl
@[simp] theorem sampleKeys_pc : s.sampleKeys.pc = s.pc := rfl
@[simp] theorem sampleKeys_sp : s.sampleKeys.sp = s.sp := rfl
@[simp] theorem sampleKeys_stack : s.sampleKeys.stack = s.stack := rfl
@[simp] theorem sampleKeys_dt : s.sampleKeys.dt = s.dt := rfl
@[simp] theorem sampleKeys_st : s.sampleKeys.st = s.st := rfl
@[simp] theorem sampleKeys_keys : s.sampleKeys.keys = s.keys := rfl
@[simp] theorem sampleKeys_keySample : s.sampleKeys.keySample = s.keys := rfl
@[simp] theorem sampleKeys_fb : s.sampleKeys.fb = s.fb := rfl
@[simp] theorem sampleKeys_opcode : s.sampleKeys.opcode = s.opcode := rfl
@[simp] theorem sampleKeys_halt : s.sampleKeys.halt = s.halt := rfl
@[simp] theorem sampleKeys_fcause : s.sampleKeys.fcause = s.fcause := rfl
@[simp] theorem sampleKeys_fpc : s.sampleKeys.fpc = s.fpc := rfl
@[simp] theorem sampleKeys_finfo : s.sampleKeys.finfo = s.finfo := rfl
@[simp] theorem sampleKeys_mem : s.sampleKeys.mem = s.mem := rfl
@[simp] theorem sampleKeys_rnd : s.sampleKeys.rnd = s.rnd := rfl
@[simp] theorem sampleKeys_draws : s.sampleKeys.draws = s.draws := rfl

/-! ## advance -/

@[simp] theorem advance_v (op : Word) : (s.advance op).v = s.v := rfl
@[simp] theorem advance_index (op : Word) : (s.advance op).index = s.index := rfl
@[simp] theorem advance_pc (op : Word) : (s.advance op).pc = s.pc + 2#16 := rfl
@[simp] theorem advance_sp (op : Word) : (s.advance op).sp = s.sp := rfl
@[simp] theorem advance_stack (op : Word) : (s.advance op).stack = s.stack := rfl
@[simp] theorem advance_dt (op : Word) : (s.advance op).dt = s.dt := rfl
@[simp] theorem advance_st (op : Word) : (s.advance op).st = s.st := rfl
@[simp] theorem advance_keys (op : Word) : (s.advance op).keys = s.keys := rfl
@[simp] theorem advance_keySample (op : Word) : (s.advance op).keySample = s.keySample := rfl
@[simp] theorem advance_fb (op : Word) : (s.advance op).fb = s.fb := rfl
@[simp] theorem advance_opcode (op : Word) : (s.advance op).opcode = op := rfl
@[simp] theorem advance_halt (op : Word) : (s.advance op).halt = s.halt := rfl
@[simp] theorem advance_fcause (op : Word) : (s.advance op).fcause = s.fcause := rfl
@[simp] theorem advance_fpc (op : Word) : (s.advance op).fpc = s.fpc := rfl
@[simp] theorem advance_finfo (op : Word) : (s.advance op).finfo = s.finfo := rfl
@[simp] theorem advance_mem (op : Word) : (s.advance op).mem = s.mem := rfl
@[simp] theorem advance_rnd (op : Word) : (s.advance op).rnd = s.rnd := rfl
@[simp] theorem advance_draws (op : Word) : (s.advance op).draws = s.draws := rfl

/-! ## tick -/

@[simp] theorem tick_v : s.tick.v = s.v := rfl
@[simp] theorem tick_index : s.tick.index = s.index := rfl
@[simp] theorem tick_pc : s.tick.pc = s.pc := rfl
@[simp] theorem tick_sp : s.tick.sp = s.sp := rfl
@[simp] theorem tick_stack : s.tick.stack = s.stack := rfl
@[simp] theorem tick_dt : s.tick.dt = tickDown s.dt := rfl
@[simp] theorem tick_st : s.tick.st = tickDown s.st := rfl
@[simp] theorem tick_keys : s.tick.keys = s.keys := rfl
@[simp] theorem tick_keySample : s.tick.keySample = s.keySample := rfl
@[simp] theorem tick_fb : s.tick.fb = s.fb := rfl
@[simp] theorem tick_opcode : s.tick.opcode = s.opcode := rfl
@[simp] theorem tick_halt : s.tick.halt = s.halt := rfl
@[simp] theorem tick_fcause : s.tick.fcause = s.fcause := rfl
@[simp] theorem tick_fpc : s.tick.fpc = s.fpc := rfl
@[simp] theorem tick_finfo : s.tick.finfo = s.finfo := rfl
@[simp] theorem tick_mem : s.tick.mem = s.mem := rfl
@[simp] theorem tick_rnd : s.tick.rnd = s.rnd := rfl
@[simp] theorem tick_draws : s.tick.draws = s.draws := rfl

/-! ## withDraw -/

@[simp] theorem withDraw_v (b : Byte) : (s.withDraw b).v = s.v := rfl
@[simp] theorem withDraw_index (b : Byte) : (s.withDraw b).index = s.index := rfl
@[simp] theorem withDraw_pc (b : Byte) : (s.withDraw b).pc = s.pc := rfl
@[simp] theorem withDraw_sp (b : Byte) : (s.withDraw b).sp = s.sp := rfl
@[simp] theorem withDraw_stack (b : Byte) : (s.withDraw b).stack = s.stack := rfl
@[simp] theorem withDraw_dt (b : Byte) : (s.withDraw b).dt = s.dt := rfl
@[simp] theorem withDraw_st (b : Byte) : (s.withDraw b).st = s.st := rfl
@[simp] theorem withDraw_keys (b : Byte) : (s.withDraw b).keys = s.keys := rfl
@[simp] theorem withDraw_keySample (b : Byte) : (s.withDraw b).keySample = s.keySample := rfl
@[simp] theorem withDraw_fb (b : Byte) : (s.withDraw b).fb = s.fb := rfl
@[simp] theorem withDraw_opcode (b : Byte) : (s.withDraw b).opcode = s.opcode := rfl
@[simp] theorem withDraw_halt (b : Byte) : (s.withDraw b).halt = s.halt := rfl
@[simp] theorem withDraw_fcause (b : Byte) : (s.withDraw b).fcause = s.fcause := rfl
@[simp] theorem withDraw_fpc (b : Byte) : (s.withDraw b).fpc = s.fpc := rfl
@[simp] theorem withDraw_finfo (b : Byte) : (s.withDraw b).finfo = s.finfo := rfl
@[simp] theorem withDraw_mem (b : Byte) : (s.withDraw b).mem = s.mem := rfl
@[simp] theorem withDraw_rnd (b : Byte) : (s.withDraw b).rnd = b := rfl
@[simp] theorem withDraw_draws (b : Byte) : (s.withDraw b).draws = s.draws := rfl

/-! ## keySet -/

@[simp] theorem keySet_v (k : Fin 16) (d : Bool) : (s.keySet k d).v = s.v := rfl
@[simp] theorem keySet_index (k : Fin 16) (d : Bool) : (s.keySet k d).index = s.index := rfl
@[simp] theorem keySet_pc (k : Fin 16) (d : Bool) : (s.keySet k d).pc = s.pc := rfl
@[simp] theorem keySet_sp (k : Fin 16) (d : Bool) : (s.keySet k d).sp = s.sp := rfl
@[simp] theorem keySet_stack (k : Fin 16) (d : Bool) : (s.keySet k d).stack = s.stack := rfl
@[simp] theorem keySet_dt (k : Fin 16) (d : Bool) : (s.keySet k d).dt = s.dt := rfl
@[simp] theorem keySet_st (k : Fin 16) (d : Bool) : (s.keySet k d).st = s.st := rfl
@[simp] theorem keySet_keys (k : Fin 16) (d : Bool) : (s.keySet k d).keys = s.keys.set k d := rfl
@[simp] theorem keySet_keySample (k : Fin 16) (d : Bool) : (s.keySet k d).keySample = s.keySample := rfl
@[simp] theorem keySet_fb (k : Fin 16) (d : Bool) : (s.keySet k d).fb = s.fb := rfl
@[simp] theorem keySet_opcode (k : Fin 16) (d : Bool) : (s.keySet k d).opcode = s.opcode := rfl
@[simp] theorem keySet_halt (k : Fin 16) (d : Bool) : (s.keySet k d).halt = s.halt := rfl
@[simp] theorem keySet_fcause (k : Fin 16) (d : Bool) : (s.keySet k d).fcause = s.fcause := rfl
@[simp] theorem keySet_fpc (k : Fin 16) (d : Bool) : (s.keySet k d).fpc = s.fpc := rfl
@[simp] theorem keySet_finfo (k : Fin 16) (d : Bool) : (s.keySet k d).finfo = s.finfo := rfl
@[simp] theorem keySet_mem (k : Fin 16) (d : Bool) : (s.keySet k d).mem = s.mem := rfl
@[simp] theorem keySet_rnd (k : Fin 16) (d : Bool) : (s.keySet k d).rnd = s.rnd := rfl
@[simp] theorem keySet_draws (k : Fin 16) (d : Bool) : (s.keySet k d).draws = s.draws := rfl

/-! ## skipIf: the pc only -/

@[simp] theorem skipIf_v (c : Bool) : (s.skipIf c).v = s.v := by cases c <;> rfl
@[simp] theorem skipIf_index (c : Bool) : (s.skipIf c).index = s.index := by cases c <;> rfl
@[simp] theorem skipIf_pc (c : Bool) : (s.skipIf c).pc = if c then s.pc + 2#16 else s.pc := by cases c <;> rfl
@[simp] theorem skipIf_sp (c : Bool) : (s.skipIf c).sp = s.sp := by cases c <;> rfl
@[simp] theorem skipIf_stack (c : Bool) : (s.skipIf c).stack = s.stack := by cases c <;> rfl
@[simp] theorem skipIf_dt (c : Bool) : (s.skipIf c).dt = s.dt := by cases c <;> rfl
@[simp] theorem skipIf_st (c : Bool) : (s.skipIf c).st = s.st := by cases c <;> rfl
@[simp] theorem skipIf_keys (c : Bool) : (s.skipIf c).keys = s.keys := by cases c <;> rfl
@[simp] theorem skipIf_keySample (c : Bool) : (s.skipIf c).keySample = s.keySample := by cases c <;> rfl
@[simp] theorem skipIf_fb (c : Bool) : (s.skipIf c).fb = s.fb := by cases c <;> rfl
@[simp] theorem skipIf_opcode (c : Bool) : (s.skipIf c).opcode = s.opcode := by cases c <;> rfl
@[simp] theorem skipIf_halt (c : Bool) : (s.skipIf c).halt = s.halt := by cases c <;> rfl
@[simp] theorem skipIf_fcause (c : Bool) : (s.skipIf c).fcause = s.fcause := by cases c <;> rfl
@[simp] theorem skipIf_fpc (c : Bool) : (s.skipIf c).fpc = s.fpc := by cases c <;> rfl
@[simp] theorem skipIf_finfo (c : Bool) : (s.skipIf c).finfo = s.finfo := by cases c <;> rfl
@[simp] theorem skipIf_mem (c : Bool) : (s.skipIf c).mem = s.mem := by cases c <;> rfl
@[simp] theorem skipIf_rnd (c : Bool) : (s.skipIf c).rnd = s.rnd := by cases c <;> rfl
@[simp] theorem skipIf_draws (c : Bool) : (s.skipIf c).draws = s.draws := by cases c <;> rfl

/-! ## countDraw: the counter only -/

@[simp] theorem countDraw_v : s.countDraw.v = s.v := by unfold countDraw; split <;> rfl
@[simp] theorem countDraw_index : s.countDraw.index = s.index := by unfold countDraw; split <;> rfl
@[simp] theorem countDraw_pc : s.countDraw.pc = s.pc := by unfold countDraw; split <;> rfl
@[simp] theorem countDraw_sp : s.countDraw.sp = s.sp := by unfold countDraw; split <;> rfl
@[simp] theorem countDraw_stack : s.countDraw.stack = s.stack := by unfold countDraw; split <;> rfl
@[simp] theorem countDraw_dt : s.countDraw.dt = s.dt := by unfold countDraw; split <;> rfl
@[simp] theorem countDraw_st : s.countDraw.st = s.st := by unfold countDraw; split <;> rfl
@[simp] theorem countDraw_keys : s.countDraw.keys = s.keys := by unfold countDraw; split <;> rfl
@[simp] theorem countDraw_keySample : s.countDraw.keySample = s.keySample := by unfold countDraw; split <;> rfl
@[simp] theorem countDraw_fb : s.countDraw.fb = s.fb := by unfold countDraw; split <;> rfl
@[simp] theorem countDraw_opcode : s.countDraw.opcode = s.opcode := by unfold countDraw; split <;> rfl
@[simp] theorem countDraw_halt : s.countDraw.halt = s.halt := by unfold countDraw; split <;> rfl
@[simp] theorem countDraw_fcause : s.countDraw.fcause = s.fcause := by unfold countDraw; split <;> rfl
@[simp] theorem countDraw_fpc : s.countDraw.fpc = s.fpc := by unfold countDraw; split <;> rfl
@[simp] theorem countDraw_finfo : s.countDraw.finfo = s.finfo := by unfold countDraw; split <;> rfl
@[simp] theorem countDraw_mem : s.countDraw.mem = s.mem := by unfold countDraw; split <;> rfl
@[simp] theorem countDraw_rnd : s.countDraw.rnd = s.rnd := by unfold countDraw; split <;> rfl
@[simp] theorem countDraw_draws : s.countDraw.draws = if s.halt then s.draws else s.draws + 1 := by
  unfold countDraw; split <;> rfl

/-! ## endCycle: the timers only -/

@[simp] theorem endCycle_v : s.endCycle.v = s.v := by unfold endCycle; split <;> rfl
@[simp] theorem endCycle_index : s.endCycle.index = s.index := by unfold endCycle; split <;> rfl
@[simp] theorem endCycle_pc : s.endCycle.pc = s.pc := by unfold endCycle; split <;> rfl
@[simp] theorem endCycle_sp : s.endCycle.sp = s.sp := by unfold endCycle; split <;> rfl
@[simp] theorem endCycle_stack : s.endCycle.stack = s.stack := by unfold endCycle; split <;> rfl
@[simp] theorem endCycle_dt : s.endCycle.dt = if s.halt then s.dt else tickDown s.dt := by
  unfold endCycle; split <;> rfl
@[simp] theorem endCycle_st : s.endCycle.st = if s.halt then s.st else tickDown s.st := by
  unfold endCycle; split <;> rfl
@[simp] theorem endCycle_keys : s.endCycle.keys = s.keys := by unfold endCycle; split <;> rfl
@[simp] theorem endCycle_keySample : s.endCycle.keySample = s.keySample := by unfold endCycle; split <;> rfl
@[simp] theorem endCycle_fb : s.endCycle.fb = s.fb := by unfold endCycle; split <;> rfl
@[simp] theorem endCycle_opcode : s.endCycle.opcode = s.opcode := by unfold endCycle; split <;> rfl
@[simp] theorem endCycle_halt : s.endCycle.halt = s.halt := by unfold endCycle; split <;> rfl
@[simp] theorem endCycle_fcause : s.endCycle.fcause = s.fcause := by unfold endCycle; split <;> rfl
@[simp] theorem endCycle_fpc : s.endCycle.fpc = s.fpc := by unfold endCycle; split <;> rfl
@[simp] theorem endCycle_finfo : s.endCycle.finfo = s.finfo := by unfold endCycle; split <;> rfl
@[simp] theorem endCycle_mem : s.endCycle.mem = s.mem := by unfold endCycle; split <;> rfl
@[simp] theorem endCycle_rnd : s.endCycle.rnd = s.rnd := by unfold endCycle; split <;> rfl
@[simp] theorem endCycle_draws : s.endCycle.draws = s.draws := by unfold endCycle; split <;> rfl

/-! ## Reading a register after a write -/

@[simp] theorem getV_setV (x r : Reg) (b : Byte) : (s.setV x b).getV r = if r = x then b else s.getV r := by
  simp only [getV, setV_v, Fin.getElem_fin, Vector.getElem_set, Fin.ext_iff, eq_comm]

@[simp] theorem getV_setVF (r : Reg) (b : Byte) :
    (s.setVF b).getV r = if r = Config.flagReg then b else s.getV r := getV_setV s _ r b

/-- What depends on the registers alone is kept by an update that keeps them. -/
theorem getV_congr {s t : State} (h : t.v = s.v) (r : Reg) : t.getV r = s.getV r := by
  simp only [getV, h]

@[simp] theorem getV_setIndex (w : Word) (r : Reg) : (s.setIndex w).getV r = s.getV r := getV_congr (by simp) r
@[simp] theorem getV_setPc (w : Word) (r : Reg) : (s.setPc w).getV r = s.getV r := getV_congr (by simp) r
@[simp] theorem getV_setDt (b : Byte) (r : Reg) : (s.setDt b).getV r = s.getV r := getV_congr (by simp) r
@[simp] theorem getV_setSt (b : Byte) (r : Reg) : (s.setSt b).getV r = s.getV r := getV_congr (by simp) r
@[simp] theorem getV_setFb (f : Framebuffer) (r : Reg) : (s.setFb f).getV r = s.getV r := getV_congr (by simp) r
@[simp] theorem getV_setMem (m : Memory) (r : Reg) : (s.setMem m).getV r = s.getV r := getV_congr (by simp) r
@[simp] theorem getV_enterFault (p : Word) (c : Cause) (info : Word) (r : Reg) : (s.enterFault p c info).getV r = s.getV r :=
  getV_congr (by simp) r
@[simp] theorem getV_raise (c : Cause) (info : Word) (r : Reg) : (s.raise c info).getV r = s.getV r :=
  getV_congr (by simp) r
@[simp] theorem getV_skipIf (c : Bool) (r : Reg) : (s.skipIf c).getV r = s.getV r := getV_congr (by simp) r
@[simp] theorem getV_rewind (r : Reg) : s.rewind.getV r = s.getV r := getV_congr (by simp) r
@[simp] theorem getV_sampleKeys (r : Reg) : s.sampleKeys.getV r = s.getV r := getV_congr (by simp) r
@[simp] theorem getV_advance (op : Word) (r : Reg) : (s.advance op).getV r = s.getV r := getV_congr (by simp) r
@[simp] theorem getV_tick (r : Reg) : s.tick.getV r = s.getV r := getV_congr (by simp) r
@[simp] theorem getV_endCycle (r : Reg) : s.endCycle.getV r = s.getV r := getV_congr (by simp) r
@[simp] theorem getV_withDraw (b : Byte) (r : Reg) : (s.withDraw b).getV r = s.getV r := getV_congr (by simp) r
@[simp] theorem getV_countDraw (r : Reg) : s.countDraw.getV r = s.getV r := getV_congr (by simp) r
@[simp] theorem getV_keySet (k : Fin 16) (b : Bool) (r : Reg) : (s.keySet k b).getV r = s.getV r :=
  getV_congr (by simp) r

/-- Two states agree when every field does. -/
theorem ext_fields {s t : State} (hv : t.v = s.v) (hindex : t.index = s.index) (hpc : t.pc = s.pc) (hsp : t.sp = s.sp)
    (hstack : t.stack = s.stack) (hdt : t.dt = s.dt) (hst : t.st = s.st) (hkeys : t.keys = s.keys)
    (hsample : t.keySample = s.keySample) (hfb : t.fb = s.fb) (hopcode : t.opcode = s.opcode) (hhalt : t.halt = s.halt)
    (hfcause : t.fcause = s.fcause) (hfpc : t.fpc = s.fpc) (hfinfo : t.finfo = s.finfo) (hmem : t.mem = s.mem)
    (hrnd : t.rnd = s.rnd) (hdraws : t.draws = s.draws) : t = s := by
  cases s; cases t; simp_all

end Sys2Proof.Machine.State
end

