-- ==== Sys2Proof/Laws/Ops.lean ====
section
/-! SUPPORT. One lemma per shared operation, saying what it can do: the address checks, the stack, the flag and result
writes, the register transfer, the key scan. -/

namespace Sys2Proof.Machine

/-! ## Address checks (45_index_memory.md R246) -/

theorem firstFailure_eq_none_iff (chk : Nat → Option Cause) (a k : Nat) :
    firstFailure chk a k = none ↔ ∀ j, j < k → chk (a + j) = none := by
  induction k generalizing a with
  | zero => simp [firstFailure]
  | succ k ih =>
    unfold firstFailure
    cases h : chk a with
    | some c =>
      simp only [reduceCtorEq, false_iff]
      exact fun hall => by simpa [h] using hall 0 (by omega)
    | none =>
      simp only [ih]
      constructor
      · intro hall j hj
        cases j with
        | zero => simpa using h
        | succ j => simpa [Nat.add_assoc, Nat.add_comm 1] using hall j (by omega)
      · intro hall j hj
        simpa [Nat.add_assoc, Nat.add_comm 1] using hall (j + 1) (by omega)

/-- The first address that fails is reported, with its cause. -/
theorem firstFailure_eq_some (chk : Nat → Option Cause) (a k j : Nat) (c : Cause) (hj : j < k)
    (hc : chk (a + j) = some c) (hbefore : ∀ i, i < j → chk (a + i) = none) :
    firstFailure chk a k = some (c, a + j) := by
  induction k generalizing a j with
  | zero => omega
  | succ k ih =>
    unfold firstFailure
    cases j with
    | zero => rw [show a = a + 0 from rfl, hc]
    | succ j =>
      have h0 : chk a = none := by simpa using hbefore 0 (by omega)
      rw [h0]
      have := ih (a + 1) j (by omega) (by simpa [Nat.add_assoc, Nat.add_comm 1] using hc)
        (fun i hi => by simpa [Nat.add_assoc, Nat.add_comm 1] using hbefore (i + 1) (by omega))
      simpa [Nat.add_assoc, Nat.add_comm 1] using this

theorem readCheck_eq_none_iff (a : Nat) : readCheck a = none ↔ a ≤ 0xFFF := by
  unfold readCheck; split <;> simp_all

theorem readCheck_of_ge {a : Nat} (h : 0x1000 ≤ a) : readCheck a = some .memReadRange := by
  unfold readCheck; rw [if_neg (by omega)]

/-- The read checks of a run pass exactly when it ends inside memory. -/
theorem firstFailure_readCheck_none {a k : Nat} (h : k = 0 ∨ a + k ≤ 0x1000) : firstFailure readCheck a k = none :=
  (firstFailure_eq_none_iff _ _ _).mpr fun j hj => (readCheck_eq_none_iff _).mpr (by omega)

/-- A run that leaves memory reports its first address above 0xFFF (R201, R246: `max(I, 0x1000)`). -/
theorem firstFailure_readCheck_some {a k : Nat} (hk : 0 < k) (h : 0x1000 < a + k) :
    firstFailure readCheck a k = some (.memReadRange, max a 0x1000) := by
  have e : a + (max a 0x1000 - a) = max a 0x1000 := by omega
  have := firstFailure_eq_some readCheck a k (max a 0x1000 - a) .memReadRange (by omega)
    (readCheck_of_ge (by omega)) (fun i hi => (readCheck_eq_none_iff _).mpr (by omega))
  rwa [e] at this

theorem writeCheck_eq_none_iff (cfg : Config) (a : Nat) :
    writeCheck cfg a = none ↔ a ≤ 0xFFF ∧ (cfg.protectLow = true → 0x200 ≤ a) := by
  unfold writeCheck
  split
  · next h =>
    cases cfg.protectLow
    · simp [h]
    · by_cases h2 : a < 0x200
      · simp [h2]
      · simp [h2]; omega
  · next h => simp; omega

theorem writeCheck_of_ge (cfg : Config) {a : Nat} (h : 0x1000 ≤ a) : writeCheck cfg a = some .memWriteRange := by
  unfold writeCheck; rw [if_neg (by omega)]

theorem writeCheck_of_low (cfg : Config) (hp : cfg.protectLow = true) {a : Nat} (h : a < 0x200) :
    writeCheck cfg a = some .reservedWrite := by
  unfold writeCheck
  rw [if_pos (by omega), hp, if_pos (by simpa using h)]

/-- The write checks of a run pass when it lies in the program region, or merely inside memory without PROTECT_LOW. -/
theorem firstFailure_writeCheck_none (cfg : Config) {a k : Nat}
    (h : k = 0 ∨ (a + k ≤ 0x1000 ∧ (cfg.protectLow = true → 0x200 ≤ a))) :
    firstFailure (writeCheck cfg) a k = none :=
  (firstFailure_eq_none_iff _ _ _).mpr fun j hj => (writeCheck_eq_none_iff _ _).mpr ⟨by omega, fun hp => by
    rcases h with h | h
    · omega
    · have := h.2 hp; omega⟩

/-- A run that begins in the reserved region reports its first address. -/
theorem firstFailure_writeCheck_low (cfg : Config) (hp : cfg.protectLow = true) {a k : Nat} (hk : 0 < k)
    (h : a < 0x200) : firstFailure (writeCheck cfg) a k = some (.reservedWrite, a) :=
  firstFailure_eq_some _ a k 0 _ hk (writeCheck_of_low cfg hp (by omega)) (fun i hi => by omega)

/-- A run outside the reserved region that leaves memory reports its first address above 0xFFF. -/
theorem firstFailure_writeCheck_high (cfg : Config) {a k : Nat} (hk : 0 < k) (hlow : cfg.protectLow = true → 0x200 ≤ a)
    (h : 0x1000 < a + k) : firstFailure (writeCheck cfg) a k = some (.memWriteRange, max a 0x1000) := by
  have e : a + (max a 0x1000 - a) = max a 0x1000 := by omega
  have := firstFailure_eq_some (writeCheck cfg) a k (max a 0x1000 - a) .memWriteRange (by omega)
    (writeCheck_of_ge cfg (by omega))
    (fun i hi => (writeCheck_eq_none_iff _ _).mpr ⟨by omega, fun hp => by have := hlow hp; omega⟩)
  rwa [e] at this

/-- After the checks: the state given, or fault entry; never a stop. -/
theorem State.checked_cases (s t : State) (f : Option (Cause × Nat)) :
    (f = none ∧ s.checked f t = .next t) ∨
    ∃ c a, f = some (c, a) ∧ s.checked f t = .next (s.raise c (BitVec.ofNat 16 a)) := by
  cases f with
  | none => exact .inl ⟨rfl, rfl⟩
  | some p => exact .inr ⟨p.1, p.2, rfl, rfl⟩

@[simp] theorem State.checked_none (s t : State) : s.checked none t = .next t := rfl

@[simp] theorem State.checked_some (s t : State) (c : Cause) (a : Nat) :
    s.checked (some (c, a)) t = .next (s.raise c (BitVec.ofNat 16 a)) := rfl

/-- Every cause of R272 has a nonzero code at most 7. -/
theorem Cause.code_ne_zero (c : Cause) : c.code ≠ 0#4 := by cases c <;> decide

theorem Cause.code_le (c : Cause) : c.code.toNat ≤ 7 := by cases c <;> decide

/-! ## The call stack (41_control_flow.md R131, R132) -/

theorem State.pushJump_of_lt (s : State) (w : Word) (h : s.sp.val < 16) :
    s.pushJump w = { s with stack := s.stack.set s.sp.val s.pc, sp := ⟨s.sp.val + 1, by omega⟩, pc := w } := by
  unfold State.pushJump; rw [dif_pos h]

theorem State.pushJump_of_full (s : State) (w : Word) (h : s.sp.val = 16) :
    s.pushJump w = s.raise .stackOverflow 16#16 := by
  unfold State.pushJump; rw [dif_neg (by omega), h]

theorem State.popJump_of_pos (s : State) (h : 0 < s.sp.val) :
    s.popJump = { s with sp := ⟨s.sp.val - 1, by omega⟩, pc := s.stack[s.sp.val - 1] } := by
  unfold State.popJump; rw [dif_pos h]

theorem State.popJump_of_zero (s : State) (h : s.sp.val = 0) :
    s.popJump = s.raise .stackUnderflow 0#16 := by
  unfold State.popJump; rw [dif_neg (by omega), h]

/-! ## Flag and result writes (42_alu.md R166 to R170, R173) -/

theorem State.flagThenResult_latched (s : State) (x y : Reg) (flag result : Byte → Byte → Byte) :
    s.flagThenResult .latched x y flag result =
      (s.setVF (flag (s.getV x) (s.getV y))).setV x (result (s.getV x) (s.getV y)) := rfl

theorem State.flagThenResult_reread (s : State) (x y : Reg) (flag result : Byte → Byte → Byte) :
    s.flagThenResult .reread x y flag result =
      (s.setVF (flag (s.getV x) (s.getV y))).setV x
        (result ((s.setVF (flag (s.getV x) (s.getV y))).getV x) ((s.setVF (flag (s.getV x) (s.getV y))).getV y)) := rfl

/-- It writes registers only. -/
theorem State.flagThenResult_eq (s : State) (mode : AluAlias) (x y : Reg) (flag result : Byte → Byte → Byte) :
    s.flagThenResult mode x y flag result = { s with v := (s.flagThenResult mode x y flag result).v } := by
  cases mode <;> rfl

/-- It writes registers only. -/
theorem State.resultThenFlag_eq (s : State) (x y : Reg) (flag result : Byte → Byte → Byte) :
    s.resultThenFlag x y flag result = { s with v := (s.resultThenFlag x y flag result).v } := rfl

/-- R166: with `x = 0xF` the flag, written last, is what stays. -/
theorem State.getV_resultThenFlag (s : State) (x y r : Reg) (flag result : Byte → Byte → Byte) :
    (s.resultThenFlag x y flag result).getV r =
      if r = Config.flagReg then flag (s.getV x) (s.getV y)
      else if r = x then result (s.getV x) (s.getV y) else s.getV r := by
  simp [State.resultThenFlag]

/-- R167 to R170, LATCHED: with `x = 0xF` the result, written last, is what stays. -/
theorem State.getV_flagThenResult_latched (s : State) (x y r : Reg) (flag result : Byte → Byte → Byte) :
    (s.flagThenResult .latched x y flag result).getV r =
      if r = x then result (s.getV x) (s.getV y)
      else if r = Config.flagReg then flag (s.getV x) (s.getV y) else s.getV r := by
  simp [State.flagThenResult]

/-! ## Register transfer (45_index_memory.md R245) -/

theorem getElem_loadRegs (cfg : Config) (m : Memory) (base : Nat) (v : Vector Byte 16) (k j : Nat) (hj : j < 16) :
    (loadRegs cfg m base v k)[j] = if j < k then Memory.read cfg m (base + j) else v[j] := by
  induction k with
  | zero => simp [loadRegs]
  | succ k ih =>
    rw [loadRegs, Vector.getElem_setIfInBounds]
    by_cases h : k = j
    · simp [h]
    · rw [if_neg h, ih]
      by_cases h2 : j < k
      · rw [if_pos h2, if_pos (by omega)]
      · rw [if_neg h2, if_neg (by omega)]

theorem loadRegs_congr {cfg cfg' : Config} (h : Memory.unlisted cfg = Memory.unlisted cfg') (m : Memory) (base : Nat)
    (v : Vector Byte 16) (k : Nat) : loadRegs cfg m base v k = loadRegs cfg' m base v k := by
  induction k with
  | zero => rfl
  | succ k ih => rw [loadRegs, loadRegs, ih, Memory.read_congr h]

/-! ## The key scan (44_keypad_timers.md R223) -/

theorem lowestKey_eq_none_iff (k : Keypad) : lowestKey k = none ↔ ∀ j : Reg, k[j] = false := by
  simp [lowestKey, List.find?_eq_none]

/-- The key found is pressed, and none below it is. -/
theorem lowestKey_eq_some_iff (k : Keypad) (i : Reg) :
    lowestKey k = some i ↔ k[i] = true ∧ ∀ j : Reg, j < i → k[j] = false := by
  rw [lowestKey, List.find?_eq_some_iff_getElem]
  constructor
  · rintro ⟨hi, n, hn, he, hbefore⟩
    have hin : i.val = n := by rw [← he]; simp
    refine ⟨by simpa using hi, fun j hj => ?_⟩
    have hj' : j.val < n := by rw [← hin]; exact hj
    simpa using hbefore j.val hj'
  · rintro ⟨hi, hbefore⟩
    refine ⟨by simpa using hi, i.val, by simp, by simp, fun j hj => ?_⟩
    simpa using hbefore ⟨j, by omega⟩ hj

end Sys2Proof.Machine
end

