-- ==== Sys2Proof/Laws/Draw.lean ====
section
/-! SUPPORT. The framebuffer operations of 43_display.md R201, cell by cell: a sprite toggles exactly the cells its
pixels land on, and finds a collision exactly when one of them was on. -/

namespace Sys2Proof.Machine

abbrev CellPos := Fin 32 × Fin 64

@[simp] theorem Framebuffer.cell_clear (r : Fin 32) (c : Fin 64) : Framebuffer.cell Framebuffer.clear r c = false := by
  simp [Framebuffer.cell, Framebuffer.clear]

theorem Framebuffer.cell_toggle (f : Framebuffer) (r r' : Fin 32) (c c' : Fin 64) :
    (f.toggle r c).cell r' c' = if r' = r ∧ c' = c then !f.cell r c else f.cell r' c' := by
  simp only [Framebuffer.cell, Framebuffer.toggle, Fin.getElem_fin, Vector.getElem_set, Fin.ext_iff]
  by_cases hr : r.val = r'.val
  · by_cases hc : c.val = c'.val
    · simp [hr, hc]
    · have : ¬ c'.val = c.val := fun h => hc h.symm
      simp [hr, hc, this]
  · have : ¬ r'.val = r.val := fun h => hr h.symm
    simp [hr, this]

/-- Two framebuffers are equal when every cell is. -/
theorem Framebuffer.ext_cell {f g : Framebuffer} (h : ∀ r c, f.cell r c = g.cell r c) : f = g := by
  refine Vector.ext fun i hi => Vector.ext fun j hj => ?_
  exact h ⟨i, hi⟩ ⟨j, hj⟩

/-- Toggle the cells of a list, one after another, noting whether one was on. -/
def toggleCells (acc : Framebuffer × Bool) (ps : List CellPos) : Framebuffer × Bool :=
  ps.foldl (fun acc p => (acc.1.toggle p.1 p.2, acc.2 || acc.1.cell p.1 p.2)) acc

/-- The cells a sprite row's set bits land on, for the columns listed. -/
def rowCells (edge : SpriteEdge) (row : Byte) (py ox : Nat) (cs : List Nat) : List CellPos :=
  cs.filterMap (fun c => if row.getLsbD (7 - c) then pixelCell edge py (ox + c) else none)

/-- The cells a sprite's set bits land on, in drawing order. -/
def spriteCells (edge : SpriteEdge) (py ox : Nat) : List Byte → List CellPos
  | [] => []
  | row :: rows => rowCells edge row py ox [0, 1, 2, 3, 4, 5, 6, 7] ++ spriteCells edge (py + 1) ox rows

theorem toggleCells_append (acc : Framebuffer × Bool) (ps qs : List CellPos) :
    toggleCells acc (ps ++ qs) = toggleCells (toggleCells acc ps) qs := List.foldl_append

theorem drawRowFrom_eq (edge : SpriteEdge) (row : Byte) (py ox : Nat) (acc : Framebuffer × Bool) (cs : List Nat) :
    drawRowFrom edge row py ox acc cs = toggleCells acc (rowCells edge row py ox cs) := by
  induction cs generalizing acc with
  | nil => rfl
  | cons c cs ih =>
    rw [drawRowFrom, ih]
    unfold rowCells
    by_cases hb : row.getLsbD (7 - c) = true
    · cases hp : pixelCell edge py (ox + c) with
      | none => simp [hb, hp, drawPixel]
      | some p => simp [hb, hp, drawPixel, toggleCells]
    · simp [hb]

/-- Drawing a sprite is toggling its cells. -/
theorem drawRows_eq (edge : SpriteEdge) (py ox : Nat) (acc : Framebuffer × Bool) (rows : List Byte) :
    drawRows edge py ox acc rows = toggleCells acc (spriteCells edge py ox rows) := by
  induction rows generalizing py acc with
  | nil => rfl
  | cons row rows ih => rw [drawRows, ih, drawRowFrom_eq, spriteCells, toggleCells_append]

/-- Toggling distinct cells: each cell of the list is inverted, every other keeps its value. -/
theorem toggleCells_cell (ps : List CellPos) (acc : Framebuffer × Bool) (hnd : ps.Nodup) (r : Fin 32) (c : Fin 64) :
    (toggleCells acc ps).1.cell r c = (acc.1.cell r c ^^ decide ((r, c) ∈ ps)) := by
  induction ps generalizing acc with
  | nil => simp [toggleCells]
  | cons p ps ih =>
    obtain ⟨hp, hnd⟩ := List.nodup_cons.mp hnd
    show (toggleCells _ ps).1.cell r c = _
    rw [ih _ hnd]
    simp only [Framebuffer.cell_toggle]
    by_cases h : (r, c) = p
    · subst h
      simp [hp]
    · have h' : ¬ (r = p.1 ∧ c = p.2) := fun hh => h (Prod.ext hh.1 hh.2)
      simp [h, h']

/-- Toggling distinct cells finds a collision exactly when one of them was on before. -/
theorem toggleCells_hit (ps : List CellPos) (acc : Framebuffer × Bool) (hnd : ps.Nodup) :
    (toggleCells acc ps).2 = (acc.2 || ps.any (fun p => acc.1.cell p.1 p.2)) := by
  induction ps generalizing acc with
  | nil => simp [toggleCells]
  | cons p ps ih =>
    obtain ⟨hp, hnd⟩ := List.nodup_cons.mp hnd
    show (toggleCells _ ps).2 = _
    rw [ih _ hnd]
    have : ps.any (fun q => (acc.1.toggle p.1 p.2).cell q.1 q.2) = ps.any (fun q => acc.1.cell q.1 q.2) := by
      rw [Bool.eq_iff_iff, List.any_eq_true, List.any_eq_true]
      refine exists_congr fun q => and_congr_right fun hq => ?_
      have hne : ¬ (q.1 = p.1 ∧ q.2 = p.2) := fun hh => hp (by rw [← Prod.ext hh.1 hh.2]; exact hq)
      rw [Framebuffer.cell_toggle, if_neg hne]
    simp only [this, List.any_cons, Bool.or_assoc]

/-- Where a pixel lands: at its own row and column when clipped to the screen, modulo the screen when wrapped. -/
theorem pixelCell_clip_eq_some_iff (py px : Nat) (r : Fin 32) (c : Fin 64) :
    pixelCell .clip py px = some (r, c) ↔ r.val = py ∧ c.val = px := by
  unfold pixelCell
  by_cases h : py < 32 ∧ px < 64
  · simp only [dif_pos h, Option.some.injEq, Prod.mk.injEq, Fin.ext_iff]
    exact ⟨fun h => ⟨h.1.symm, h.2.symm⟩, fun h => ⟨h.1.symm, h.2.symm⟩⟩
  · simp only [dif_neg h, reduceCtorEq, false_iff]
    have := r.isLt; have := c.isLt
    omega

theorem pixelCell_wrap_eq_some_iff (py px : Nat) (r : Fin 32) (c : Fin 64) :
    pixelCell .wrap py px = some (r, c) ↔ r.val = py % 32 ∧ c.val = px % 64 := by
  unfold pixelCell
  simp only [Option.some.injEq, Prod.mk.injEq, Fin.ext_iff]
  exact ⟨fun h => ⟨h.1.symm, h.2.symm⟩, fun h => ⟨h.1.symm, h.2.symm⟩⟩

theorem mem_rowCells (edge : SpriteEdge) (row : Byte) (py ox : Nat) (cs : List Nat) (p : CellPos) :
    p ∈ rowCells edge row py ox cs ↔
      ∃ c ∈ cs, row.getLsbD (7 - c) = true ∧ pixelCell edge py (ox + c) = some p := by
  simp only [rowCells, List.mem_filterMap]
  refine exists_congr fun c => and_congr_right fun _ => ?_
  split <;> simp_all

/-- The cells of a sprite: a set bit of row `k`, column `c`, lands there. -/
theorem mem_spriteCells (edge : SpriteEdge) (py ox : Nat) (rows : List Byte) (p : CellPos) :
    p ∈ spriteCells edge py ox rows ↔
      ∃ k, ∃ _ : k < rows.length, ∃ c, c < 8 ∧ rows[k].getLsbD (7 - c) = true ∧
        pixelCell edge (py + k) (ox + c) = some p := by
  induction rows generalizing py with
  | nil => simp [spriteCells]
  | cons row rows ih =>
    rw [spriteCells, List.mem_append, ih, mem_rowCells]
    constructor
    · rintro (⟨c, hc, h1, h2⟩ | ⟨k, hk, c, hc, h1, h2⟩)
      · refine ⟨0, by simp, c, ?_, h1, h2⟩
        simp at hc; omega
      · exact ⟨k + 1, by simp; omega, c, hc, h1, by rw [← h2]; congr 1; omega⟩
    · rintro ⟨k, hk, c, hc, h1, h2⟩
      cases k with
      | zero => exact .inl ⟨c, by simp; omega, h1, h2⟩
      | succ k =>
        exact .inr ⟨k, by simpa using hk, c, hc, h1, by rw [← h2]; congr 1; omega⟩

/-- One landing cell, one pixel: within 32 rows and 8 columns no two pixels land on the same cell (R201's corner case
that no cell is drawn twice). -/
theorem pixelCell_inj (edge : SpriteEdge) {py ox k k' c c' : Nat} {p : CellPos} (hk : k < 32) (hk' : k' < 32)
    (hc : c < 8) (hc' : c' < 8) (h : pixelCell edge (py + k) (ox + c) = some p)
    (h' : pixelCell edge (py + k') (ox + c') = some p) : k = k' ∧ c = c' := by
  obtain ⟨r, q⟩ := p
  cases edge with
  | clip =>
    rw [pixelCell_clip_eq_some_iff] at h h'
    omega
  | wrap =>
    rw [pixelCell_wrap_eq_some_iff] at h h'
    omega

theorem nodup_rowCells (edge : SpriteEdge) (row : Byte) (py ox : Nat) :
    (rowCells edge row py ox [0, 1, 2, 3, 4, 5, 6, 7]).Nodup := by
  have h8 : ∀ c ∈ [0, 1, 2, 3, 4, 5, 6, 7], c < 8 := by decide
  have hnd : [0, 1, 2, 3, 4, 5, 6, 7].Nodup := by decide
  refine List.pairwise_filterMap.mpr (hnd.imp_of_mem ?_)
  intro c c' hc hc' hne p hp q hq e
  subst e
  simp only [Option.ite_none_right_eq_some] at hp hq
  have hp := hp.2
  have hq := hq.2
  exact hne (pixelCell_inj edge (k := 0) (k' := 0) (by omega) (by omega) (h8 c hc) (h8 c' hc') hp hq).2

theorem nodup_spriteCells (edge : SpriteEdge) (py ox : Nat) (rows : List Byte) (h : rows.length ≤ 32) :
    (spriteCells edge py ox rows).Nodup := by
  induction rows generalizing py with
  | nil => simp [spriteCells]
  | cons row rows ih =>
    simp only [List.length_cons] at h
    refine List.nodup_append.mpr ⟨nodup_rowCells .., ih (py + 1) (by omega), ?_⟩
    intro p hp q hq e
    subst e
    obtain ⟨c, hc, _, h1⟩ := (mem_rowCells ..).mp hp
    obtain ⟨k, hk, c', hc', _, h2⟩ := (mem_spriteCells ..).mp hq
    have h8 : c < 8 := by simp at hc; omega
    rw [show py + 1 + k = py + (k + 1) by omega] at h2
    have := (pixelCell_inj edge (k := 0) (k' := k + 1) (by omega) (by omega) h8 hc' h1 h2).1
    omega

/-- What drawing a sprite of at most 32 rows does to a cell: inverted when a pixel lands there, else kept. -/
theorem drawRows_cell (edge : SpriteEdge) (py ox : Nat) (f : Framebuffer) (hit : Bool) (rows : List Byte)
    (h : rows.length ≤ 32) (r : Fin 32) (c : Fin 64) :
    (drawRows edge py ox (f, hit) rows).1.cell r c =
      (f.cell r c ^^ decide ((r, c) ∈ spriteCells edge py ox rows)) := by
  rw [drawRows_eq, toggleCells_cell _ _ (nodup_spriteCells edge py ox rows h)]

/-- When drawing a sprite of at most 32 rows finds a collision: a pixel lands on a cell that was on. -/
theorem drawRows_hit (edge : SpriteEdge) (py ox : Nat) (f : Framebuffer) (hit : Bool) (rows : List Byte)
    (h : rows.length ≤ 32) :
    (drawRows edge py ox (f, hit) rows).2 =
      (hit || (spriteCells edge py ox rows).any (fun p => f.cell p.1 p.2)) := by
  rw [drawRows_eq, toggleCells_hit _ _ (nodup_spriteCells edge py ox rows h)]

end Sys2Proof.Machine
end

