-- ==== Sys2Proof/Laws/Exec.lean ====
section
/-! SUPPORT. Step 3 of the cycle, one equation per instruction, over the shared operations and with this hardware's
parameters in place: provers cite these instead of unfolding exec. And: step 3 always answers a next state. -/

namespace Sys2Proof.Machine

variable (s : State)

theorem exec_cls : exec .cls s = .next (s.setFb Framebuffer.clear) := rfl

theorem exec_ret : exec .ret s = .next s.popJump := rfl

theorem exec_jp (nnn : BitVec 12) : exec (.jp nnn) s = .next (s.setPc (addrOperand nnn)) := rfl

theorem exec_call (nnn : BitVec 12) : exec (.call nnn) s = .next (s.pushJump (addrOperand nnn)) := rfl

theorem exec_seVxKk (x : Reg) (kk : Byte) : exec (.seVxKk x kk) s = .next (s.skipIf (s.getV x == kk)) := rfl

theorem exec_sneVxKk (x : Reg) (kk : Byte) : exec (.sneVxKk x kk) s = .next (s.skipIf (s.getV x != kk)) := rfl

theorem exec_seVxVy (x y : Reg) : exec (.seVxVy x y) s = .next (s.skipIf (s.getV x == s.getV y)) := rfl

theorem exec_sneVxVy (x y : Reg) : exec (.sneVxVy x y) s = .next (s.skipIf (s.getV x != s.getV y)) := rfl

theorem exec_jpV0 (nnn : BitVec 12) :
    exec (.jpV0 nnn) s = .next (s.setPc (addrOperand nnn + byteOperand (s.getV 0))) := rfl

theorem exec_ldVxKk (x : Reg) (kk : Byte) : exec (.ldVxKk x kk) s = .next (s.setV x kk) := rfl

theorem exec_addVxKk (x : Reg) (kk : Byte) : exec (.addVxKk x kk) s = .next (s.setV x (s.getV x + kk)) := rfl

theorem exec_ldVxVy (x y : Reg) : exec (.ldVxVy x y) s = .next (s.setV x (s.getV y)) := rfl

theorem exec_or (x y : Reg) : exec (.or x y) s = .next (s.setV x (s.getV x ||| s.getV y)) := rfl

theorem exec_and (x y : Reg) : exec (.and x y) s = .next (s.setV x (s.getV x &&& s.getV y)) := rfl

theorem exec_xor (x y : Reg) : exec (.xor x y) s = .next (s.setV x (s.getV x ^^^ s.getV y)) := rfl

theorem exec_addVxVy (x y : Reg) :
    exec (.addVxVy x y) s = .next (s.resultThenFlag x y carryFlag (fun a b => a + b)) := rfl

theorem exec_sub (x y : Reg) :
    exec (.sub x y) s = .next (s.flagThenResult .latched x y greaterFlag (fun a b => a - b)) := rfl

theorem exec_shr (x : Reg) :
    exec (.shr x) s = .next (s.flagThenResult .latched x x (fun a _ => lowBitFlag a) (fun a _ => a >>> 1)) := rfl

theorem exec_subn (x y : Reg) :
    exec (.subn x y) s = .next (s.flagThenResult .latched x y (fun a b => greaterFlag b a) (fun a b => b - a)) := rfl

theorem exec_shl (x : Reg) :
    exec (.shl x) s = .next (s.flagThenResult .latched x x (fun a _ => highBitFlag a) (fun a _ => a <<< 1)) := rfl

theorem exec_rnd (x : Reg) (kk : Byte) : exec (.rnd x kk) s = .next (s.setV x (s.rnd &&& kk)) := rfl

/-- The framebuffer and the collision a DRW leaves on this hardware. -/
def drawn (x y : Reg) (n : Fin 16) : Framebuffer × Bool :=
  drawRows .clip (originRow (s.getV y)) (originCol (s.getV x)) (s.fb, false)
    (Memory.readBytes Config.hardware s.mem (memBase s) n.val)

theorem exec_drw (x y : Reg) (n : Fin 16) :
    exec (.drw x y n) s = s.checked (firstFailure readCheck (memBase s) n.val)
      ((s.setVF (collisionFlag (drawn s x y n).2)).setFb (drawn s x y n).1) := rfl

theorem exec_skp (x : Reg) : exec (.skp x) s = .next (s.keySkip x true) := rfl

theorem exec_sknp (x : Reg) : exec (.sknp x) s = .next (s.keySkip x false) := rfl

theorem exec_ldVxDt (x : Reg) : exec (.ldVxDt x) s = .next (s.setV x s.dt) := rfl

theorem exec_ldVxK_some (x : Reg) {k : Reg} (h : lowestKey s.keySample = some k) :
    exec (.ldVxK x) s = .next (s.setV x (BitVec.ofNat 8 k.val)) := by
  simp only [exec, execLdVxK, h]

theorem exec_ldVxK_none (x : Reg) (h : lowestKey s.keySample = none) : exec (.ldVxK x) s = .next s.rewind := by
  simp only [exec, execLdVxK, h]

theorem exec_ldDtVx (x : Reg) : exec (.ldDtVx x) s = .next (s.setDt (s.getV x)) := rfl

theorem exec_ldStVx (x : Reg) : exec (.ldStVx x) s = .next (s.setSt (s.getV x)) := rfl

theorem exec_ldINnn (nnn : BitVec 12) : exec (.ldINnn nnn) s = .next (s.setIndex (addrOperand nnn)) := rfl

theorem exec_addIVx (x : Reg) : exec (.addIVx x) s = .next (s.setIndex (s.index + byteOperand (s.getV x))) := rfl

theorem exec_ldFVx (x : Reg) : exec (.ldFVx x) s = .next (s.setIndex (glyphAddr Config.hardware (s.getV x))) := rfl

theorem exec_ldBVx (x : Reg) :
    exec (.ldBVx x) s = s.checked (firstFailure (writeCheck Config.hardware) (memBase s) 3)
      (s.setMem (Memory.writeBytes Config.hardware s.mem (memBase s) (bcdDigits (s.getV x)))) := rfl

theorem take_length (x : Reg) : (s.v.toList.take (x.val + 1)).length = x.val + 1 := by
  have := x.isLt
  simp

theorem exec_ldMiVx (x : Reg) :
    exec (.ldMiVx x) s = s.checked (firstFailure (writeCheck Config.hardware) (memBase s) (x.val + 1))
      (s.setMem (Memory.writeBytes Config.hardware s.mem (memBase s) (s.v.toList.take (x.val + 1)))) := by
  show s.checked (firstFailure (writeCheck Config.hardware) (memBase s) (s.v.toList.take (x.val + 1)).length)
    (s.setMem (Memory.writeBytes Config.hardware s.mem (memBase s) (s.v.toList.take (x.val + 1)))) = _
  rw [take_length]

theorem exec_ldVxMi (x : Reg) :
    exec (.ldVxMi x) s = s.checked (firstFailure readCheck (memBase s) (x.val + 1))
      { s with v := loadRegs Config.hardware s.mem (memBase s) s.v (x.val + 1) } := rfl

theorem exec_null (op : Word) : exec (.null op) s = .next s := rfl

/-- A keypad skip with its key in range. -/
theorem State.keySkip_of_lt (x : Reg) (pressed : Bool) (h : (s.getV x).toNat < 16) :
    s.keySkip x pressed = s.skipIf (s.keySample[(s.getV x).toNat] == pressed) := by
  unfold State.keySkip; rw [dif_pos h]

/-- A keypad skip with its key out of range. -/
theorem State.keySkip_of_ge (x : Reg) (pressed : Bool) (h : 16 ≤ (s.getV x).toNat) :
    s.keySkip x pressed = s.raise .keyRange (byteOperand (s.getV x)) := by
  unfold State.keySkip; rw [dif_neg (by omega)]

/-- What follows the checks, given or faulted, is a next state. -/
theorem State.checked_next (t : State) (f : Option (Cause × Nat)) : ∃ u, s.checked f t = .next u := by
  cases f <;> exact ⟨_, rfl⟩

/-- Step 3 always answers a next state: no arm of exec stops. -/
theorem exec_next (i : Instr) : ∃ t, exec i s = .next t := by
  cases i
  case drw x y n => exact State.checked_next ..
  case ldBVx x => exact State.checked_next ..
  case ldMiVx x => exact State.checked_next ..
  case ldVxMi x => exact State.checked_next ..
  case ldVxK x =>
    cases h : lowestKey s.keySample with
    | some k => exact ⟨_, exec_ldVxK_some s x h⟩
    | none => exact ⟨_, exec_ldVxK_none s x h⟩
  all_goals exact ⟨_, rfl⟩

end Sys2Proof.Machine
end

