-- ==== Sys2Proof/Laws/Step.lean ====
section
/-! SUPPORT. What one STEP can do, said once: the halted core, the fetch fault, and step 3 between fetch and tick. -/

namespace Sys2Proof.Machine

variable (s : State)

/-- The state as step 1 finds it: the draw of this STEP in place, the keypad sampled. -/
def State.begun : State := (s.countDraw.withDraw (Config.randomByte s.draws)).sampleKeys

/-- The state as step 3 finds it: the word fetched, the pc advanced. -/
def State.fetched : State := s.begun.advance (s.fetchWord Config.hardware)

/-- The instruction this STEP executes. -/
def State.fetchedInstr : Instr := decodeWord Config.hardware.strictDecode (s.fetchWord Config.hardware)

@[simp] theorem State.begun_fetchWord : s.begun.fetchWord Config.hardware = s.fetchWord Config.hardware := by
  simp [State.begun, State.fetchWord]

@[simp] theorem State.begun_canFetch : s.begun.canFetch = s.canFetch := by
  simp [State.begun, State.canFetch]

theorem State.canFetch_iff : s.canFetch = true ↔ s.pc.toNat + 1 ≤ 0xFFF := by
  simp [State.canFetch]

/-! ## One cycle, with the draw in place -/

/-- A cycle whose fetch is in range: step 3 on the sampled and advanced state, then the end of the cycle. -/
theorem cycle_of_canFetch (hf : s.canFetch = true) {t : State}
    (ht : exec s.fetchedInstr (s.sampleKeys.advance (s.fetchWord Config.hardware)) = .next t) :
    cycle Config.hardware exec s = .next t.endCycle := by
  show (if s.canFetch then
    finishCycle (exec s.fetchedInstr (s.sampleKeys.advance (s.fetchWord Config.hardware))) else _) = _
  rw [hf, if_pos rfl, ht, finishCycle]

/-- A cycle whose fetch is out of range faults (40_cycle.md R111). -/
theorem cycle_of_cannotFetch (hf : s.canFetch = false) :
    cycle Config.hardware exec s = .next (s.sampleKeys.enterFault s.pc .fetchRange s.pc) := by
  show (if s.canFetch then _ else _) = _
  rw [hf, if_neg (by decide)]
  rfl

/-- STEP(b) of a running core is one cycle with the draw b (60_exceptions.md R288). -/
theorem stepDrawing_of_running (h : s.halt = false) (b : Byte) :
    stepDrawing Config.hardware exec b s = cycle Config.hardware exec (s.withDraw b) := by
  simp [stepDrawing, h]

/-- A STEP of a running core is one cycle with a fresh free draw (log 1). -/
theorem step_of_running (h : s.halt = false) :
    step s = cycle Config.hardware exec (s.countDraw.withDraw (Config.randomByte s.draws)) := by
  simp [step, freeStep, stepDrawing, h]

/-- A halted core does nothing (60_exceptions.md R276). -/
theorem step_of_halted (h : s.halt = true) : step s = .next s := by
  simp [step, freeStep, stepDrawing, State.countDraw, h]

/-- A fetch out of range faults (40_cycle.md R111). -/
theorem step_of_cannotFetch (h : s.halt = false) (hf : s.canFetch = false) :
    step s = .next (s.begun.enterFault s.pc .fetchRange s.pc) := by
  have hp : (s.countDraw.withDraw (Config.randomByte s.draws)).pc = s.pc := by simp
  rw [step_of_running s h, cycle_of_cannotFetch _ (by simpa [State.canFetch] using hf), hp, State.begun]

/-- A fetch in range: step 3 on the fetched state, then the end of the cycle. -/
theorem step_of_canFetch (h : s.halt = false) (hf : s.canFetch = true) {t : State}
    (ht : exec s.fetchedInstr s.fetched = .next t) : step s = .next t.endCycle := by
  have hw : (s.countDraw.withDraw (Config.randomByte s.draws)).fetchWord Config.hardware = s.fetchWord Config.hardware := by
    simp [State.fetchWord]
  rw [step_of_running s h]
  refine cycle_of_canFetch _ (by simpa [State.canFetch] using hf) ?_
  rw [State.fetchedInstr, hw]
  exact ht

/-- The inversion of a STEP: everything it can do. -/
theorem step_cases {s t : State} (h : step s = .next t) :
    (s.halt = true ∧ t = s) ∨
    (s.halt = false ∧ s.canFetch = false ∧ t = s.begun.enterFault s.pc .fetchRange s.pc) ∨
    (s.halt = false ∧ s.canFetch = true ∧ ∃ u, exec s.fetchedInstr s.fetched = .next u ∧ t = u.endCycle) := by
  cases hh : s.halt with
  | true =>
    rw [step_of_halted s hh] at h
    exact .inl ⟨rfl, by injection h with h; exact h.symm⟩
  | false =>
    cases hf : s.canFetch with
    | false =>
      rw [step_of_cannotFetch s hh hf] at h
      exact .inr (.inl ⟨rfl, rfl, by injection h with h; exact h.symm⟩)
    | true =>
      obtain ⟨u, hu⟩ := exec_next s.fetched s.fetchedInstr
      rw [step_of_canFetch s hh hf hu] at h
      exact .inr (.inr ⟨rfl, rfl, u, hu, by injection h with h; exact h.symm⟩)

end Sys2Proof.Machine
end

