-- ==== Sys2Proof/Laws/Frames.lean ====
section
/-! SUPPORT. The frames of the shared operations, the operands as numbers, the fetched state written out, and which cells
a sprite reaches: what the statements' proofs cite. -/

namespace Sys2Proof.Machine

/-! ## What a shared operation changes -/

theorem onlyRegs_setV (s : State) (x : Reg) (b : Byte) : OnlyRegs [x] s (s.setV x b) :=
  ⟨rfl, fun r hr => by simp [show ¬ r = x by simpa using hr], fun _ => rfl⟩

theorem onlyRegs_resultThenFlag (s : State) (x y : Reg) (flag result : Byte → Byte → Byte) :
    OnlyRegs [x, 15] s (s.resultThenFlag x y flag result) := by
  refine ⟨rfl, fun r hr => ?_, fun _ => rfl⟩
  simp only [List.mem_cons, List.not_mem_nil, or_false, not_or] at hr
  rw [State.getV_resultThenFlag, if_neg hr.2, if_neg hr.1]

theorem onlyRegs_flagThenResult (s : State) (mode : AluAlias) (x y : Reg) (flag result : Byte → Byte → Byte) :
    OnlyRegs [x, 15] s (s.flagThenResult mode x y flag result) := by
  refine ⟨State.flagThenResult_eq .., fun r hr => ?_, fun a => by cases mode <;> rfl⟩
  simp only [List.mem_cons, List.not_mem_nil, or_false, not_or] at hr
  cases mode <;> simp [State.flagThenResult, hr]

/-- R173, REREAD: the result is computed over the operands as they stand after the flag write. -/
theorem State.getV_flagThenResult_reread (s : State) (x y r : Reg) (flag result : Byte → Byte → Byte) :
    (s.flagThenResult .reread x y flag result).getV r =
      if r = x then
        result (if x = Config.flagReg then flag (s.getV x) (s.getV y) else s.getV x)
          (if y = Config.flagReg then flag (s.getV x) (s.getV y) else s.getV y)
      else if r = Config.flagReg then flag (s.getV x) (s.getV y) else s.getV r := by
  simp [State.flagThenResult]

theorem onlyPc_setPc (s : State) (w : Word) : OnlyPc s (s.setPc w) := ⟨rfl, fun _ => rfl⟩

theorem onlyPc_skipIf (s : State) (c : Bool) : OnlyPc s (s.skipIf c) := by
  cases c <;> exact ⟨rfl, fun _ => rfl⟩

theorem onlyIndex_setIndex (s : State) (w : Word) : OnlyIndex s (s.setIndex w) := ⟨rfl, fun _ => rfl⟩

theorem faultsWith_raise (s : State) (c : Cause) (info : Nat) :
    FaultsWith c.code info s (s.raise c (BitVec.ofNat 16 info)) := rfl

/-! ## Operands as numbers -/

@[simp] theorem addrOperand_toNat (nnn : BitVec 12) : (addrOperand nnn).toNat = nnn.toNat := by
  have := nnn.isLt
  simp only [addrOperand, BitVec.toNat_setWidth]; omega

@[simp] theorem byteOperand_toNat (b : Byte) : (byteOperand b).toNat = b.toNat := by
  have := b.isLt
  simp only [byteOperand, BitVec.toNat_setWidth]; omega

theorem byteOperand_eq (b : Byte) : byteOperand b = BitVec.ofNat 16 b.toNat :=
  BitVec.eq_of_toNat_eq (by have := b.isLt; rw [byteOperand_toNat, BitVec.toNat_ofNat]; omega)

theorem tickDown_toNat (b : Byte) : (tickDown b).toNat = b.toNat - 1 := by
  have := b.isLt
  unfold tickDown
  split
  · next h => simp [h]
  · next h =>
    have : b.toNat ≠ 0 := fun h0 => h (BitVec.eq_of_toNat_eq h0)
    rw [BitVec.toNat_sub]; simp; omega

/-! ## The fetched state -/

theorem wordOfBytes_eq (hi lo : Byte) : wordOfBytes hi lo = BitVec.ofNat 16 (hi.toNat * 256 + lo.toNat) := by
  apply BitVec.eq_of_toNat_eq
  have := hi.isLt; have := lo.isLt
  rw [wordOfBytes, BitVec.toNat_append, ← Nat.shiftLeft_add_eq_or_of_lt lo.isLt, Nat.shiftLeft_eq, BitVec.toNat_ofNat]
  omega

theorem fetchWord_eq (s : State) : s.fetchWord Config.hardware = s.wordAt s.pc.toNat := wordOfBytes_eq _ _

theorem begun_eq (s : State) (h : s.halt = false) :
    s.begun = { s with keySample := s.keys, rnd := Config.randomByte s.draws, draws := s.draws + 1 } := by
  simp only [State.begun, State.sampleKeys, State.withDraw, State.countDraw, h]; rfl

theorem fetched_eq (s : State) (h : s.halt = false) :
    s.fetched = { s with keySample := s.keys, rnd := Config.randomByte s.draws, draws := s.draws + 1,
                         opcode := s.wordAt s.pc.toNat, pc := s.pc + 2#16 } := by
  rw [State.fetched, begun_eq s h, fetchWord_eq]; rfl

/-! ## Fault entry is the only way to halt -/

theorem State.checked_halts {s t u : State} {f : Option (Cause × Nat)} (hs : s.halt = false) (ht : t.halt = s.halt)
    (h : s.checked f t = .next u) (hu : u.halt = true) :
    ∃ c a, f = some (c, a) ∧ u = s.raise c (BitVec.ofNat 16 a) := by
  rcases State.checked_cases s t f with ⟨_, h2⟩ | ⟨c, a, hf, h2⟩ <;> rw [h2] at h <;> injection h with h <;> subst h
  · rw [ht, hs] at hu; cases hu
  · exact ⟨c, a, hf, rfl⟩

/-- If step 3 of a running core ends halted, it has entered a fault and done nothing else. -/
theorem exec_halts {i : Instr} {s t : State} (hs : s.halt = false) (h : exec i s = .next t) (ht : t.halt = true) :
    ∃ c info, t = s.raise c info := by
  cases i
  case ret =>
    rw [exec_ret] at h; injection h with h; subst h
    by_cases h0 : 0 < s.sp.val
    · rw [State.popJump_of_pos s h0] at ht; simp [hs] at ht
    · rw [State.popJump_of_zero s (by omega)]; exact ⟨_, _, rfl⟩
  case call nnn =>
    rw [exec_call] at h; injection h with h; subst h
    by_cases h0 : s.sp.val < 16
    · rw [State.pushJump_of_lt s _ h0] at ht; simp [hs] at ht
    · rw [State.pushJump_of_full s _ (by have := s.sp.isLt; omega)]; exact ⟨_, _, rfl⟩
  case skp x =>
    rw [exec_skp] at h; injection h with h; subst h
    by_cases h0 : (s.getV x).toNat < 16
    · rw [State.keySkip_of_lt s _ _ h0] at ht; simp [hs] at ht
    · rw [State.keySkip_of_ge s _ _ (by omega)]; exact ⟨_, _, rfl⟩
  case sknp x =>
    rw [exec_sknp] at h; injection h with h; subst h
    by_cases h0 : (s.getV x).toNat < 16
    · rw [State.keySkip_of_lt s _ _ h0] at ht; simp [hs] at ht
    · rw [State.keySkip_of_ge s _ _ (by omega)]; exact ⟨_, _, rfl⟩
  case ldVxK x =>
    cases hk : lowestKey s.keySample with
    | some k => rw [exec_ldVxK_some s x hk] at h; injection h with h; subst h; simp [hs] at ht
    | none => rw [exec_ldVxK_none s x hk] at h; injection h with h; subst h; simp [hs] at ht
  case drw x y n => obtain ⟨c, a, _, e⟩ := State.checked_halts hs (by simp) h ht; exact ⟨c, _, e⟩
  case ldBVx x => obtain ⟨c, a, _, e⟩ := State.checked_halts hs (by simp) h ht; exact ⟨c, _, e⟩
  case ldMiVx x => obtain ⟨c, a, _, e⟩ := State.checked_halts hs (by simp) h ht; exact ⟨c, _, e⟩
  case ldVxMi x => obtain ⟨c, a, _, e⟩ := State.checked_halts hs (by simp) h ht; exact ⟨c, _, e⟩
  case addVxVy x y => rw [exec_addVxVy, State.resultThenFlag_eq] at h; injection h with h; subst h; simp [hs] at ht
  case sub x y => rw [exec_sub, State.flagThenResult_eq] at h; injection h with h; subst h; simp [hs] at ht
  case subn x y => rw [exec_subn, State.flagThenResult_eq] at h; injection h with h; subst h; simp [hs] at ht
  case shr x => rw [exec_shr, State.flagThenResult_eq] at h; injection h with h; subst h; simp [hs] at ht
  case shl x => rw [exec_shl, State.flagThenResult_eq] at h; injection h with h; subst h; simp [hs] at ht
  all_goals (injection h with h; subst h; simp [hs] at ht)

/-! ## The cells of a sprite -/

/-- The pixels the loop of R201 draws, clipped, are the cells of `spriteClip`. -/
theorem mem_spriteCells_clip (s : State) (x y : Reg) (n : Fin 16) (r : Fin 32) (c : Fin 64) :
    (r, c) ∈ spriteCells .clip (originRow (s.getV y)) (originCol (s.getV x))
      (Memory.readBytes Config.hardware s.mem (memBase s) n.val) ↔ spriteClip s x y n r c = true := by
  rw [mem_spriteCells]
  simp only [pixelCell_clip_eq_some_iff, Memory.getElem_readBytes, spriteClip, Bool.and_eq_true, decide_eq_true_iff,
    originRow, originCol, Memory.readBytes_length]
  constructor
  · rintro ⟨k, hk, b, hb, hbit, hr, hc⟩
    have e1 : r.val - (s.getV y).toNat % 32 = k := by omega
    have e2 : c.val - (s.getV x).toNat % 64 = b := by omega
    refine ⟨by omega, ?_⟩
    simp only [e1, e2]; exact hbit
  · rintro ⟨h, hbit⟩
    exact ⟨_, by omega, c.val - (s.getV x).toNat % 64, by omega, hbit, by omega, by omega⟩

/-- The pixels the loop of R201 draws, wrapped, are the cells of `spriteWrap`. -/
theorem mem_spriteCells_wrap (cfg : Config) (s : State) (x y : Reg) (n : Fin 16) (r : Fin 32) (c : Fin 64) :
    (r, c) ∈ spriteCells .wrap (originRow (s.getV y)) (originCol (s.getV x))
      (Memory.readBytes cfg s.mem (memBase s) n.val) ↔ spriteWrap cfg s x y n r c = true := by
  rw [mem_spriteCells]
  simp only [pixelCell_wrap_eq_some_iff, Memory.getElem_readBytes, spriteWrap, Bool.and_eq_true, decide_eq_true_iff,
    originRow, originCol, Memory.readBytes_length]
  constructor
  · rintro ⟨k, hk, b, hb, hbit, hr, hc⟩
    have e1 : (r.val + 32 - (s.getV y).toNat % 32) % 32 = k := by omega
    have e2 : (c.val + 64 - (s.getV x).toNat % 64) % 64 = b := by omega
    simp only [e1, e2]; exact ⟨by omega, hbit⟩
  · rintro ⟨h, hbit⟩
    exact ⟨_, by omega, _, h.2, hbit, by omega, by omega⟩

end Sys2Proof.Machine
end

