-- ==== Sys2Proof/Laws/Params.lean ====
section
/-! SUPPORT. The machine under any parameters is, at this hardware's values, the machine itself. -/

namespace Sys2Proof.Machine

theorem execWith_hardware (i : Instr) (s : State) : execWith Config.hardware i s = exec i s := by
  cases i <;> rfl

theorem stepWith_hardware (s : State) : stepWith Config.hardware s = step s := by
  have : execWith Config.hardware = exec := funext fun i => funext fun s => execWith_hardware i s
  rw [stepWith, this, step]

end Sys2Proof.Machine
end

