-- ==== Sys2Proof/Laws/PerInstr.lean ====
section
/-! SUPPORT. The round trip of one instruction, constructor by constructor (30_encoding.md R82, R87, R90). -/

namespace Sys2Proof.Laws

/-- Under either setting of STRICT_DECODE, a well-formed instruction's word decodes to it. -/
def RoundTrip.Statement (i : Instr) : Prop :=
  ∀ strict : Bool, i.wellFormed strict = true → decodeWord strict (encode i) = i

namespace RoundTrip

theorem cls : Statement (.cls) := by
  intro strict _
  cases strict <;> decide

theorem ret : Statement (.ret) := by
  intro strict _
  cases strict <;> decide

theorem jp (nnn : BitVec 12) : Statement (.jp nnn) := by
  intro strict _
  simp [encode, decodeWord]

theorem call (nnn : BitVec 12) : Statement (.call nnn) := by
  intro strict _
  simp [encode, decodeWord]

theorem seVxKk (x : Reg) (kk : Byte) : Statement (.seVxKk x kk) := by
  intro strict _
  simp [encode, decodeWord]

theorem sneVxKk (x : Reg) (kk : Byte) : Statement (.sneVxKk x kk) := by
  intro strict _
  simp [encode, decodeWord]

theorem seVxVy (x : Reg) (y : Reg) : Statement (.seVxVy x y) := by
  intro strict _
  simp [encode, decodeWord, decodePair]

theorem ldVxKk (x : Reg) (kk : Byte) : Statement (.ldVxKk x kk) := by
  intro strict _
  simp [encode, decodeWord]

theorem addVxKk (x : Reg) (kk : Byte) : Statement (.addVxKk x kk) := by
  intro strict _
  simp [encode, decodeWord]

theorem ldVxVy (x : Reg) (y : Reg) : Statement (.ldVxVy x y) := by
  intro strict _
  simp [encode, decodeWord, decode8]

theorem or (x : Reg) (y : Reg) : Statement (.or x y) := by
  intro strict _
  simp [encode, decodeWord, decode8]

theorem and (x : Reg) (y : Reg) : Statement (.and x y) := by
  intro strict _
  simp [encode, decodeWord, decode8]

theorem xor (x : Reg) (y : Reg) : Statement (.xor x y) := by
  intro strict _
  simp [encode, decodeWord, decode8]

theorem addVxVy (x : Reg) (y : Reg) : Statement (.addVxVy x y) := by
  intro strict _
  simp [encode, decodeWord, decode8]

theorem sub (x : Reg) (y : Reg) : Statement (.sub x y) := by
  intro strict _
  simp [encode, decodeWord, decode8]

theorem shr (x : Reg) : Statement (.shr x) := by
  intro strict _
  simp [encode, decodeWord, decode8]

theorem subn (x : Reg) (y : Reg) : Statement (.subn x y) := by
  intro strict _
  simp [encode, decodeWord, decode8]

theorem shl (x : Reg) : Statement (.shl x) := by
  intro strict _
  simp [encode, decodeWord, decode8]

theorem sneVxVy (x : Reg) (y : Reg) : Statement (.sneVxVy x y) := by
  intro strict _
  simp [encode, decodeWord, decodePair]

theorem ldINnn (nnn : BitVec 12) : Statement (.ldINnn nnn) := by
  intro strict _
  simp [encode, decodeWord]

theorem jpV0 (nnn : BitVec 12) : Statement (.jpV0 nnn) := by
  intro strict _
  simp [encode, decodeWord]

theorem rnd (x : Reg) (kk : Byte) : Statement (.rnd x kk) := by
  intro strict _
  simp [encode, decodeWord]

theorem drw (x : Reg) (y : Reg) (n : Fin 16) : Statement (.drw x y n) := by
  intro strict _
  simp [encode, decodeWord]

theorem skp (x : Reg) : Statement (.skp x) := by
  intro strict _
  cases strict <;> simp [encode, decodeWord, decodeE]

theorem sknp (x : Reg) : Statement (.sknp x) := by
  intro strict _
  cases strict <;> simp [encode, decodeWord, decodeE]

theorem ldVxDt (x : Reg) : Statement (.ldVxDt x) := by
  intro strict _
  simp [encode, decodeWord, decodeF]

theorem ldVxK (x : Reg) : Statement (.ldVxK x) := by
  intro strict _
  simp [encode, decodeWord, decodeF]

theorem ldDtVx (x : Reg) : Statement (.ldDtVx x) := by
  intro strict _
  simp [encode, decodeWord, decodeF]

theorem ldStVx (x : Reg) : Statement (.ldStVx x) := by
  intro strict _
  simp [encode, decodeWord, decodeF]

theorem addIVx (x : Reg) : Statement (.addIVx x) := by
  intro strict _
  simp [encode, decodeWord, decodeF]

theorem ldFVx (x : Reg) : Statement (.ldFVx x) := by
  intro strict _
  simp [encode, decodeWord, decodeF]

theorem ldBVx (x : Reg) : Statement (.ldBVx x) := by
  intro strict _
  simp [encode, decodeWord, decodeF]

theorem ldMiVx (x : Reg) : Statement (.ldMiVx x) := by
  intro strict _
  simp [encode, decodeWord, decodeF]

theorem ldVxMi (x : Reg) : Statement (.ldVxMi x) := by
  intro strict _
  simp [encode, decodeWord, decodeF]

theorem null (op : Word) : Statement (.null op) := by
  intro strict h
  exact decodeWord_null op strict h

end RoundTrip

end Sys2Proof.Laws
end

