-- ==== Sys2Proof/Tests/Slice0.lean ====
section
/-! SUPPORT. Tests of the model: ill-formed terms refused, words written out from the encodings of 30_encoding.md, one
step per instruction with the result the vectors V-* of 95_test_vectors.md give, and a concrete state for the
hypotheses of every statement that has some. -/

namespace Sys2Proof.Tests

open Sys2Proof Sys2Proof.Machine

set_option Elab.async false

/-! ## WellFormed: the one check refuses a null operation whose word is an instruction (30_encoding.md R88) -/

theorem test_wellFormed_null_of_instruction : (Instr.null 0x6005).wellFormed false = false := by decide
theorem test_wellFormed_null_of_cls : (Instr.null 0x0000).wellFormed false = false := by decide
theorem test_wellFormed_null_of_strict_ret : (Instr.null 0x00EE).wellFormed true = false := by decide
theorem test_wellFormed_null_strict_only :
    (Instr.null 0x5121).wellFormed true = true ∧ (Instr.null 0x5121).wellFormed false = false := by decide
theorem test_wellFormed_null : (Instr.null 0x8008).wellFormed false = true ∧ (Instr.null 0xF0FF).wellFormed true = true := by
  decide

/-! ## Decode: words written out bit by bit from 30_encoding.md R82, R87 (tttt xxxx yyyy nnnn) -/

theorem test_decode_control :
    decodeTableWord 16 0b0000000011101110 = some .ret ∧ decodeTableWord 16 0b0001001000110100 = some (.jp 0x234) ∧
    decodeTableWord 16 0b0010001100000000 = some (.call 0x300) ∧ decodeTableWord 16 0b1011111111110001 = some (.jpV0 0xFF1) := by
  decide

theorem test_decode_skips :
    decodeTableWord 16 0b0011101000000101 = some (.seVxKk 10 5) ∧ decodeTableWord 16 0b0100000111111110 = some (.sneVxKk 1 0xFE) ∧
    decodeTableWord 16 0b0101000100100000 = some (.seVxVy 1 2) ∧ decodeTableWord 16 0b1001111000010000 = some (.sneVxVy 14 1) := by
  decide

theorem test_decode_loads :
    decodeTableWord 16 0b0110101001000010 = some (.ldVxKk 10 0x42) ∧ decodeTableWord 16 0b0111000111111111 = some (.addVxKk 1 0xFF) ∧
    decodeTableWord 16 0b1000000100100000 = some (.ldVxVy 1 2) ∧ decodeTableWord 16 0b1100001100001111 = some (.rnd 3 0x0F) := by
  decide

theorem test_decode_logic :
    decodeTableWord 16 0b1000000100100001 = some (.or 1 2) ∧ decodeTableWord 16 0b1000000100100010 = some (.and 1 2) ∧
    decodeTableWord 16 0b1000000100010011 = some (.xor 1 1) := by decide

theorem test_decode_arithmetic :
    decodeTableWord 16 0b1000111100010100 = some (.addVxVy 15 1) ∧ decodeTableWord 16 0b1000000011110101 = some (.sub 0 15) ∧
    decodeTableWord 16 0b1000000100100110 = some (.shr 1) ∧ decodeTableWord 16 0b1000000000010111 = some (.subn 0 1) ∧
    decodeTableWord 16 0b1000000100101110 = some (.shl 1) := by decide

theorem test_decode_display :
    decodeTableWord 16 0b0000000011100000 = some .cls ∧ decodeTableWord 16 0b0000000000000000 = some .cls ∧
    decodeTableWord 16 0b1101000100101111 = some (.drw 1 2 15) := by decide

theorem test_decode_keypad_timers :
    decodeTableWord 16 0b1110010110011110 = some (.skp 5) ∧ decodeTableWord 16 0b1110010110100001 = some (.sknp 5) ∧
    decodeTableWord 16 0b1111001100000111 = some (.ldVxDt 3) ∧ decodeTableWord 16 0b1111001000001010 = some (.ldVxK 2) ∧
    decodeTableWord 16 0b1111010000010101 = some (.ldDtVx 4) ∧ decodeTableWord 16 0b1111010000011000 = some (.ldStVx 4) := by
  decide

theorem test_decode_index_memory :
    decodeTableWord 16 0b1010000100100011 = some (.ldINnn 0x123) ∧ decodeTableWord 16 0b1111001000011110 = some (.addIVx 2) ∧
    decodeTableWord 16 0b1111000100101001 = some (.ldFVx 1) ∧ decodeTableWord 16 0b1111000000110011 = some (.ldBVx 0) ∧
    decodeTableWord 16 0b1111001001010101 = some (.ldMiVx 2) ∧ decodeTableWord 16 0b1111111101100101 = some (.ldVxMi 15) := by
  decide

theorem test_decode_null :
    decodeTableWord 16 0x8008 = some (.null 0x8008) ∧ decodeTableWord 16 0x0123 = some (.null 0x0123) ∧
    decodeTableWord 16 0xE000 = some (.null 0xE000) ∧ decodeTableWord 16 0xF0FF = some (.null 0xF0FF) := by decide

/-- 30_encoding.md R86, R88, STRICT_DECODE = true. -/
theorem test_decode_strict :
    decodeWord true 0x0000 = .null 0x0000 ∧ decodeWord true 0x00E0 = .cls ∧ decodeWord true 0x012E = .null 0x012E ∧
    decodeWord true 0x5121 = .null 0x5121 ∧ decodeWord true 0xE0AE = .null 0xE0AE ∧ decodeWord true 0xE59E = .skp 5 := by
  decide

/-- Too few bytes are no instruction (30_encoding.md R80; log 25). -/
theorem test_decode_truncated : decode false [0x60] = .error .truncated := by rfl

/-- Lines of the programs P2, P3 of 95_test_vectors.md. -/
theorem test_assemblerText :
    (decodeWord false 0x6A03).assemblerText = "LD VA, 03" ∧ (decodeWord false 0x220C).assemblerText = "CALL 20C" ∧
    (decodeWord false 0x8AC5).assemblerText = "SUB VA, VC" := by decide +kernel

/-! ## One step per instruction -/

/-- The word at the pc, one step under the parameters, a test of the state it leaves. -/
def runsTo (cfg : Config) (s : State) (w : Nat) (p : State → Bool) : Bool :=
  match stepWith cfg (s.withFetchWord 16 w) with
  | .next t => p t
  | .fault _ | .refused _ => false

/-- The same on this hardware. -/
def after (s : State) (w : Nat) (p : State → Bool) : Bool :=
  match step (s.withFetchWord 16 w) with
  | .next t => p t
  | .fault _ | .refused _ => false

/-- The reset state with one, with two registers set. -/
def one (x : Reg) (a : Byte) : State := State.reset.setV x a
def two (x : Reg) (a : Byte) (y : Reg) (b : Byte) : State := (one x a).setV y b

/-- Some bytes in memory. -/
def poke (s : State) (a : Nat) (bytes : List Byte) : State :=
  s.setMem (Memory.writeBytes Config.hardware s.mem a bytes)

/-- Fault entry at 0x200. -/
def faulted (code : BitVec 4) (info : Word) (t : State) : Bool :=
  t.halt && t.fcause == code && t.fpc == 0x200#16 && t.finfo == info && t.pc == 0x200#16

/-- V-CF-1. -/
theorem test_jp : after State.reset 0x1234 (fun t => t.pc == 0x234#16) = true := by decide +kernel
/-- V-CF-3. -/
theorem test_call : after (State.reset.setPc 0x204) 0x2300
    (fun t => t.pc == 0x300#16 && t.sp == 1 && t.stack[0] == 0x206#16) = true := by decide +kernel
/-- V-CF-18. -/
theorem test_call_overflow : after { State.reset with sp := 16 } 0x2400 (faulted 2 16) = true := by decide +kernel
/-- V-CF-4. -/
theorem test_ret : after { State.reset with sp := 1, stack := State.reset.stack.set 0 0x206#16, pc := 0x30C#16 } 0x00EE
    (fun t => t.pc == 0x206#16 && t.sp == 0 && t.stack[0] == 0x206#16) = true := by decide +kernel
/-- V-CF-17. -/
theorem test_ret_underflow : after State.reset 0x00EE (faulted 3 0) = true := by decide +kernel
/-- V-CF-5, V-CF-6. -/
theorem test_seVxKk : after (one 0 5) 0x3005 (fun t => t.pc == 0x204#16) = true ∧
    after (one 0 6) 0x3005 (fun t => t.pc == 0x202#16) = true := by decide +kernel
/-- V-CF-7, V-CF-8. -/
theorem test_sneVxKk : after (one 0 5) 0x4005 (fun t => t.pc == 0x202#16) = true ∧
    after (one 0 6) 0x4005 (fun t => t.pc == 0x204#16) = true := by decide +kernel
/-- V-CF-10, V-CF-11. -/
theorem test_seVxVy : after (two 1 7 2 8) 0x5120 (fun t => t.pc == 0x202#16) = true ∧
    after (two 1 7 2 7) 0x5121 (fun t => t.pc == 0x204#16) = true := by decide +kernel
/-- V-CF-13, V-CF-14. -/
theorem test_sneVxVy : after (two 1 7 2 8) 0x9120 (fun t => t.pc == 0x204#16) = true ∧
    after (two 1 7 2 7) 0x9120 (fun t => t.pc == 0x202#16) = true := by decide +kernel
/-- V-CF-16. -/
theorem test_jpV0_no_mask : after (one 0 0xFF) 0xBFFF (fun t => t.pc == 0x10FE#16) = true := by decide +kernel
/-- V-ALU-1. -/
theorem test_ldVxKk : after State.reset 0x6A42 (fun t => t.getV 10 == 0x42#8 && t.pc == 0x202#16) = true := by
  decide +kernel
/-- V-ALU-2. -/
theorem test_addVxKk : after (two 1 2 15 0x55) 0x71FF (fun t => t.getV 1 == 1#8 && t.getV 15 == 0x55#8) = true := by
  decide +kernel
/-- V-ALU-3. -/
theorem test_ldVxVy : after (one 2 0x9C) 0x8120 (fun t => t.getV 1 == 0x9C#8) = true := by decide +kernel
/-- V-ALU-4 (without the VF column: two registers suffice). -/
theorem test_or : after (two 1 0xF0 2 0x0F) 0x8121 (fun t => t.getV 1 == 0xFF#8 && t.getV 15 == 0#8) = true := by
  decide +kernel
/-- V-ALU-5. -/
theorem test_and : after (two 1 0xF0 2 0x3C) 0x8122 (fun t => t.getV 1 == 0x30#8) = true := by decide +kernel
/-- V-ALU-6. -/
theorem test_xor : after (one 1 0xAB) 0x8113 (fun t => t.getV 1 == 0#8) = true := by decide +kernel
/-- V-RND-1, and H7 for the byte of the transaction. -/
theorem test_rnd : (match transact (.step 0xA7) (State.reset.withFetchWord 16 0xC30F) with
    | .next t => t.getV 3 == 0x07#8
    | .fault _ | .refused _ => false) = true := by decide +kernel
/-- V-ADD-2. -/
theorem test_addVxVy : after (two 0 0xFF 1 1) 0x8014 (fun t => t.getV 0 == 0#8 && t.getV 15 == 1#8) = true := by
  decide +kernel
/-- V-ADD-4: the carry is written last. -/
theorem test_addVxVy_flag_last : after (two 15 0x80 1 0x90) 0x8F14 (fun t => t.getV 15 == 1#8) = true := by decide +kernel
/-- V-SUB-3, V-SUB-6. -/
theorem test_sub : after (two 0 7 1 7) 0x8015 (fun t => t.getV 0 == 0#8 && t.getV 15 == 0#8) = true ∧
    after (two 0 5 15 3) 0x80F5 (fun t => t.getV 0 == 2#8 && t.getV 15 == 1#8) = true := by decide +kernel
/-- V-SUB-5, V-SUB-7. -/
theorem test_sub_reread : runsTo { Config.hardware with aluAlias := .reread } (two 15 5 1 3) 0x8F15
      (fun t => t.getV 15 == 0xFE#8) = true ∧
    runsTo { Config.hardware with aluAlias := .reread } (two 0 5 15 3) 0x80F5
      (fun t => t.getV 0 == 4#8 && t.getV 15 == 1#8) = true := by decide +kernel
/-- V-SUBN-1, V-SUBN-2. -/
theorem test_subn : after (two 0 3 1 5) 0x8017 (fun t => t.getV 0 == 2#8 && t.getV 15 == 1#8) = true ∧
    after (two 0 5 1 3) 0x8017 (fun t => t.getV 0 == 0xFE#8 && t.getV 15 == 0#8) = true := by decide +kernel
/-- V-SHR-3, V-SHR-4. -/
theorem test_shr : after (two 1 3 2 0xFF) 0x8126 (fun t => t.getV 1 == 1#8 && t.getV 2 == 0xFF#8 && t.getV 15 == 1#8) = true ∧
    after (one 15 3) 0x8F06 (fun t => t.getV 15 == 1#8) = true := by decide +kernel
/-- V-SHL-1, V-SHL-3. -/
theorem test_shl : after (one 0 0x81) 0x800E (fun t => t.getV 0 == 2#8 && t.getV 15 == 1#8) = true ∧
    after (one 15 0x83) 0x8F0E (fun t => t.getV 15 == 6#8) = true := by decide +kernel
/-- V-CLS-2. -/
theorem test_cls : after (State.reset.setFb (State.reset.fb.toggle 1 1)) 0x0000
    (fun t => t.fb.cell 1 1 == false && t.fb.cell 0 0 == false && t.pc == 0x202#16) = true := by decide +kernel
/-- V-DRW-4: the origin is wrapped, the collision is seen. -/
theorem test_drw : after ((poke ((two 1 0x43 2 0x21).setIndex 0x300) 0x300 [0x81]).setFb (State.reset.fb.toggle 1 3))
    0xD121 (fun t => t.getV 15 == 1#8 && t.fb.cell 1 3 == false && t.fb.cell 1 10 && t.fb.cell 1 4 == false) = true := by decide +kernel
/-- V-DRW-2, V-DRW-3: clipped, wrapped. -/
theorem test_drw_edge :
    after (poke ((one 1 0x3F).setIndex 0x300) 0x300 [0xC0]) 0xD121 (fun t => t.fb.cell 0 63 && t.fb.cell 0 0 == false) = true ∧
    runsTo { Config.hardware with spriteEdge := .wrap } (poke ((one 1 0x3F).setIndex 0x300) 0x300 [0xC0]) 0xD121
      (fun t => t.fb.cell 0 63 && t.fb.cell 0 0) = true := by decide +kernel
/-- V-DRW-7. -/
theorem test_drw_range : after (State.reset.setIndex 0xFFF) 0xD012 (faulted 4 0x1000) = true := by decide +kernel
/-- V-KEY-1, V-KEY-2. -/
theorem test_skp : after ((one 5 12).keySet 12 true) 0xE59E (fun t => t.pc == 0x204#16) = true ∧
    after (one 5 12) 0xE59E (fun t => t.pc == 0x202#16) = true := by decide +kernel
/-- V-KEY-3, V-KEY-4. -/
theorem test_sknp : after (one 5 12) 0xE5A1 (fun t => t.pc == 0x204#16) = true ∧
    after ((one 5 12).keySet 12 true) 0xE5A1 (fun t => t.pc == 0x202#16) = true := by decide +kernel
/-- V-KEY-5. -/
theorem test_skp_range : after (one 5 16) 0xE59E (faulted 7 16) = true := by decide +kernel
/-- V-TMR-1. -/
theorem test_ldVxDt : after (State.reset.setDt 16) 0xF307 (fun t => t.getV 3 == 16#8 && t.dt == 15#8) = true := by
  decide +kernel
/-- V-TMR-3. -/
theorem test_ldDtVx : after (one 4 0x20) 0xF415 (fun t => t.dt == 31#8) = true := by decide +kernel
/-- V-TMR-5. -/
theorem test_ldStVx : after (one 4 1) 0xF418 (fun t => t.st == 0#8 && t.tone == false) = true := by decide +kernel
/-- V-WAIT-1, V-WAIT-2. -/
theorem test_ldVxK : after (State.reset.setPc 0x206) 0xF20A (fun t => t.pc == 0x206#16) = true ∧
    after ((State.reset.keySet 3 true).keySet 7 true) 0xF20A (fun t => t.getV 2 == 3#8 && t.pc == 0x202#16) = true := by
  decide +kernel
/-- V-IDX-1. -/
theorem test_ldINnn : after State.reset 0xA123 (fun t => t.index == 0x123#16) = true := by decide +kernel
/-- V-IDX-3. -/
theorem test_addIVx : after ((two 2 1 15 9).setIndex 0xFFFF) 0xF21E (fun t => t.index == 0#16 && t.getV 15 == 9#8) = true := by
  decide +kernel
/-- V-IDX-4, V-IDX-6. -/
theorem test_ldFVx : after (one 1 10) 0xF129 (fun t => t.index == 0x082#16) = true ∧
    after (one 1 0xFF) 0xF129 (fun t => t.index == 0x54B#16) = true := by decide +kernel
/-- V-BCD-1. -/
theorem test_ldBVx : after ((one 0 0xFE).setIndex 0x300) 0xF033 (fun t => t.byte 0x300 == 2#8 && t.byte 0x301 == 5#8 &&
    t.byte 0x302 == 4#8 && t.index == 0x300#16) = true := by decide +kernel
/-- V-BCD-4, V-BCD-5. -/
theorem test_ldBVx_faults : after ((one 0 0x7B).setIndex 0xFFE) 0xF033 (faulted 5 0x1000) = true ∧
    after ((one 0 0x7B).setIndex 0x1FF) 0xF033 (faulted 6 0x1FF) = true := by decide +kernel
/-- V-DUMP-1. -/
theorem test_ldMiVx : after (((two 0 1 1 2).setV 2 3).setIndex 0x400) 0xF255 (fun t => t.byte 0x400 == 1#8 &&
    t.byte 0x401 == 2#8 && t.byte 0x402 == 3#8 && t.byte 0x403 == 0#8) = true := by decide +kernel
/-- V-DUMP-3. -/
theorem test_ldMiVx_exclusive : runsTo { Config.hardware with dumpInclusive := false } ((one 0 0xAA).setIndex 0x400) 0xF055
    (fun t => t.byte 0x400 == 0#8 && t.pc == 0x202#16) = true := by decide +kernel
/-- V-LOAD-5: the font is read. -/
theorem test_ldVxMi : after (State.reset.setIndex 0x050) 0xF465 (fun t => t.getV 0 == 0xF0#8 && t.getV 1 == 0x90#8 &&
    t.getV 4 == 0xF0#8 && t.getV 5 == 0#8) = true := by decide +kernel
/-- V-LOAD-4. -/
theorem test_ldVxMi_range : after (State.reset.setIndex 0xFFF) 0xF165 (faulted 4 0x1000) = true := by decide +kernel
/-- V-DEC-1. -/
theorem test_null : after (two 0 1 15 2) 0x8008
    (fun t => t.pc == 0x202#16 && t.getV 0 == 1#8 && t.getV 15 == 2#8 && t.opcode == 0x8008#16) = true := by decide +kernel
/-- V-FET-1. -/
theorem test_fetch_range : (match step (State.reset.setPc 0xFFF) with
    | .next t => t.halt && t.fcause == 1#4 && t.fpc == 0xFFF#16 && t.finfo == 0xFFF#16 && t.opcode == 0#16
    | .fault _ | .refused _ => false) = true := by decide +kernel
/-- H2. -/
theorem test_load_refused : transact (.load (List.replicate 3585 0x12)) State.reset = .refused .loadTooLong := by
  simp only [transact, State.load, List.length_replicate]
  exact if_pos (by decide)

/-! ## Witnesses: states and operands that meet the hypotheses of the statements that have some -/

/-- The state a step, an instruction, a transaction leaves. -/
def next (o : Host.Outcome State Fault Refusal) : State :=
  match o with
  | .next t => t
  | .fault _ | .refused _ => State.reset

/-- The reset state with a word where it fetches. -/
def at200 (w : Nat) : State := State.reset.withFetchWord 16 w

/-- The state as step 3 finds it. -/
def atStep3 (s : State) (b : Byte) (draws : Nat) : State :=
  { s with keySample := s.keys, rnd := b, draws := draws, opcode := s.wordAt s.pc.toNat, pc := s.pc + 2#16 }

/-- The reset state with I set. -/
def idx (a : Nat) : State := State.reset.setIndex (BitVec.ofNat 16 a)

theorem wit_DecodeEncodeRoundTrip : (Instr.drw 15 15 15).wellFormed true = true ∧ (Instr.null 0x8008).wellFormed false = true := by
  decide
theorem wit_DecodeAgreesWithOpcodeMap :
    OpRow.same 0xF0FF 0xF065 ∈ opRows ∧ (OpRow.same 0xF0FF 0xF065).hits false 0xFF65 = true ∧
    (OpRow.same 0xF0FF 0xF065).hits true 0xFF66 = false := by decide
theorem wit_StrictDecodeOnlyRemovesWords :
    decodeWord true 0x00E0 ≠ .null 0x00E0 ∧ decodeWord false 0x8008 = .null 0x8008 := by decide
theorem wit_StepRunsTheDecodedInstruction : (at200 0x6005).runs (.ldVxKk 0 5) ∧
    exec (.ldVxKk 0 5) (atStep3 (at200 0x6005) (Config.randomByte 0) 1) =
      .next (next (exec (.ldVxKk 0 5) (atStep3 (at200 0x6005) (Config.randomByte 0) 1))) ∧
    exec (.ldVxKk 0 5) (atStep3 (at200 0x6005) 0x5A 0) = .next (next (exec (.ldVxKk 0 5) (atStep3 (at200 0x6005) 0x5A 0))) :=
  ⟨⟨rfl, by decide, by decide +kernel⟩, rfl, rfl⟩
theorem wit_StepRunsTheDecodedInstruction_last_fetch : ((State.reset.setPc 0xFFE).withFetchWord 16 0xFF65).runs (.ldVxMi 15) :=
  ⟨rfl, by decide, by decide +kernel⟩
theorem wit_HaltedStepChangesNothing : (next (step (at200 0x00EE))).halt = true := by decide +kernel
theorem wit_FetchOutOfRangeFaults : (State.reset.setPc 0xFFF).halt = false ∧ 0xFFF ≤ (State.reset.setPc 0xFFF).pc.toNat := by
  decide
theorem wit_FaultsArePrecise : (at200 0x00EE).halt = false ∧ step (at200 0x00EE) = .next (next (step (at200 0x00EE))) ∧
    (next (step (at200 0x00EE))).halt = true ∧ (at200 0x00EE).pc.toNat + 1 ≤ 0xFFF := ⟨rfl, rfl, by decide +kernel, by decide⟩
theorem wit_FaultsArePrecise_fetch : (State.reset.setPc 0x1000).halt = false ∧
    step (State.reset.setPc 0x1000) = .next (next (step (State.reset.setPc 0x1000))) ∧
    (next (step (State.reset.setPc 0x1000))).halt = true ∧ 0xFFF ≤ (State.reset.setPc 0x1000).pc.toNat :=
  ⟨rfl, rfl, by decide +kernel, by decide⟩
theorem wit_FaultCausesAreThoseOfTheTable_stack :
    (next (exec (.call 0x300) { State.reset with sp := 16 })).halt = true ∧ (next (exec .ret State.reset)).halt = true := by
  decide +kernel
theorem wit_FaultCausesAreThoseOfTheTable_reads :
    (next (exec (.drw 0 1 1) (idx 0x1000))).halt = true ∧ (next (exec (.drw 0 1 2) (idx 0xFFF))).halt = true ∧
    (next (exec (.ldVxMi 0) (idx 0x1000))).halt = true ∧ (next (exec (.ldVxMi 15) (idx 0xFF1))).halt = true := by
  decide +kernel
theorem wit_FaultCausesAreThoseOfTheTable_writes :
    (next (exec (.ldBVx 0) (idx 0xFFE))).halt = true ∧ (next (exec (.ldMiVx 0) (idx 0x1000))).halt = true ∧
    (next (exec (.ldBVx 0) (idx 0x1FF))).halt = true ∧ (next (exec (.ldMiVx 15) (idx 0))).halt = true := by decide +kernel
theorem wit_FaultCausesAreThoseOfTheTable_keys :
    (next (exec (.skp 5) (one 5 16))).halt = true ∧ (next (exec (.sknp 5) (one 5 255))).halt = true := by decide +kernel
theorem wit_EveryStepCompletes : (List.replicate 3584 (0x12#8)).length ≤ 3584 := by rw [List.length_replicate]
theorem wit_Encodes_loads : (0x6AFF : Word) &&& 0xF000 = 0x6000 ∧ (0x71FF : Word) &&& 0xF000 = 0x7000 := by decide
theorem wit_Encodes_logic : (0x81F0 : Word) &&& 0xF00F = 0x8000 ∧ (0x81F1 : Word) &&& 0xF00F = 0x8001 ∧
    (0x81F2 : Word) &&& 0xF00F = 0x8002 ∧ (0x81F3 : Word) &&& 0xF00F = 0x8003 := by decide
theorem wit_Encodes_jumps_skips : (0x1FFF : Word) &&& 0xF000 = 0x1000 ∧ (0x3F00 : Word) &&& 0xF000 = 0x3000 ∧
    (0x4F00 : Word) &&& 0xF000 = 0x4000 ∧ (0x5121 : Word) &&& 0xF000 = 0x5000 ∧ (0x9121 : Word) &&& 0xF000 = 0x9000 ∧
    (0x5120 : Word) &&& 0xF00F = 0x5000 ∧ (0x9120 : Word) &&& 0xF00F = 0x9000 := by decide
theorem wit_Encodes_shifts_keys : (0x8126 : Word) &&& 0xF00F = 0x8006 ∧ (0x812E : Word) &&& 0xF00F = 0x800E ∧
    (0xE5AE : Word) &&& 0xF00F = 0xE00E ∧ (0xE551 : Word) &&& 0xF00F = 0xE001 ∧ (0xE59E : Word) &&& 0xF0FF = 0xE09E ∧
    (0xE5A1 : Word) &&& 0xF0FF = 0xE0A1 := by decide
theorem wit_Encodes_rest : (0x0FF0 : Word) &&& 0xF00F = 0x0000 ∧ (0xF20A : Word) &&& 0xF0FF = 0xF00A ∧
    (0xFF1E : Word) &&& 0xF0FF = 0xF01E := by decide
/-- A register other than VF, with the flag 1 and with the flag 0 (the statements on ADD, SUB, SUBN, SHR, SHL). -/
theorem wit_flags : (0 : Reg) ≠ 15 ∧ (14 : Reg) ≠ 15 ∧ ((two 0 0xFF 1 1).getV 0).toNat + ((two 0 0xFF 1 1).getV 1).toNat > 255 ∧
    ¬ ((two 0 0xFE 1 1).getV 0).toNat + ((two 0 0xFE 1 1).getV 1).toNat > 255 := by decide
theorem wit_RereadAliasing : ({ Config.hardware with aluAlias := .reread } : Config).aluAlias = .reread ∧ (1 : Reg) ≠ 15 := by
  decide
theorem wit_AliasSettingsDifferOnlyAtVF :
    (∀ x y, Instr.sub 0 1 = .sub x y ∨ Instr.sub 0 1 = .subn x y → x ≠ 15 ∧ y ≠ 15) ∧
    (∀ x, Instr.shr 14 = .shr x ∨ Instr.shr 14 = .shl x → x ≠ 15) := by
  refine ⟨fun x y h => ?_, fun x h => ?_⟩
  · rcases h with h | h <;> cases h; decide
  · rcases h with h | h <;> cases h; decide
theorem wit_RandomAndMaskUsesTheDraw : (0x00 : Byte) = 0x00#8 ∧ (0xFF : Byte) = 0xFF#8 := by decide
theorem wit_InputsReachOnlyTheirReaders : (∀ x kk, Instr.cls ≠ .rnd x kk) ∧
    (∀ x, Instr.cls ≠ .skp x ∧ Instr.cls ≠ .sknp x ∧ Instr.cls ≠ .ldVxK x) :=
  ⟨by simp, by simp⟩
theorem wit_CallPushesTheReturnAddress : State.reset.sp.val < 16 ∧ ({ State.reset with sp := 15 } : State).sp.val < 16 := by
  decide
theorem wit_ReturnPopsTheStack : 0 < ({ State.reset with sp := 1 } : State).sp.val ∧
    0 < ({ State.reset with sp := 16 } : State).sp.val := by decide
theorem wit_StackAndKeyBoundsFault : ({ State.reset with sp := 16 } : State).sp.val = 16 ∧ State.reset.sp.val = 0 ∧
    15 < ((one 5 16).getV 5).toNat := by decide
theorem wit_CallThenReturnComesBack : (poke State.reset 0x200 [0x22, 0x06, 0, 0, 0, 0, 0x00, 0xEE]).runs (.call 0x206) ∧
    decodeWord Config.hardware.strictDecode ((poke State.reset 0x200 [0x22, 0x06, 0, 0, 0, 0, 0x00, 0xEE]).wordAt 0x206) = .ret :=
  ⟨⟨rfl, by decide, by decide +kernel⟩, by decide +kernel⟩
theorem wit_DrawTogglesExactlyTheSpriteCells : (0 : Fin 16).val = 0 ∧ memBase (idx 0xFF1) + (15 : Fin 16).val ≤ 0x1000 ∧
    memBase (idx 0xFFF) + (1 : Fin 16).val ≤ 0x1000 := by decide
theorem wit_DrawTwiceRestoresTheScreen : memBase (idx 0x050) + (5 : Fin 16).val ≤ 0x1000 ∧
    exec (.drw 1 2 5) (idx 0x050) = .next (next (exec (.drw 1 2 5) (idx 0x050))) ∧
    (next (exec (.drw 1 2 5) (idx 0x050))).index = (idx 0x050).index ∧ (next (exec (.drw 1 2 5) (idx 0x050))).mem = [] ∧
    (next (exec (.drw 1 2 5) (idx 0x050))).getV 1 = (idx 0x050).getV 1 ∧
    (next (exec (.drw 1 2 5) (idx 0x050))).getV 2 = (idx 0x050).getV 2 := ⟨by decide, rfl, rfl, rfl, rfl, rfl⟩
theorem wit_WrapEdgeDrawsModuloTheScreen : ({ Config.hardware with spriteEdge := .wrap } : Config).spriteEdge = .wrap ∧
    memBase (idx 0x050) + (5 : Fin 16).val ≤ 0x1000 ∧ ∀ x y n, Instr.cls ≠ .drw x y n := ⟨rfl, by decide, by simp⟩
theorem wit_ReadsPastMemoryFault : 0 < (1 : Fin 16).val ∧ 0x1000 < memBase (idx 0x1000) + (1 : Fin 16).val ∧
    0x1000 < memBase (idx 0xFFF) + (1 : Reg).val + 1 := by decide
theorem wit_KeySkipsReadTheSample : ((one 5 15).getV 5).toNat = (15 : Reg).val ∧ ((one 5 0).getV 5).toNat = (0 : Reg).val := by
  decide
theorem wit_WaitForKeyTakesTheLowestKey :
    (((State.reset.keySet 3 true).keySet 7 true).sampleKeys.keySample[(3 : Fin 16)] = true ∧
      ∀ j : Fin 16, j < 3 → ((State.reset.keySet 3 true).keySet 7 true).sampleKeys.keySample[j] = false) ∧
    ∀ k : Fin 16, State.reset.keySample[k] = false := by decide
theorem wit_TimerWrittenIsTickedInTheSameCycle : (at200 0xF415).runs (.ldDtVx 4) ∧ (at200 0xF418).runs (.ldStVx 4) ∧
    (at200 0xF307).runs (.ldVxDt 3) :=
  ⟨⟨rfl, by decide, by decide +kernel⟩, ⟨rfl, by decide, by decide +kernel⟩, ⟨rfl, by decide, by decide +kernel⟩⟩
theorem wit_TimersTickOncePerCompletedCycle : (at200 0x6005).halt = false ∧
    step (at200 0x6005) = .next (next (step (at200 0x6005))) ∧ (next (step (at200 0x6005))).halt = false ∧
    (∀ x, ¬ (at200 0x6005).runs (.ldDtVx x)) ∧ (∀ x, ¬ (at200 0x6005).runs (.ldStVx x)) := by
  have h : decodeWord Config.hardware.strictDecode ((at200 0x6005).wordAt (at200 0x6005).pc.toNat) = .ldVxKk 0 5 := by
    decide +kernel
  exact ⟨rfl, rfl, by decide +kernel, fun x hx => (by rw [hx.2.2] at h; cases h), fun x hx => (by rw [hx.2.2] at h; cases h)⟩
theorem wit_StoreBcdWritesThreeDigits : 0x200 ≤ memBase (idx 0x200) ∧ memBase (idx 0x200) + 3 ≤ 0x1000 ∧
    memBase (idx 0xFFD) + 3 ≤ 0x1000 := by decide
theorem wit_RegisterDumpWritesMemory : 0x200 ≤ memBase (idx 0xFF0) ∧ memBase (idx 0xFF0) + (15 : Reg).val + 1 ≤ 0x1000 ∧
    memBase (idx 0x200) + (0 : Reg).val + 1 ≤ 0x1000 := by decide
theorem wit_RegisterLoadReadsMemory : memBase (idx 0xFF0) + (15 : Reg).val + 1 ≤ 0x1000 ∧
    memBase (idx 0xFFF) + (0 : Reg).val + 1 ≤ 0x1000 := by decide
theorem wit_StoresOutsideProgramRegionFault : memBase (idx 0x1FF) < 0x200 ∧ 0x1000 < memBase (idx 0xFFE) + 3 ∧
    0x1000 < memBase (idx 0xFF1) + ((15 : Reg).val + 1) := by decide
/-- Dump and load: k = 0, the last 16 bytes, below 0x200 without PROTECT_LOW. -/
theorem wit_TransferParametersChangeTheirRuleOnly :
    0 = (if ({ Config.hardware with dumpInclusive := false } : Config).dumpInclusive = true then (0 : Reg).val + 1 else (0 : Reg).val) ∧
    16 = (if Config.hardware.dumpInclusive = true then (15 : Reg).val + 1 else (15 : Reg).val) ∧
    memBase (idx 0xFF0) + 16 ≤ 0x1000 ∧ (Config.hardware.protectLow = true → 0x200 ≤ memBase (idx 0xFF0)) ∧
    (({ Config.hardware with protectLow := false } : Config).protectLow = true → 0x200 ≤ memBase (idx 0)) := by decide
theorem wit_TransferParametersChangeTheirRuleOnly_store : memBase (idx 0x1FF) + 3 ≤ 0x1000 ∧
    (({ Config.hardware with protectLow := false } : Config).protectLow = true → 0x200 ≤ memBase (idx 0x1FF)) ∧
    memBase (idx 0xFFD) + 3 ≤ 0x1000 ∧ (Config.hardware.protectLow = true → 0x200 ≤ memBase (idx 0xFFD)) := by decide
theorem wit_TransferParametersChangeTheirRuleOnly_others : (∀ x, Instr.ldBVx 0 ≠ .ldMiVx x ∧ Instr.ldBVx 0 ≠ .ldVxMi x) ∧
    ∀ x, Instr.ldVxMi 0 ≠ .ldBVx x ∧ Instr.ldVxMi 0 ≠ .ldMiVx x := ⟨by simp, by simp⟩
theorem wit_ParametersReachOnlyTheirInstructions : (Instr.addVxVy 0 1).takesParameter = false ∧
    decodeWord true ((at200 0x00E0).fetchWord Config.hardware) =
      decodeWord Config.hardware.strictDecode ((at200 0x00E0).fetchWord Config.hardware) := by decide +kernel
theorem wit_NullOperationDoesNothing : (at200 0x8008).runs (.null 0x8008) := ⟨rfl, by decide, by decide +kernel⟩
theorem wit_RegisterTables : (Instr.addVxVy 0 1).writesV 1 = false ∧ (Instr.addVxVy 0 1).readsV 15 = false ∧
    exec (.addVxVy 0 1) State.reset = .next (next (exec (.addVxVy 0 1) State.reset)) := ⟨by decide, by decide, rfl⟩
theorem wit_EveryPieceOfStateHasItsNamedWriters : exec .cls State.reset = .next (next (exec .cls State.reset)) := rfl
theorem wit_LoadWritesTheProgramVerbatim : ([0x60, 0x05] : List Byte).length ≤ 3584 ∧
    3584 < (List.replicate 3585 (0x12#8)).length := ⟨by decide, by rw [List.length_replicate]; decide⟩
/-- The reset state meets every invariant, a step from it is a next state (it runs CLS), and so is a faulting one. -/
theorem wit_invariants : Inv State.reset ∧ step State.reset = .next (next (step State.reset)) ∧
    step (at200 0x00EE) = .next (next (step (at200 0x00EE))) ∧ (next (step (at200 0x00EE))).halt = true :=
  ⟨⟨rfl, fun _ _ => rfl, by decide, by decide⟩, rfl, rfl, by decide +kernel⟩
/-- A halted state that meets the invariants of the fault registers and of the pc. -/
theorem wit_invariants_halted : FaultInv (next (step (at200 0x00EE))) ∧ PcInv (next (step (at200 0x00EE))) := by decide +kernel
theorem wit_TransactionsKeepTheInvariants :
    transact (.keySet 3 true) State.reset = .next (State.reset.keySet 3 true) ∧ transact .reset State.reset = .next State.reset ∧
    transact (.load [0x60, 0x05]) State.reset = .next (next (transact (.load [0x60, 0x05]) State.reset)) ∧
    transact (.step 0x5A) State.reset = .next (next (transact (.step 0x5A) State.reset)) := ⟨rfl, rfl, rfl, rfl⟩

end Sys2Proof.Tests
end

section
/-! PROOFS. The statements of 00_scope.md, on the parameters R5 to R11: which instruction each of them reaches, and what
the alternatives of R8, R9 and R11 make DRW and the transfers do. -/

namespace Sys2Proof

/-! ## STRICT_DECODE (R5, R85, R86) -/

theorem decode0_strict_cases (op : Word) : decode0 true op = .null op ∨ decode0 true op = decode0 false op := by
  by_cases hcls : opNNN op = 0x0E0#12
  · have hn : opN op = 0x0#4 := by rw [opN_eq_of_opNNN, hcls]; decide
    exact .inr (by simp [decode0, hcls, hn])
  · by_cases hret : opNNN op = 0x0EE#12
    · have hn : opN op = 0xE#4 := by rw [opN_eq_of_opNNN, hret]; decide
      exact .inr (by simp [decode0, hret, hn])
    · exact .inl (by simp [decode0, hcls, hret])

theorem decodePair_strict_cases (mk : Reg → Reg → Instr) (op : Word) :
    decodePair true mk op = .null op ∨ decodePair true mk op = decodePair false mk op := by
  by_cases hn : opN op = 0x0#4
  · exact .inr (by simp [decodePair, hn])
  · exact .inl (by simp [decodePair, hn])

theorem decodeE_strict_cases (op : Word) : decodeE true op = .null op ∨ decodeE true op = decodeE false op := by
  by_cases hskp : opKK op = 0x9E#8
  · have hn : opN op = 0xE#4 := by rw [opN_eq_of_opKK, hskp]; decide
    exact .inr (by simp [decodeE, hskp, hn])
  · by_cases hsknp : opKK op = 0xA1#8
    · have hn : opN op = 0x1#4 := by rw [opN_eq_of_opKK, hsknp]; decide
      exact .inr (by simp [decodeE, hsknp, hn])
    · exact .inl (by simp [decodeE, hskp, hsknp])

/-- Only families 0x0, 0x5, 0x9 and 0xE look at STRICT_DECODE, and all it does there is to answer the null operation. -/
theorem decodeWord_strict_cases (op : Word) :
    decodeWord true op = .null op ∨ decodeWord true op = decodeWord false op := by
  by_cases h0 : opT op = 0x0#4
  · simpa [decodeWord, h0] using decode0_strict_cases op
  by_cases h5 : opT op = 0x5#4
  · simpa [decodeWord, h5] using decodePair_strict_cases .seVxVy op
  by_cases h9 : opT op = 0x9#4
  · simpa [decodeWord, h9] using decodePair_strict_cases .sneVxVy op
  by_cases hE : opT op = 0xE#4
  · simpa [decodeWord, hE] using decodeE_strict_cases op
  · exact .inr (by simp only [decodeWord, h0, h5, h9, hE, if_false])

end Sys2Proof

namespace Sys2Proof.Machine

/-- Settles O5: a strict decoding that is not the loose one is the null operation. -/
theorem strictDecodeOnlyRemovesWords : Obligations.StrictDecodeOnlyRemovesWords := by
  unfold Obligations.StrictDecodeOnlyRemovesWords
  intro op
  rcases decodeWord_strict_cases op with hnull | hsame
  · exact ⟨fun h => absurd hnull h, fun _ => hnull⟩
  · exact ⟨fun _ => hsame.symm, fun h => hsame.trans h⟩

/-! ## What each instruction reads of the parameters (R6 to R11) -/

/-- The two settings give the same reset contents of memory (R6, R7). -/
def SameFont (cfg cfg' : Config) : Prop := cfg.fontBase = cfg'.fontBase ∧ cfg.fontData = cfg'.fontData

/-- The two settings agree on every parameter this instruction's meaning reads. -/
def AgreeFor (cfg cfg' : Config) : Instr → Prop
  | .sub _ _ | .shr _ | .subn _ _ | .shl _ => cfg.aluAlias = cfg'.aluAlias
  | .drw _ _ _ => SameFont cfg cfg' ∧ cfg.spriteEdge = cfg'.spriteEdge
  | .ldFVx _ => cfg.fontBase = cfg'.fontBase
  | .ldBVx _ => SameFont cfg cfg' ∧ cfg.protectLow = cfg'.protectLow
  | .ldMiVx _ => SameFont cfg cfg' ∧ cfg.protectLow = cfg'.protectLow ∧ cfg.dumpInclusive = cfg'.dumpInclusive
  | .ldVxMi _ => SameFont cfg cfg' ∧ cfg.dumpInclusive = cfg'.dumpInclusive
  | _ => True

section
variable {cfg cfg' : Config} (s : State)

theorem SameFont.unlisted_eq (h : SameFont cfg cfg') : Memory.unlisted cfg = Memory.unlisted cfg' := by
  obtain ⟨hb, hd⟩ := h
  cases cfg; cases cfg'; cases hb; cases hd; rfl

theorem SameFont.fetchWord_eq (h : SameFont cfg cfg') : s.fetchWord cfg = s.fetchWord cfg' := by
  simp only [State.fetchWord, Memory.read_congr h.unlisted_eq]

theorem writeCheck_congr (h : cfg.protectLow = cfg'.protectLow) : writeCheck cfg = writeCheck cfg' := by
  funext a
  rw [writeCheck, writeCheck, h]

theorem transferCount_congr (h : cfg.dumpInclusive = cfg'.dumpInclusive) (x : Reg) :
    transferCount cfg x = transferCount cfg' x := by
  rw [transferCount, transferCount, h]

theorem storeAtIndex_congr (hf : SameFont cfg cfg') (hp : cfg.protectLow = cfg'.protectLow) (bytes : List Byte) :
    storeAtIndex cfg s bytes = storeAtIndex cfg' s bytes := by
  rw [storeAtIndex, storeAtIndex, writeCheck_congr hp, Memory.writeBytes_congr hf.unlisted_eq]

/-- Step 3 depends on the parameters of `AgreeFor` alone. -/
theorem execWith_congr {i : Instr} (h : AgreeFor cfg cfg' i) : execWith cfg i s = execWith cfg' i s := by
  cases i
  case sub x y => simp only [execWith, execSubWith, show cfg.aluAlias = _ from h]
  case shr x => simp only [execWith, execShrWith, show cfg.aluAlias = _ from h]
  case subn x y => simp only [execWith, execSubnWith, show cfg.aluAlias = _ from h]
  case shl x => simp only [execWith, execShlWith, show cfg.aluAlias = _ from h]
  case ldFVx x => simp only [execWith, execLdFVxWith, glyphAddr, show cfg.fontBase = _ from h]
  case drw x y n =>
    obtain ⟨hf, he⟩ := h
    simp only [execWith, execDrwWith, he, Memory.readBytes_congr hf.unlisted_eq]
  case ldBVx x =>
    obtain ⟨hf, hp⟩ := h
    exact storeAtIndex_congr s hf hp _
  case ldMiVx x =>
    obtain ⟨hf, hp, hd⟩ := h
    simp only [execWith, execLdMiVxWith, transferCount_congr hd, storeAtIndex_congr s hf hp]
  case ldVxMi x =>
    obtain ⟨hf, hd⟩ := h
    simp only [execWith, execLdVxMiWith, transferCount_congr hd, loadRegs_congr hf.unlisted_eq]
  all_goals rfl

end

/-! ## ALU_ALIAS (R10, 42_alu.md R173) -/

/-- A flag write that hits no operand leaves nothing to read again. -/
theorem State.flagThenResult_mode_irrelevant (s : State) {x y : Reg} (hx : x ≠ 15) (hy : y ≠ 15)
    (flag result : Byte → Byte → Byte) :
    s.flagThenResult .latched x y flag result = s.flagThenResult .reread x y flag result := by
  rw [State.flagThenResult_latched, State.flagThenResult_reread, State.getV_setVF, State.getV_setVF, if_neg hx, if_neg hy]

/-- Settles O20: the four instructions that read ALU_ALIAS write the flag over no operand. -/
theorem aliasSettingsDifferOnlyAtVF : Obligations.AliasSettingsDifferOnlyAtVF := by
  unfold Obligations.AliasSettingsDifferOnlyAtVF
  intro cfg i s hpair hshift
  cases i
  case sub x y =>
    obtain ⟨hx, hy⟩ := hpair x y (.inl rfl)
    exact congrArg Host.Outcome.next (s.flagThenResult_mode_irrelevant hx hy _ _)
  case subn x y =>
    obtain ⟨hx, hy⟩ := hpair x y (.inr rfl)
    exact congrArg Host.Outcome.next (s.flagThenResult_mode_irrelevant hx hy _ _)
  case shr x =>
    have hx := hshift x (.inl rfl)
    exact congrArg Host.Outcome.next (s.flagThenResult_mode_irrelevant hx hx _ _)
  case shl x =>
    have hx := hshift x (.inr rfl)
    exact congrArg Host.Outcome.next (s.flagThenResult_mode_irrelevant hx hx _ _)
  all_goals exact execWith_congr s (by simp [AgreeFor, SameFont])

/-! ## SPRITE_EDGE (R9, 43_display.md R201) -/

section
variable (cfg : Config) (x y : Reg) (n : Fin 16) (s : State)

/-- The framebuffer and the collision a DRW leaves under any parameters. -/
def drawnWith : Framebuffer × Bool :=
  drawRows cfg.spriteEdge (originRow (s.getV y)) (originCol (s.getV x)) (s.fb, false)
    (Memory.readBytes cfg s.mem (memBase s) n.val)

theorem execWith_drw_inside (h : n.val = 0 ∨ memBase s + n.val ≤ 0x1000) :
    execWith cfg (.drw x y n) s =
      .next ((s.setVF (collisionFlag (drawnWith cfg x y n s).2)).setFb (drawnWith cfg x y n s).1) := by
  show s.checked _ _ = _
  rw [firstFailure_readCheck_none h]
  rfl

theorem spriteRows_length_le : (Memory.readBytes cfg s.mem (memBase s) n.val).length ≤ 32 := by
  have := n.isLt
  rw [Memory.readBytes_length]; omega

theorem drawnWith_cell_wrap (hw : cfg.spriteEdge = .wrap) (r : Fin 32) (c : Fin 64) :
    (drawnWith cfg x y n s).1.cell r c = (s.fb.cell r c ^^ spriteWrap cfg s x y n r c) := by
  rw [drawnWith, hw, drawRows_cell _ _ _ _ _ _ (spriteRows_length_le cfg n s)]
  simp only [mem_spriteCells_wrap, Bool.decide_eq_true]

theorem drawnWith_hit_wrap (hw : cfg.spriteEdge = .wrap) :
    (drawnWith cfg x y n s).2 = true ↔ ∃ r c, spriteWrap cfg s x y n r c = true ∧ s.fb.cell r c = true := by
  rw [drawnWith, hw, drawRows_hit _ _ _ _ _ _ (spriteRows_length_le cfg n s)]
  simp only [Bool.false_or, List.any_eq_true, Prod.exists, mem_spriteCells_wrap]

end

/-- Settles O33: a wrapped sprite toggles the cells of `spriteWrap`, and DRW alone reads SPRITE_EDGE. -/
theorem wrapEdgeDrawsModuloTheScreen : Obligations.WrapEdgeDrawsModuloTheScreen := by
  unfold Obligations.WrapEdgeDrawsModuloTheScreen
  constructor
  · intro cfg hw x y n s hinside
    refine ⟨_, execWith_drw_inside cfg x y n s hinside, rfl, ?_, drawnWith_cell_wrap cfg x y n s hw, ?_⟩
    · intro r hr
      simp [hr]
    · simp [collisionFlag, flagByte, drawnWith_hit_wrap cfg x y n s hw]
  · intro cfg edge i s hi
    cases i
    case drw x y n => exact absurd rfl (hi x y n)
    all_goals exact execWith_congr s (by simp [AgreeFor, SameFont])

/-! ## DUMP_INCLUSIVE and PROTECT_LOW (R8, R11, 45_index_memory.md R243 to R246) -/

theorem take_toList_length (v : Vector Byte 16) {k : Nat} (hk : k ≤ 16) : (v.toList.take k).length = k := by
  simp [hk]

theorem transferCount_le (cfg : Config) (x : Reg) : transferCount cfg x ≤ 16 := by
  have := x.isLt
  unfold transferCount; split <;> omega

/-- A store whose write checks pass completes: its bytes at I, I + 1, ..., all else kept (R243, R244). -/
theorem storeAtIndex_inside (cfg : Config) (s : State) (bytes : List Byte)
    (h : bytes.length = 0 ∨ memBase s + bytes.length ≤ 0x1000 ∧ (cfg.protectLow = true → 0x200 ≤ memBase s)) :
    ∃ t, storeAtIndex cfg s bytes = .next t ∧ t = { s with mem := t.mem } ∧
      (∀ k (hk : k < bytes.length), Memory.read cfg t.mem (memBase s + k) = bytes[k]) ∧
      ∀ a, a < memBase s ∨ memBase s + bytes.length ≤ a → Memory.read cfg t.mem a = Memory.read cfg s.mem a := by
  refine ⟨s.setMem (Memory.writeBytes cfg s.mem (memBase s) bytes), ?_, rfl, ?_, ?_⟩
  · rw [storeAtIndex, firstFailure_writeCheck_none cfg h, State.checked_none]
  · exact fun k hk => Memory.read_writeBytes_inside cfg bytes s.mem (memBase s) k hk
  · exact fun a ha => Memory.read_writeBytes_outside cfg bytes s.mem (memBase s) a ha

section
variable (cfg : Config) (x : Reg) (s : State)

theorem execWith_ldMiVx_inside (h : transferCount cfg x = 0 ∨
      memBase s + transferCount cfg x ≤ 0x1000 ∧ (cfg.protectLow = true → 0x200 ≤ memBase s)) :
    ∃ t, execWith cfg (.ldMiVx x) s = .next t ∧ t = { s with mem := t.mem } ∧
      (∀ j : Reg, j.val < transferCount cfg x → Memory.read cfg t.mem (memBase s + j.val) = s.getV j) ∧
      ∀ a, a < memBase s ∨ memBase s + transferCount cfg x ≤ a → Memory.read cfg t.mem a = Memory.read cfg s.mem a := by
  have hlen := take_toList_length s.v (transferCount_le cfg x)
  rw [← hlen] at h
  obtain ⟨t, hexec, hframe, hin, hout⟩ := storeAtIndex_inside cfg s _ h
  rw [hlen] at hout
  refine ⟨t, hexec, hframe, fun j hj => ?_, hout⟩
  rw [hin j.val (by rwa [hlen])]
  simp [State.getV]

theorem execWith_ldVxMi_inside (h : transferCount cfg x = 0 ∨ memBase s + transferCount cfg x ≤ 0x1000) :
    ∃ t, execWith cfg (.ldVxMi x) s = .next t ∧ t = { s with v := t.v } ∧
      ∀ j : Reg, t.getV j =
        if j.val < transferCount cfg x then Memory.read cfg s.mem (memBase s + j.val) else s.getV j := by
  refine ⟨{ s with v := loadRegs cfg s.mem (memBase s) s.v (transferCount cfg x) }, ?_, rfl, ?_⟩
  · show s.checked _ _ = _
    rw [firstFailure_readCheck_none h, State.checked_none]
  · exact fun j => getElem_loadRegs cfg s.mem (memBase s) s.v _ j.val j.isLt

theorem execWith_ldBVx_inside (hin : memBase s + 3 ≤ 0x1000) (hlow : cfg.protectLow = true → 0x200 ≤ memBase s) :
    ∃ t, execWith cfg (.ldBVx x) s = .next t ∧ t = { s with mem := t.mem } ∧
      (Memory.read cfg t.mem (memBase s)).toNat = (s.getV x).toNat / 100 ∧
      (Memory.read cfg t.mem (memBase s + 1)).toNat = (s.getV x).toNat / 10 % 10 ∧
      (Memory.read cfg t.mem (memBase s + 2)).toNat = (s.getV x).toNat % 10 ∧
      ∀ a, a < memBase s ∨ memBase s + 3 ≤ a → Memory.read cfg t.mem a = Memory.read cfg s.mem a := by
  obtain ⟨t, hexec, hframe, hdigit, hout⟩ := storeAtIndex_inside cfg s (bcdDigits (s.getV x)) (.inr ⟨hin, hlow⟩)
  have h0 := hdigit 0 (show 0 < 3 by decide)
  have h1 := hdigit 1 (show 1 < 3 by decide)
  have h2 := hdigit 2 (show 2 < 3 by decide)
  refine ⟨t, hexec, hframe, ?_, ?_, ?_, hout⟩
  · simpa [bcdDigits] using congrArg BitVec.toNat h0
  · simpa [bcdDigits] using congrArg BitVec.toNat h1
  · simpa [bcdDigits] using congrArg BitVec.toNat h2

end

/-- Settles O46: the transfers within their bounds, and that no other instruction reads the two parameters. -/
theorem transferParametersChangeTheirRuleOnly : Obligations.TransferParametersChangeTheirRuleOnly := by
  unfold Obligations.TransferParametersChangeTheirRuleOnly
  refine ⟨?_, execWith_ldBVx_inside, ?_, ?_⟩
  · intro cfg x s k hk
    have hcount : transferCount cfg x = k := hk.symm
    subst hcount
    exact ⟨execWith_ldMiVx_inside cfg x s, execWith_ldVxMi_inside cfg x s⟩
  · intro cfg b i s hi
    cases i
    case ldMiVx x => exact absurd rfl (hi x).1
    case ldVxMi x => exact absurd rfl (hi x).2
    all_goals exact execWith_congr s (by simp [AgreeFor, SameFont])
  · intro cfg b i s hi
    cases i
    case ldBVx x => exact absurd rfl (hi x).1
    case ldMiVx x => exact absurd rfl (hi x).2
    all_goals exact execWith_congr s (by simp [AgreeFor, SameFont])

/-! ## The instructions and the cycle under any parameters -/

/-- Each constructor is marked by `takesParameter`, or `AgreeFor` asks nothing for it. -/
theorem agreeFor_of_not_takesParameter {i : Instr} (h : i.takesParameter = false) (cfg cfg' : Config) :
    AgreeFor cfg cfg' i := by
  cases i <;> trivial

theorem execWith_strictDecode (cfg : Config) (b : Bool) : execWith { cfg with strictDecode := b } = execWith cfg := by
  funext i s
  exact execWith_congr s (by cases i <;> simp [AgreeFor, SameFont])

/-- Around one step 3, a cycle reads of the parameters the font and STRICT_DECODE, in fetching and decoding (R111). -/
theorem cycle_congr {cfg cfg' : Config} (execute : Instr → State → Host.Outcome State Fault Refusal) (s : State)
    (hf : SameFont cfg cfg')
    (hd : decodeWord cfg.strictDecode (s.fetchWord cfg') = decodeWord cfg'.strictDecode (s.fetchWord cfg')) :
    cycle cfg execute s = cycle cfg' execute s := by
  have hd' : decodeWord cfg.strictDecode (s.sampleKeys.fetchWord cfg') =
    decodeWord cfg'.strictDecode (s.sampleKeys.fetchWord cfg') := hd
  simp only [cycle, hf.fetchWord_eq, hd']

/-- Taking the draw leaves the word to be fetched. -/
theorem State.fetchWord_withDraw_countDraw (cfg : Config) (s : State) (b : Byte) :
    (s.countDraw.withDraw b).fetchWord cfg = s.fetchWord cfg := by
  simp [State.fetchWord]

theorem stepWith_strictDecode (cfg : Config) (b : Bool) (s : State)
    (hd : decodeWord b (s.fetchWord cfg) = decodeWord cfg.strictDecode (s.fetchWord cfg)) :
    stepWith { cfg with strictDecode := b } s = stepWith cfg s := by
  have hcycle : cycle { cfg with strictDecode := b } (execWith cfg) (s.countDraw.withDraw (Config.randomByte s.draws)) =
      cycle cfg (execWith cfg) (s.countDraw.withDraw (Config.randomByte s.draws)) :=
    cycle_congr _ _ ⟨rfl, rfl⟩ (by rwa [State.fetchWord_withDraw_countDraw])
  rw [stepWith, execWith_strictDecode, freeStep, stepDrawing, hcycle]
  rfl

/-- Settles O60: an instruction reads no parameter but those its rule names, and STRICT_DECODE acts in decoding. -/
theorem parametersReachOnlyTheirInstructions : Obligations.ParametersReachOnlyTheirInstructions := by
  unfold Obligations.ParametersReachOnlyTheirInstructions
  refine ⟨fun cfg i s hi => ?_, fun cfg b i s => ?_, stepWith_strictDecode⟩
  · rw [execWith_congr s (agreeFor_of_not_takesParameter hi cfg Config.hardware), execWith_hardware]
  · rw [execWith_strictDecode]

end Sys2Proof.Machine
end

section
/-! PROOFS. The statements of 10_state.md: what step 3 may leave of a state, said once per instruction (`Effect`), and
from it the writers of each piece of state, the ranges of the pc and the stack, and the fault registers; the registers
an instruction does not read; and the reset state. -/

namespace Sys2Proof.Machine

/-! ## What step 3 may leave (10_state.md R22 to R35) -/

/-- What an instruction may leave of the state `s` that step 3 finds: each constructor names the pieces of state written
and the instructions that write them. -/
inductive Effect (s : State) : Instr → State → Prop
  /-- fault entry, R275 -/
  | fault (i : Instr) (c : Cause) (info : Word) : Effect s i (s.raise c info)
  /-- nothing is written -/
  | nothing (i : Instr) : Effect s i s
  /-- registers of R22's write column -/
  | registers (i : Instr) (v : Vector Byte 16) (hv : ∀ r : Reg, i.writesV r = false → v[r] = s.v[r]) :
      Effect s i { s with v := v }
  /-- R201 -/
  | draw (x y : Reg) (n : Fin 16) (flag : Byte) (f : Framebuffer) : Effect s (.drw x y n) ((s.setVF flag).setFb f)
  /-- R200 -/
  | clear (f : Framebuffer) : Effect s .cls (s.setFb f)
  /-- a transfer to an operand, R133, R138; the bound is that of Bnnn -/
  | jump (i : Instr) (w : Word) (hi : i.movesPc = true) (hw : w.toNat ≤ 0x10FE) : Effect s i (s.setPc w)
  /-- R130 -/
  | skip (i : Instr) (c : Bool) (hi : i.movesPc = true) : Effect s i (s.skipIf c)
  /-- R223, with no key pressed -/
  | rewind (x : Reg) : Effect s (.ldVxK x) s.rewind
  /-- R132 -/
  | call (nnn : BitVec 12) (j : Fin 16) (sp : Fin 17) :
      Effect s (.call nnn) { s with stack := s.stack.set j s.pc, sp := sp, pc := addrOperand nnn }
  /-- R131 -/
  | ret (j : Fin 16) (sp : Fin 17) : Effect s .ret { s with sp := sp, pc := s.stack[j] }
  /-- R240 to R242 -/
  | index (i : Instr) (w : Word) (hi : (∃ nnn, i = .ldINnn nnn) ∨ ∃ x, i = .addIVx x ∨ i = .ldFVx x) :
      Effect s i (s.setIndex w)
  /-- R243, R244 -/
  | memory (i : Instr) (m : Memory) (hi : ∃ x, i = .ldBVx x ∨ i = .ldMiVx x) : Effect s i (s.setMem m)
  /-- R224 -/
  | delay (x : Reg) (b : Byte) : Effect s (.ldDtVx x) (s.setDt b)
  /-- R225 -/
  | sound (x : Reg) (b : Byte) : Effect s (.ldStVx x) (s.setSt b)

section
variable (s : State)

/-- A frame on registers is an effect when the table lets the instruction write each of them. -/
theorem Effect.of_onlyRegs {s t : State} {i : Instr} {xs : List Reg} (h : OnlyRegs xs s t)
    (hw : ∀ r ∈ xs, i.writesV r = true) : Effect s i t := by
  obtain ⟨ht, hregs, -⟩ := h
  rw [ht]
  refine .registers i t.v fun r hr => hregs r fun hmem => ?_
  rw [hw r hmem] at hr
  cases hr

theorem Effect.setV (i : Instr) (x : Reg) (b : Byte) (hw : i.writesV x = true) : Effect s i (s.setV x b) :=
  .of_onlyRegs (onlyRegs_setV s x b) (by simpa using hw)

theorem Effect.resultThenFlag (i : Instr) (x y : Reg) (flag result : Byte → Byte → Byte) (hx : i.writesV x = true)
    (hf : i.writesV 15 = true) : Effect s i (s.resultThenFlag x y flag result) :=
  .of_onlyRegs (onlyRegs_resultThenFlag s x y flag result) (by simp [hx, hf])

theorem Effect.flagThenResult (i : Instr) (x y : Reg) (flag result : Byte → Byte → Byte) (hx : i.writesV x = true)
    (hf : i.writesV 15 = true) : Effect s i (s.flagThenResult .latched x y flag result) :=
  .of_onlyRegs (onlyRegs_flagThenResult s .latched x y flag result) (by simp [hx, hf])

theorem Effect.loadRegs (x : Reg) : Effect s (.ldVxMi x)
    { s with v := loadRegs Config.hardware s.mem (memBase s) s.v (x.val + 1) } := by
  refine .registers _ _ fun r hr => ?_
  have hlt : x < r := by simpa [Instr.writesV] using hr
  have hnot : ¬ r.val < x.val + 1 := by have : x.val < r.val := hlt; omega
  exact (getElem_loadRegs _ _ _ _ _ r.val r.isLt).trans (if_neg hnot)

theorem Effect.pushJump (nnn : BitVec 12) : Effect s (.call nnn) (s.pushJump (addrOperand nnn)) := by
  by_cases h : s.sp.val < 16
  · rw [State.pushJump_of_lt s _ h]
    exact .call nnn ⟨s.sp.val, h⟩ _
  · rw [State.pushJump_of_full s _ (by omega)]
    exact .fault ..

theorem Effect.popJump : Effect s .ret s.popJump := by
  by_cases h : 0 < s.sp.val
  · rw [State.popJump_of_pos s h]
    exact .ret ⟨s.sp.val - 1, by omega⟩ _
  · rw [State.popJump_of_zero s (by omega)]
    exact .fault ..

theorem Effect.keySkip (i : Instr) (x : Reg) (pressed : Bool) (hi : i.movesPc = true) :
    Effect s i (s.keySkip x pressed) := by
  by_cases h : (s.getV x).toNat < 16
  · rw [State.keySkip_of_lt s x pressed h]
    exact .skip i _ hi
  · rw [State.keySkip_of_ge s x pressed (by omega)]
    exact .fault ..

/-- Checks before the writes: the effect given, or fault entry. -/
theorem Effect.checked {s t : State} {i : Instr} (h : Effect s i t) (f : Option (Cause × Nat)) :
    ∃ u, s.checked f t = .next u ∧ Effect s i u := by
  rcases State.checked_cases s t f with ⟨-, hu⟩ | ⟨c, a, -, hu⟩
  · exact ⟨t, hu, h⟩
  · exact ⟨_, hu, .fault i c _⟩

theorem addrOperand_le (nnn : BitVec 12) : (addrOperand nnn).toNat ≤ 0x10FE := by
  have := nnn.isLt
  rw [addrOperand_toNat]
  omega

theorem addrOperand_add_byteOperand_le (nnn : BitVec 12) (b : Byte) :
    (addrOperand nnn + byteOperand b).toNat ≤ 0x10FE := by
  have := nnn.isLt
  have := b.isLt
  rw [BitVec.toNat_add, addrOperand_toNat, byteOperand_toNat]
  omega

/-- Step 3 has one of the effects named for its instruction. -/
theorem exec_next_effect (i : Instr) : ∃ t, exec i s = .next t ∧ Effect s i t :=
  match i with
  | .cls => ⟨_, exec_cls s, .clear _⟩
  | .ret => ⟨_, exec_ret s, .popJump s⟩
  | .jp nnn => ⟨_, exec_jp s nnn, .jump _ _ rfl (addrOperand_le nnn)⟩
  | .call nnn => ⟨_, exec_call s nnn, .pushJump s nnn⟩
  | .seVxKk x kk => ⟨_, exec_seVxKk s x kk, .skip _ _ rfl⟩
  | .sneVxKk x kk => ⟨_, exec_sneVxKk s x kk, .skip _ _ rfl⟩
  | .seVxVy x y => ⟨_, exec_seVxVy s x y, .skip _ _ rfl⟩
  | .sneVxVy x y => ⟨_, exec_sneVxVy s x y, .skip _ _ rfl⟩
  | .jpV0 nnn => ⟨_, exec_jpV0 s nnn, .jump _ _ rfl (addrOperand_add_byteOperand_le nnn _)⟩
  | .ldVxKk x kk => ⟨_, exec_ldVxKk s x kk, .setV s _ x _ (by simp [Instr.writesV])⟩
  | .addVxKk x kk => ⟨_, exec_addVxKk s x kk, .setV s _ x _ (by simp [Instr.writesV])⟩
  | .ldVxVy x y => ⟨_, exec_ldVxVy s x y, .setV s _ x _ (by simp [Instr.writesV])⟩
  | .or x y => ⟨_, exec_or s x y, .setV s _ x _ (by simp [Instr.writesV])⟩
  | .and x y => ⟨_, exec_and s x y, .setV s _ x _ (by simp [Instr.writesV])⟩
  | .xor x y => ⟨_, exec_xor s x y, .setV s _ x _ (by simp [Instr.writesV])⟩
  | .rnd x kk => ⟨_, exec_rnd s x kk, .setV s _ x _ (by simp [Instr.writesV])⟩
  | .ldVxDt x => ⟨_, exec_ldVxDt s x, .setV s _ x _ (by simp [Instr.writesV])⟩
  | .addVxVy x y =>
    ⟨_, exec_addVxVy s x y, .resultThenFlag s _ x y _ _ (by simp [Instr.writesV]) (by simp [Instr.writesV])⟩
  | .sub x y => ⟨_, exec_sub s x y, .flagThenResult s _ x y _ _ (by simp [Instr.writesV]) (by simp [Instr.writesV])⟩
  | .subn x y => ⟨_, exec_subn s x y, .flagThenResult s _ x y _ _ (by simp [Instr.writesV]) (by simp [Instr.writesV])⟩
  | .shr x => ⟨_, exec_shr s x, .flagThenResult s _ x x _ _ (by simp [Instr.writesV]) (by simp [Instr.writesV])⟩
  | .shl x => ⟨_, exec_shl s x, .flagThenResult s _ x x _ _ (by simp [Instr.writesV]) (by simp [Instr.writesV])⟩
  | .ldINnn nnn => ⟨_, exec_ldINnn s nnn, .index _ _ (.inl ⟨nnn, rfl⟩)⟩
  | .addIVx x => ⟨_, exec_addIVx s x, .index _ _ (.inr ⟨x, .inl rfl⟩)⟩
  | .ldFVx x => ⟨_, exec_ldFVx s x, .index _ _ (.inr ⟨x, .inr rfl⟩)⟩
  | .drw x y n => (Effect.draw x y n _ _).checked _
  | .skp x => ⟨_, exec_skp s x, .keySkip s _ x true rfl⟩
  | .sknp x => ⟨_, exec_sknp s x, .keySkip s _ x false rfl⟩
  | .ldVxK x => by
    cases h : lowestKey s.keySample with
    | some k => exact ⟨_, exec_ldVxK_some s x h, .setV s _ x _ (by simp [Instr.writesV])⟩
    | none => exact ⟨_, exec_ldVxK_none s x h, .rewind x⟩
  | .ldDtVx x => ⟨_, exec_ldDtVx s x, .delay x _⟩
  | .ldStVx x => ⟨_, exec_ldStVx s x, .sound x _⟩
  | .ldBVx x => (Effect.memory _ _ ⟨x, .inl rfl⟩).checked _
  | .ldMiVx x => (Effect.memory _ _ ⟨x, .inr rfl⟩).checked _
  | .ldVxMi x => (Effect.loadRegs s x).checked _
  | .null op => ⟨_, exec_null s op, .nothing _⟩

end

/-- The inversion of step 3: everything it can leave. -/
theorem exec_effect {i : Instr} {s t : State} (h : exec i s = .next t) : Effect s i t := by
  obtain ⟨u, hu, heff⟩ := exec_next_effect s i
  rw [hu] at h
  injection h with h
  exact h ▸ heff

/-! ## The pc and the stack (10_state.md R27) -/

/-- In a cycle whose fetch was in range, step 3 keeps the bounds: Bnnn sets the larger one, a CALL pushes at most 0x1000. -/
theorem Effect.pcInv {i : Instr} {s t : State} (h : Effect s i t) (hlow : 2 ≤ s.pc.toNat) (hhigh : s.pc.toNat ≤ 0x1000)
    (hstack : ∀ j : Fin 16, s.stack[j].toNat ≤ 0x1000) : PcInv t := by
  have hback : (s.pc - 2#16).toNat ≤ 0x10FE := by bv_omega
  have hkeep : s.pc.toNat ≤ 0x10FE := by omega
  cases h
  case fault => exact ⟨hback, hstack⟩
  case rewind => exact ⟨hback, hstack⟩
  case jump w hw _ => exact ⟨hw, hstack⟩
  case skip c _ =>
    cases c
    · exact ⟨hkeep, hstack⟩
    · have hskip : (s.pc + 2#16).toNat ≤ 0x10FE := by bv_omega
      exact ⟨hskip, hstack⟩
  case call nnn j sp =>
    refine ⟨addrOperand_le nnn, fun k => ?_⟩
    have hk := hstack k
    simp only [Fin.getElem_fin, Vector.getElem_set] at hk ⊢
    split <;> assumption
  case ret j sp => exact ⟨(hstack j).trans (by decide), hstack⟩
  all_goals exact ⟨hkeep, hstack⟩

/-- Settles O56: a fetch in range leaves the pc at most 0x1000 to step 3, and a fetch fault leaves it in place. -/
theorem pcStaysInRange : Obligations.PcStaysInRange := by
  unfold Obligations.PcStaysInRange
  rintro s t ⟨hpc, hstack⟩ hstep
  rcases step_cases hstep with ⟨-, rfl⟩ | ⟨-, -, rfl⟩ | ⟨hrun, hfetch, u, hu, rfl⟩
  · exact ⟨hpc, hstack⟩
  · exact ⟨hpc, by simpa [State.begun] using hstack⟩
  · have hrange := (State.canFetch_iff s).mp hfetch
    have hadvanced : s.fetched.pc.toNat = s.pc.toNat + 2 := by
      rw [fetched_eq s hrun]
      bv_omega
    have := (exec_effect hu).pcInv (by omega) (by omega) (by rw [fetched_eq s hrun]; exact hstack)
    simpa [PcInv] using this

/-! ## The fault registers (10_state.md R35, 60_exceptions.md R275, R276) -/

/-- Step 3 enters a fault, or leaves the fault registers alone. -/
theorem Effect.raise_or_kept {i : Instr} {s t : State} (h : Effect s i t) :
    (∃ c info, t = s.raise c info) ∨
    (t.halt = s.halt ∧ t.fcause = s.fcause ∧ t.fpc = s.fpc ∧ t.finfo = s.finfo) := by
  cases h
  case fault c info => exact .inl ⟨c, info, rfl⟩
  all_goals exact .inr (by simp)

theorem Cause.code_toNat_pos (c : Cause) : 1 ≤ c.code.toNat := by cases c <;> decide

theorem faultInv_enterFault (s : State) (p : Word) (c : Cause) (info : Word) : FaultInv (s.enterFault p c info) :=
  ⟨fun h => absurd h (by simp), fun _ => ⟨c.code_toNat_pos, c.code_le, rfl⟩⟩

theorem Effect.faultInv {i : Instr} {s t : State} (h : Effect s i t) (hrun : s.halt = false) (hinv : FaultInv s) :
    FaultInv t := by
  rcases h.raise_or_kept with ⟨c, info, rfl⟩ | ⟨hhalt, hcause, hfpc, hfinfo⟩
  · exact faultInv_enterFault ..
  · have hzero := hinv.1 hrun
    refine ⟨fun _ => by rwa [hcause, hfpc, hfinfo], fun ht => ?_⟩
    rw [hhalt, hrun] at ht
    cases ht

/-- Settles O57: a halted core keeps its whole state; a running one enters a fault or writes no fault register. -/
theorem faultRegistersStayConsistent : Obligations.FaultRegistersStayConsistent := by
  unfold Obligations.FaultRegistersStayConsistent
  intro s t hinv hstep
  rcases step_cases hstep with ⟨hhalt, rfl⟩ | ⟨hrun, -, rfl⟩ | ⟨hrun, -, u, hu, rfl⟩
  · obtain ⟨hpos, -, -⟩ := hinv.2 hhalt
    exact ⟨hinv, fun _ => ⟨hhalt, rfl, rfl, rfl, fun h0 => by simp [h0] at hpos⟩⟩
  · exact ⟨faultInv_enterFault .., fun h => by simp [hrun] at h⟩
  · have hfetched : s.fetched.halt = false ∧ FaultInv s.fetched := by
      rw [fetched_eq s hrun]
      exact ⟨hrun, fun _ => hinv.1 hrun, fun h => by simp [hrun] at h⟩
    have := (exec_effect hu).faultInv hfetched.1 hfetched.2
    exact ⟨by simpa [FaultInv] using this, fun h => by simp [hrun] at h⟩

/-! ## Who writes what (10_state.md R22 to R35) -/

/-- Settles O48: by the effect of the instruction; DRW writes VF, and what writes registers writes those of R22. -/
theorem registerWritersAreThoseOfTheTable : Obligations.RegisterWritersAreThoseOfTheTable := by
  unfold Obligations.RegisterWritersAreThoseOfTheTable
  intro i s t r hexec hr
  cases exec_effect hexec
  case registers v hv => exact hv r hr
  case draw x y n flag f =>
    have hne : r ≠ Config.flagReg := by simpa [Instr.writesV] using hr
    simp [hne]
  all_goals exact State.getV_congr (by simp) r

/-- Settles O50: each effect names the pieces of state it writes and the instructions that have it. -/
theorem everyPieceOfStateHasItsNamedWriters : Obligations.EveryPieceOfStateHasItsNamedWriters := by
  unfold Obligations.EveryPieceOfStateHasItsNamedWriters
  intro i s t hexec
  cases exec_effect hexec
  case jump w _ hi => simp [hi]
  case skip c hi => simp [hi]
  case index w hi => simp [hi]
  case memory m hi => simp [hi]
  all_goals simp [Instr.movesPc]

/-! ## Who reads what (10_state.md R22) -/

section
variable {r : Reg} {b : Byte} {s : State}

theorem setV_setV_same (t : State) (x : Reg) (a c : Byte) : (t.setV x a).setV x c = t.setV x c := by
  simp [State.setV]

theorem setV_setV_comm (t : State) {x y : Reg} (hne : x ≠ y) (a c : Byte) :
    (t.setV x a).setV y c = (t.setV y c).setV x a := by
  have hval : x.val ≠ y.val := fun h => hne (Fin.ext h)
  simp [State.setV, Vector.set_comm _ _ hval]

/-- A register other than `r` reads the same after a write of `V[r]`. -/
theorem getV_setV_other {x : Reg} (h : (r == x) = false) : (s.setV r b).getV x = s.getV x := by
  rw [State.getV_setV, if_neg fun hx => by simp [hx] at h]

theorem getV_setV_others {x y : Reg} (h : (r == x || r == y) = false) :
    (s.setV r b).getV x = s.getV x ∧ (s.setV r b).getV y = s.getV y := by
  obtain ⟨hx, hy⟩ := Bool.or_eq_false_iff.mp h
  exact ⟨getV_setV_other hx, getV_setV_other hy⟩

theorem take_set_above (v : Vector Byte 16) {x : Reg} (h : decide (r ≤ x) = false) :
    (v.set r b).toList.take (x.val + 1) = v.toList.take (x.val + 1) := by
  have hlt : x.val < r.val := by simpa using h
  rw [Vector.toList_set, List.take_set_of_le hlt]

theorem loadRegs_succ (cfg : Config) (m : Memory) (base : Nat) (v : Vector Byte 16) {k : Nat} (hk : k < 16) :
    loadRegs cfg m base v (k + 1) = (loadRegs cfg m base v k).set k (Memory.read cfg m (base + k)) := by
  ext j hj
  rw [loadRegs, Vector.getElem_setIfInBounds, Vector.getElem_set]

/-- How the outcomes `t` of a run from `s` and `u` of a run from `s` with `V[r] = b` may differ: the changed register has
been written over, or neither run has written it and it is all the difference there is. -/
def OverwrittenOrKept (r : Reg) (b : Byte) (s t u : State) : Prop :=
  u = t ∨ u = t.setV r b ∧ t.getV r = s.getV r

namespace OverwrittenOrKept

theorem start : OverwrittenOrKept r b s s (s.setV r b) := .inr ⟨rfl, rfl⟩

/-- A register write overwrites the difference in `V[x]`, and keeps it in another register. -/
theorem setV {t u : State} (h : OverwrittenOrKept r b s t u) (x : Reg) (a : Byte) :
    OverwrittenOrKept r b s (t.setV x a) (u.setV x a) := by
  rcases h with rfl | ⟨rfl, hr⟩
  · exact .inl rfl
  · by_cases hx : r = x
    · subst hx
      exact .inl (setV_setV_same t r b a)
    · refine .inr ⟨setV_setV_comm t hx b a, ?_⟩
      rw [State.getV_setV, if_neg hx, hr]

/-- An update that neither reads nor writes `V[r]` keeps the difference. -/
theorem update {t u : State} (h : OverwrittenOrKept r b s t u) (f : State → State)
    (hcomm : ∀ w, f (w.setV r b) = (f w).setV r b) (hget : ∀ w, (f w).getV r = w.getV r) :
    OverwrittenOrKept r b s (f t) (f u) := by
  rcases h with rfl | ⟨rfl, hr⟩
  · exact .inl rfl
  · exact .inr ⟨hcomm t, (hget t).trans hr⟩

theorem setFb {t u : State} (h : OverwrittenOrKept r b s t u) (f : Framebuffer) :
    OverwrittenOrKept r b s (t.setFb f) (u.setFb f) :=
  h.update (·.setFb f) (fun _ => rfl) (fun w => w.getV_setFb f r)

theorem setPc (w : Word) : OverwrittenOrKept r b s (s.setPc w) ((s.setV r b).setPc w) :=
  start.update (·.setPc w) (fun _ => rfl) (fun t => t.getV_setPc w r)

theorem setIndex (w : Word) : OverwrittenOrKept r b s (s.setIndex w) ((s.setV r b).setIndex w) :=
  start.update (·.setIndex w) (fun _ => rfl) (fun t => t.getV_setIndex w r)

theorem setMem (m : Memory) : OverwrittenOrKept r b s (s.setMem m) ((s.setV r b).setMem m) :=
  start.update (·.setMem m) (fun _ => rfl) (fun t => t.getV_setMem m r)

theorem setDt (a : Byte) : OverwrittenOrKept r b s (s.setDt a) ((s.setV r b).setDt a) :=
  start.update (·.setDt a) (fun _ => rfl) (fun t => t.getV_setDt a r)

theorem setSt (a : Byte) : OverwrittenOrKept r b s (s.setSt a) ((s.setV r b).setSt a) :=
  start.update (·.setSt a) (fun _ => rfl) (fun t => t.getV_setSt a r)

theorem skipIf (c : Bool) : OverwrittenOrKept r b s (s.skipIf c) ((s.setV r b).skipIf c) :=
  start.update (·.skipIf c) (fun _ => by cases c <;> rfl) (fun t => t.getV_skipIf c r)

theorem raise (c : Cause) (info : Word) : OverwrittenOrKept r b s (s.raise c info) ((s.setV r b).raise c info) :=
  start.update (·.raise c info) (fun _ => rfl) (fun t => t.getV_raise c info r)

theorem rewind : OverwrittenOrKept r b s s.rewind (s.setV r b).rewind :=
  start.update (·.rewind) (fun _ => rfl) (fun t => t.getV_rewind r)

theorem pushJump (w : Word) : OverwrittenOrKept r b s (s.pushJump w) ((s.setV r b).pushJump w) := by
  by_cases h : s.sp.val < 16
  · rw [State.pushJump_of_lt s w h, State.pushJump_of_lt (s.setV r b) w h]
    exact .inr ⟨rfl, rfl⟩
  · have hfull : s.sp.val = 16 := by omega
    rw [State.pushJump_of_full s w hfull, State.pushJump_of_full (s.setV r b) w hfull]
    exact raise ..

theorem popJump : OverwrittenOrKept r b s s.popJump (s.setV r b).popJump := by
  by_cases h : 0 < s.sp.val
  · rw [State.popJump_of_pos s h, State.popJump_of_pos (s.setV r b) h]
    exact .inr ⟨rfl, rfl⟩
  · have hempty : s.sp.val = 0 := by omega
    rw [State.popJump_of_zero s hempty, State.popJump_of_zero (s.setV r b) hempty]
    exact raise ..

theorem keySkip {x : Reg} (hx : (s.setV r b).getV x = s.getV x) (pressed : Bool) :
    OverwrittenOrKept r b s (s.keySkip x pressed) ((s.setV r b).keySkip x pressed) := by
  by_cases h : (s.getV x).toNat < 16
  · rw [State.keySkip_of_lt s x pressed h, State.keySkip_of_lt (s.setV r b) x pressed (by rwa [hx])]
    simp only [hx, State.setV_keySample]
    exact skipIf _
  · rw [State.keySkip_of_ge s x pressed (by omega), State.keySkip_of_ge (s.setV r b) x pressed (by rw [hx]; omega), hx]
    exact raise ..

theorem resultThenFlag {x y : Reg} (h : (r == x || r == y) = false) (flag result : Byte → Byte → Byte) :
    OverwrittenOrKept r b s (s.resultThenFlag x y flag result) ((s.setV r b).resultThenFlag x y flag result) := by
  obtain ⟨hx, hy⟩ := getV_setV_others h (s := s) (b := b)
  rw [State.resultThenFlag, State.resultThenFlag, hx, hy]
  exact (start.setV x _).setV _ _

theorem flagThenResult {x y : Reg} (h : (r == x || r == y) = false) (flag result : Byte → Byte → Byte) :
    OverwrittenOrKept r b s (s.flagThenResult .latched x y flag result)
      ((s.setV r b).flagThenResult .latched x y flag result) := by
  obtain ⟨hx, hy⟩ := getV_setV_others h (s := s) (b := b)
  rw [State.flagThenResult_latched, State.flagThenResult_latched, hx, hy]
  exact (start.setV _ _).setV x _

/-- A register transfer overwrites the difference if it reaches the register. -/
theorem transfer (m : Memory) (base : Nat) {k : Nat} (hk : k ≤ 16) :
    OverwrittenOrKept r b s { s with v := loadRegs Config.hardware m base s.v k }
      { s.setV r b with v := loadRegs Config.hardware m base (s.setV r b).v k } := by
  induction k with
  | zero => exact start
  | succ k ih =>
    rw [loadRegs_succ _ _ _ _ hk, loadRegs_succ _ _ _ _ hk]
    exact (ih (by omega)).setV ⟨k, hk⟩ _

end OverwrittenOrKept

/-- Both runs answer a next state, and the two differ so. -/
def Ignores (r : Reg) (b : Byte) (s : State) (o p : Host.Outcome State Fault Refusal) : Prop :=
  ∃ t u, o = .next t ∧ p = .next u ∧ OverwrittenOrKept r b s t u

theorem Ignores.next {t u : State} (h : OverwrittenOrKept r b s t u) : Ignores r b s (.next t) (.next u) :=
  ⟨t, u, rfl, rfl, h⟩

theorem Ignores.checked {t u : State} (h : OverwrittenOrKept r b s t u) (f : Option (Cause × Nat)) :
    Ignores r b s (s.checked f t) ((s.setV r b).checked f u) :=
  match f with
  | none => .next h
  | some (_, _) => .next (.raise ..)

open OverwrittenOrKept in
/-- Step 3 ignores a register outside the read column of R22. -/
theorem exec_ignores_unread {i : Instr} (h : i.readsV r = false) : Ignores r b s (exec i s) (exec i (s.setV r b)) := by
  cases i
  case cls => exact .next (start.setFb _)
  case ret => exact .next popJump
  case jp nnn => exact .next (setPc _)
  case call nnn => exact .next (pushJump _)
  case seVxKk x kk => rw [exec_seVxKk, exec_seVxKk, getV_setV_other h]; exact .next (skipIf _)
  case sneVxKk x kk => rw [exec_sneVxKk, exec_sneVxKk, getV_setV_other h]; exact .next (skipIf _)
  case seVxVy x y =>
    obtain ⟨hx, hy⟩ := getV_setV_others h (s := s) (b := b)
    rw [exec_seVxVy, exec_seVxVy, hx, hy]; exact .next (skipIf _)
  case sneVxVy x y =>
    obtain ⟨hx, hy⟩ := getV_setV_others h (s := s) (b := b)
    rw [exec_sneVxVy, exec_sneVxVy, hx, hy]; exact .next (skipIf _)
  case jpV0 nnn => rw [exec_jpV0, exec_jpV0, getV_setV_other h]; exact .next (setPc _)
  case ldVxKk x kk => exact .next (start.setV x _)
  case addVxKk x kk => rw [exec_addVxKk, exec_addVxKk, getV_setV_other h]; exact .next (start.setV x _)
  case ldVxVy x y => rw [exec_ldVxVy, exec_ldVxVy, getV_setV_other h]; exact .next (start.setV x _)
  case or x y =>
    obtain ⟨hx, hy⟩ := getV_setV_others h (s := s) (b := b)
    rw [exec_or, exec_or, hx, hy]; exact .next (start.setV x _)
  case and x y =>
    obtain ⟨hx, hy⟩ := getV_setV_others h (s := s) (b := b)
    rw [exec_and, exec_and, hx, hy]; exact .next (start.setV x _)
  case xor x y =>
    obtain ⟨hx, hy⟩ := getV_setV_others h (s := s) (b := b)
    rw [exec_xor, exec_xor, hx, hy]; exact .next (start.setV x _)
  case rnd x kk => exact .next (start.setV x _)
  case ldVxDt x => exact .next (start.setV x _)
  case addVxVy x y => exact .next (resultThenFlag h _ _)
  case sub x y => exact .next (flagThenResult h _ _)
  case subn x y => exact .next (flagThenResult h _ _)
  case shr x => exact .next (flagThenResult ((Bool.or_self _).trans h) _ _)
  case shl x => exact .next (flagThenResult ((Bool.or_self _).trans h) _ _)
  case ldINnn nnn => exact .next (setIndex _)
  case addIVx x => rw [exec_addIVx, exec_addIVx, getV_setV_other h]; exact .next (setIndex _)
  case ldFVx x => rw [exec_ldFVx, exec_ldFVx, getV_setV_other h]; exact .next (setIndex _)
  case drw x y n =>
    obtain ⟨hx, hy⟩ := getV_setV_others h (s := s) (b := b)
    have hdrawn : drawn (s.setV r b) x y n = drawn s x y n := by rw [drawn, drawn, hx, hy]; rfl
    rw [exec_drw, exec_drw, hdrawn]
    exact .checked ((start.setV _ _).setFb _) _
  case skp x => exact .next (keySkip (getV_setV_other h) _)
  case sknp x => exact .next (keySkip (getV_setV_other h) _)
  case ldVxK x =>
    cases hk : lowestKey s.keySample with
    | some k => rw [exec_ldVxK_some s x hk, exec_ldVxK_some (s.setV r b) x hk]; exact .next (start.setV x _)
    | none => rw [exec_ldVxK_none s x hk, exec_ldVxK_none (s.setV r b) x hk]; exact .next rewind
  case ldDtVx x => rw [exec_ldDtVx, exec_ldDtVx, getV_setV_other h]; exact .next (setDt _)
  case ldStVx x => rw [exec_ldStVx, exec_ldStVx, getV_setV_other h]; exact .next (setSt _)
  case ldBVx x => rw [exec_ldBVx, exec_ldBVx, getV_setV_other h]; exact .checked (setMem _) _
  case ldMiVx x =>
    rw [exec_ldMiVx, exec_ldMiVx, State.setV_v, take_set_above s.v h]
    exact .checked (setMem _) _
  case ldVxMi x => exact .checked (transfer _ _ x.isLt) _
  case null op => exact .next start

end

/-- Settles O49: the two outcomes are equal, or differ by the change of the register, which then neither run has written. -/
theorem registerReadersAreThoseOfTheTable : Obligations.RegisterReadersAreThoseOfTheTable := by
  unfold Obligations.RegisterReadersAreThoseOfTheTable
  intro i s r b hreads
  obtain ⟨t, u, ht, hu, rfl | ⟨rfl, hkept⟩⟩ := exec_ignores_unread (b := b) (s := s) hreads
  · exact ⟨_, _, ht, hu, rfl, fun _ _ => rfl, .inl rfl⟩
  · refine ⟨t, _, ht, hu, rfl, fun k hk => ?_, .inr ⟨?_, hkept⟩⟩
    · rw [State.getV_setV, if_neg hk]
    · rw [State.getV_setV, if_pos rfl]

/-! ## The state after reset (10_state.md R39, 70_reset_and_hazards.md R310) -/

/-- The font table lies at FONT_BASE, five bytes a glyph (00_scope.md R6, R7). -/
theorem Memory.unlisted_glyph (cfg : Config) (g : Fin 16) (k : Fin 5) :
    Memory.unlisted cfg (cfg.fontBase.toNat + 5 * g.val + k.val) = cfg.fontData[g][k] := by
  have hin : cfg.fontBase.toNat ≤ cfg.fontBase.toNat + 5 * g.val + k.val ∧
      cfg.fontBase.toNat + 5 * g.val + k.val < cfg.fontBase.toNat + 80 := by omega
  have hoff : cfg.fontBase.toNat + 5 * g.val + k.val - cfg.fontBase.toNat = 5 * g.val + k.val := by omega
  have hglyph : (5 * g.val + k.val) / 5 = g.val := by omega
  have hrow : (5 * g.val + k.val) % 5 = k.val := by omega
  simp only [Memory.unlisted, dif_pos hin, hoff, hglyph, hrow, Fin.getElem_fin]

theorem Memory.unlisted_outside_font (cfg : Config) {a : Nat}
    (h : a < cfg.fontBase.toNat ∨ cfg.fontBase.toNat + 80 ≤ a) : Memory.unlisted cfg a = 0#8 := by
  rw [Memory.unlisted, dif_neg (by omega)]

/-- Settles O51: the registers and cells are constant vectors, and memory lists nothing. -/
theorem resetLeavesTheSpecValues : Obligations.ResetLeavesTheSpecValues := by
  unfold Obligations.ResetLeavesTheSpecValues
  refine ⟨?_, rfl, rfl, rfl, ?_, rfl, rfl, ?_, ?_, rfl, rfl, rfl, rfl, rfl, rfl, ?_, ?_, ?_⟩
  · intro r
    simp [State.getV, State.reset]
  · intro j
    simp [State.reset]
  · intro k
    simp [State.reset]
  · exact Framebuffer.cell_clear
  · exact Memory.unlisted_glyph Config.hardware
  · decide +kernel
  · exact fun a ha => Memory.unlisted_outside_font Config.hardware ha

/-- Settles O58: memory lists nothing, the pc is 0x200, and the stack entries and fault registers are 0. -/
theorem resetMeetsTheInvariants : Obligations.ResetMeetsTheInvariants := by
  unfold Obligations.ResetMeetsTheInvariants
  have hpc : PcInv State.reset := by decide
  have hfault : FaultInv State.reset := by decide
  exact ⟨Memory.wf_nil Config.hardware, fun _ _ => rfl, hpc, hfault⟩

end Sys2Proof.Machine
end

section
/-! PROOFS. The statements of 20_memory.md: the byte order of a fetch, and what a step may leave of memory, said once
(`MemoryEffect`), from which its canonical form and the reserved region follow. -/

namespace Sys2Proof.Machine

/-! ## The byte order (20_memory.md R52, 30_encoding.md R80, R91) -/

/-- Settles O6: two bytes make the word whose number has the first as its high byte, in a fetch and in a list. -/
theorem fetchIsBigEndian : Obligations.FetchIsBigEndian := by
  unfold Obligations.FetchIsBigEndian
  refine ⟨fun s => ?_, fun strict hi lo rest => ?_⟩
  · rw [State.fetchWord, wordOfBytes_toNat]
  · rw [decode, wordOfBytes_eq]

/-! ## What a step may leave of memory (20_memory.md R57, R58, 45_index_memory.md R246) -/

/-- What a step may leave of memory: all of it, or a run of bytes stored in the program region, 0x200 to 0xFFF. -/
inductive MemoryEffect (m : Memory) : Memory → Prop
  | kept : MemoryEffect m m
  | stored (a : Nat) (bytes : List Byte) (hlow : 0x200 ≤ a) (hhigh : a + bytes.length ≤ 0x1000) :
      MemoryEffect m (Memory.writeBytes Config.hardware m a bytes)

/-- A nonempty run whose write checks pass lies inside memory, and above the reserved region under PROTECT_LOW. -/
theorem range_of_firstFailure_writeCheck_none {cfg : Config} {a k : Nat} (hk : 0 < k)
    (h : firstFailure (writeCheck cfg) a k = none) : a + k ≤ 0x1000 ∧ (cfg.protectLow = true → 0x200 ≤ a) := by
  have hchecks := (firstFailure_eq_none_iff _ _ _).mp h
  obtain ⟨-, hfirst⟩ := (writeCheck_eq_none_iff cfg _).mp (hchecks 0 hk)
  obtain ⟨hlast, -⟩ := (writeCheck_eq_none_iff cfg _).mp (hchecks (k - 1) (by omega))
  exact ⟨by omega, hfirst⟩

/-- A store at I faults and keeps memory, or stores its bytes in the program region (R246). -/
theorem storeAtIndex_memoryEffect {s t : State} {bytes : List Byte}
    (h : storeAtIndex Config.hardware s bytes = .next t) : MemoryEffect s.mem t.mem := by
  rcases State.checked_cases s (s.setMem (Memory.writeBytes Config.hardware s.mem (memBase s) bytes))
      (firstFailure (writeCheck Config.hardware) (memBase s) bytes.length) with ⟨hpass, hu⟩ | ⟨c, a, -, hu⟩
  · obtain rfl := Host.Outcome.next.inj (hu.symm.trans h)
    cases bytes with
    | nil => exact .kept
    | cons b bs =>
      obtain ⟨hhigh, hlow⟩ := range_of_firstFailure_writeCheck_none (by simp) hpass
      exact .stored _ _ (hlow rfl) hhigh
  · obtain rfl := Host.Outcome.next.inj (hu.symm.trans h)
    exact .kept

/-- Step 3 writes memory only by a store at I, of Fx33 or Fx55. -/
theorem exec_memoryEffect {i : Instr} {s t : State} (h : exec i s = .next t) : MemoryEffect s.mem t.mem := by
  cases exec_effect h
  case memory m hi =>
    obtain ⟨x, rfl | rfl⟩ := hi
    · exact storeAtIndex_memoryEffect (bytes := bcdDigits (s.getV x)) h
    · exact storeAtIndex_memoryEffect (bytes := s.v.toList.take (x.val + 1)) h
  all_goals simp [MemoryEffect.kept]

@[simp] theorem State.begun_mem (s : State) : s.begun.mem = s.mem := by simp [State.begun]

@[simp] theorem State.fetched_mem (s : State) : s.fetched.mem = s.mem := by simp [State.fetched]

/-- Around step 3 a cycle writes no memory, and neither does a halted core or a fetch fault. -/
theorem step_memoryEffect {s t : State} (h : step s = .next t) : MemoryEffect s.mem t.mem := by
  rcases step_cases h with ⟨-, rfl⟩ | ⟨-, -, rfl⟩ | ⟨-, -, u, hu, rfl⟩
  · exact .kept
  · simp [MemoryEffect.kept]
  · simpa using exec_memoryEffect hu

/-! ## The canonical form and the reserved region (20_memory.md R50, R57, R58) -/

theorem MemoryEffect.wf {m n : Memory} (h : MemoryEffect m n) (hm : Memory.wf Config.hardware m = true) :
    Memory.wf Config.hardware n = true := by
  cases h with
  | kept => exact hm
  | stored a bytes _ hhigh => exact Memory.wf_writeBytes Config.hardware bytes hm hhigh

theorem MemoryEffect.read_low {m n : Memory} (h : MemoryEffect m n) {a : Nat} (ha : a < 0x200) :
    Memory.read Config.hardware n a = Memory.read Config.hardware m a := by
  cases h with
  | kept => rfl
  | stored base bytes hlow _ => exact Memory.read_writeBytes_outside Config.hardware bytes m base a (.inl (by omega))

/-- Settles O54: a run of bytes stored inside the 4096 addresses keeps the canonical form. -/
theorem memoryStaysCanonical : Obligations.MemoryStaysCanonical := by
  unfold Obligations.MemoryStaysCanonical
  exact fun s t hinv hstep => (step_memoryEffect hstep).wf hinv

/-- Settles O55: the bytes a step stores lie at 0x200 or above. -/
theorem reservedRegionIsNeverWritten : Obligations.ReservedRegionIsNeverWritten := by
  unfold Obligations.ReservedRegionIsNeverWritten
  have hkept : ∀ (s t : State) (a : Nat), step s = .next t → a < 0x200 → t.byte a = s.byte a :=
    fun s t a hstep ha => (step_memoryEffect hstep).read_low ha
  exact ⟨hkept, fun s t hinv hstep a ha => (hkept s t a hstep ha).trans (hinv a ha)⟩

end Sys2Proof.Machine
end

section
/-! PROOFS. The statements of 30_encoding.md: the round trip, the opcode map and the null space, both read off the bits
that select an instruction (`SelectedBy`), and that every step answers a next state. -/

namespace Sys2Proof

/-! ## The round trip (R82, R87, R92) -/

theorem decode_encode (i : Instr) : Laws.RoundTrip.Statement i :=
  match i with
  | .cls => Laws.RoundTrip.cls
  | .ret => Laws.RoundTrip.ret
  | .jp nnn => Laws.RoundTrip.jp nnn
  | .call nnn => Laws.RoundTrip.call nnn
  | .seVxKk x kk => Laws.RoundTrip.seVxKk x kk
  | .sneVxKk x kk => Laws.RoundTrip.sneVxKk x kk
  | .seVxVy x y => Laws.RoundTrip.seVxVy x y
  | .ldVxKk x kk => Laws.RoundTrip.ldVxKk x kk
  | .addVxKk x kk => Laws.RoundTrip.addVxKk x kk
  | .ldVxVy x y => Laws.RoundTrip.ldVxVy x y
  | .or x y => Laws.RoundTrip.or x y
  | .and x y => Laws.RoundTrip.and x y
  | .xor x y => Laws.RoundTrip.xor x y
  | .addVxVy x y => Laws.RoundTrip.addVxVy x y
  | .sub x y => Laws.RoundTrip.sub x y
  | .shr x => Laws.RoundTrip.shr x
  | .subn x y => Laws.RoundTrip.subn x y
  | .shl x => Laws.RoundTrip.shl x
  | .sneVxVy x y => Laws.RoundTrip.sneVxVy x y
  | .ldINnn nnn => Laws.RoundTrip.ldINnn nnn
  | .jpV0 nnn => Laws.RoundTrip.jpV0 nnn
  | .rnd x kk => Laws.RoundTrip.rnd x kk
  | .drw x y n => Laws.RoundTrip.drw x y n
  | .skp x => Laws.RoundTrip.skp x
  | .sknp x => Laws.RoundTrip.sknp x
  | .ldVxDt x => Laws.RoundTrip.ldVxDt x
  | .ldVxK x => Laws.RoundTrip.ldVxK x
  | .ldDtVx x => Laws.RoundTrip.ldDtVx x
  | .ldStVx x => Laws.RoundTrip.ldStVx x
  | .addIVx x => Laws.RoundTrip.addIVx x
  | .ldFVx x => Laws.RoundTrip.ldFVx x
  | .ldBVx x => Laws.RoundTrip.ldBVx x
  | .ldMiVx x => Laws.RoundTrip.ldMiVx x
  | .ldVxMi x => Laws.RoundTrip.ldVxMi x
  | .null op => Laws.RoundTrip.null op

/-- Settles O2: constructor by constructor, an encoding's fields are those the decoder dispatches on. -/
theorem decodeEncodeRoundTrip : Obligations.DecodeEncodeRoundTrip := by
  unfold Obligations.DecodeEncodeRoundTrip
  exact fun strict i hwf => decode_encode i strict hwf

/-! ## The bits that select an instruction (R84 to R86, R88) -/

/-- The fields of the word select this instruction, whatever its operands; the null operation carries its word, one of
the null space. -/
def Instr.SelectedBy (strict : Bool) (op : Word) : Instr → Prop
  | .cls => opT op = 0x0#4 ∧ if strict then opNNN op = 0x0E0#12 else opN op = 0x0#4
  | .ret => opT op = 0x0#4 ∧ if strict then opNNN op = 0x0EE#12 else opN op = 0xE#4
  | .jp _ => opT op = 0x1#4
  | .call _ => opT op = 0x2#4
  | .seVxKk _ _ => opT op = 0x3#4
  | .sneVxKk _ _ => opT op = 0x4#4
  | .seVxVy _ _ => opT op = 0x5#4 ∧ (strict = true → opN op = 0x0#4)
  | .ldVxKk _ _ => opT op = 0x6#4
  | .addVxKk _ _ => opT op = 0x7#4
  | .ldVxVy _ _ => opT op = 0x8#4 ∧ opN op = 0x0#4
  | .or _ _ => opT op = 0x8#4 ∧ opN op = 0x1#4
  | .and _ _ => opT op = 0x8#4 ∧ opN op = 0x2#4
  | .xor _ _ => opT op = 0x8#4 ∧ opN op = 0x3#4
  | .addVxVy _ _ => opT op = 0x8#4 ∧ opN op = 0x4#4
  | .sub _ _ => opT op = 0x8#4 ∧ opN op = 0x5#4
  | .shr _ => opT op = 0x8#4 ∧ opN op = 0x6#4
  | .subn _ _ => opT op = 0x8#4 ∧ opN op = 0x7#4
  | .shl _ => opT op = 0x8#4 ∧ opN op = 0xE#4
  | .sneVxVy _ _ => opT op = 0x9#4 ∧ (strict = true → opN op = 0x0#4)
  | .ldINnn _ => opT op = 0xA#4
  | .jpV0 _ => opT op = 0xB#4
  | .rnd _ _ => opT op = 0xC#4
  | .drw _ _ _ => opT op = 0xD#4
  | .skp _ => opT op = 0xE#4 ∧ if strict then opKK op = 0x9E#8 else opN op = 0xE#4
  | .sknp _ => opT op = 0xE#4 ∧ if strict then opKK op = 0xA1#8 else opN op = 0x1#4
  | .ldVxDt _ => opT op = 0xF#4 ∧ opKK op = 0x07#8
  | .ldVxK _ => opT op = 0xF#4 ∧ opKK op = 0x0A#8
  | .ldDtVx _ => opT op = 0xF#4 ∧ opKK op = 0x15#8
  | .ldStVx _ => opT op = 0xF#4 ∧ opKK op = 0x18#8
  | .addIVx _ => opT op = 0xF#4 ∧ opKK op = 0x1E#8
  | .ldFVx _ => opT op = 0xF#4 ∧ opKK op = 0x29#8
  | .ldBVx _ => opT op = 0xF#4 ∧ opKK op = 0x33#8
  | .ldMiVx _ => opT op = 0xF#4 ∧ opKK op = 0x55#8
  | .ldVxMi _ => opT op = 0xF#4 ∧ opKK op = 0x65#8
  | .null w => w = op ∧ nullWord strict op = true

/-! ## The decoder's answer is selected by the word -/

section
variable {strict : Bool} {op : Word}

/-- What is null when not strict is in the null space of both settings. -/
theorem nullWord_of_loose (h : nullWordLoose op = true) : nullWord strict op = true := by
  cases strict
  · exact h
  · simp [nullWord, nullWordStrict_eq, h]

/-- A test of the dispatch: each branch is selected, given the test's answer. -/
theorem Instr.SelectedBy.ite {c : Prop} [Decidable c] {i j : Instr} (hi : c → i.SelectedBy strict op)
    (hj : ¬c → j.SelectedBy strict op) : (if c then i else j).SelectedBy strict op := by
  split
  · next h => exact hi h
  · next h => exact hj h

theorem decode0_selectedBy (ht : opT op = 0x0#4) : (decode0 strict op).SelectedBy strict op := by
  cases strict
  · rw [decode0, if_neg Bool.false_ne_true]
    refine .ite (⟨ht, ·⟩) fun hcls => .ite (⟨ht, ·⟩) fun hret => ⟨rfl, ?_⟩
    simp [nullWord, nullWordLoose_eq, ht, hcls, hret]
  · rw [decode0, if_pos rfl]
    refine .ite (⟨ht, ·⟩) fun hcls => .ite (⟨ht, ·⟩) fun hret => ⟨rfl, ?_⟩
    have hcls' : op ≠ 0x00E0#16 := fun h => hcls (by rw [h]; decide)
    have hret' : op ≠ 0x00EE#16 := fun h => hret (by rw [h]; decide)
    simp [nullWord, nullWordStrict_eq, ht, hcls', hret']

/-- Families 0x5 and 0x9: under STRICT_DECODE a nonzero low nibble is null. -/
theorem decodePair_selectedBy {mk : Reg → Reg → Instr} (ht : opT op = 0x5#4 ∨ opT op = 0x9#4)
    (hmk : (strict = true → opN op = 0x0#4) → (mk (opX op) (opY op)).SelectedBy strict op) :
    (decodePair strict mk op).SelectedBy strict op := by
  refine .ite (fun h => ?_) fun h => hmk (by simpa using h)
  obtain ⟨rfl, hn⟩ : strict = true ∧ opN op ≠ 0x0#4 := by simpa using h
  exact ⟨rfl, by simp [nullWord, nullWordStrict_eq, ht, hn]⟩

theorem decode8_selectedBy (ht : opT op = 0x8#4) : (decode8 op).SelectedBy strict op := by
  refine .ite (⟨ht, ·⟩) fun h0 => .ite (⟨ht, ·⟩) fun h1 => .ite (⟨ht, ·⟩) fun h2 => .ite (⟨ht, ·⟩) fun h3 =>
    .ite (⟨ht, ·⟩) fun h4 => .ite (⟨ht, ·⟩) fun h5 => .ite (⟨ht, ·⟩) fun h6 => .ite (⟨ht, ·⟩) fun h7 =>
    .ite (⟨ht, ·⟩) fun hE => ⟨rfl, nullWord_of_loose ?_⟩
  have hfree : opN op ∈ [0x8#4, 0x9#4, 0xA#4, 0xB#4, 0xC#4, 0xD#4, 0xF#4] := by
    generalize opN op = n at *
    decide +revert
  simp [nullWordLoose_eq, ht, hfree]

theorem decodeE_selectedBy (ht : opT op = 0xE#4) : (decodeE strict op).SelectedBy strict op := by
  cases strict
  · rw [decodeE, if_neg Bool.false_ne_true]
    refine .ite (⟨ht, ·⟩) fun hskp => .ite (⟨ht, ·⟩) fun hsknp => ⟨rfl, ?_⟩
    simp [nullWord, nullWordLoose_eq, ht, hskp, hsknp]
  · rw [decodeE, if_pos rfl]
    refine .ite (⟨ht, ·⟩) fun hskp => .ite (⟨ht, ·⟩) fun hsknp => ⟨rfl, ?_⟩
    simp [nullWord, nullWordStrict_eq, ht, hskp, hsknp]

theorem decodeF_selectedBy (ht : opT op = 0xF#4) : (decodeF op).SelectedBy strict op := by
  refine .ite (⟨ht, ·⟩) fun h07 => .ite (⟨ht, ·⟩) fun h0A => .ite (⟨ht, ·⟩) fun h15 => .ite (⟨ht, ·⟩) fun h18 =>
    .ite (⟨ht, ·⟩) fun h1E => .ite (⟨ht, ·⟩) fun h29 => .ite (⟨ht, ·⟩) fun h33 => .ite (⟨ht, ·⟩) fun h55 =>
    .ite (⟨ht, ·⟩) fun h65 => ⟨rfl, nullWord_of_loose ?_⟩
  simp [nullWordLoose_eq, ht, h07, h0A, h15, h18, h1E, h29, h33, h55, h65]

end

/-- The last family needs no test: it is what the first fifteen leave. -/
theorem decodeWord_selectedBy (strict : Bool) (op : Word) : (decodeWord strict op).SelectedBy strict op := by
  refine .ite decode0_selectedBy fun h0 => .ite id fun h1 => .ite id fun h2 => .ite id fun h3 => .ite id fun h4 =>
    .ite (fun h5 => decodePair_selectedBy (.inl h5) (⟨h5, ·⟩)) fun h5 => .ite id fun h6 => .ite id fun h7 =>
    .ite decode8_selectedBy fun h8 => .ite (fun h9 => decodePair_selectedBy (.inr h9) (⟨h9, ·⟩)) fun h9 =>
    .ite id fun hA => .ite id fun hB => .ite id fun hC => .ite id fun hD => .ite decodeE_selectedBy fun hE =>
    decodeF_selectedBy ?_
  bv_omega

/-! ## The null space (R88, R89) -/

/-- Settles O4: the word selects what it decodes to, and a null operation is selected by its own word, a null one. -/
theorem nullSpaceIsExact : Obligations.NullSpaceIsExact := by
  unfold Obligations.NullSpaceIsExact
  intro strict op
  have hsel := decodeWord_selectedBy strict op
  refine ⟨⟨fun hnull => ?_, decodeWord_null op strict⟩, ?_⟩
  · rw [hnull] at hsel
    exact hsel.2
  · cases hdec : decodeWord strict op
    case null w =>
      rw [hdec] at hsel
      obtain ⟨rfl, hw⟩ := hsel
      exact hw
    all_goals rfl

/-! ## The opcode map (R87, R90) -/

section
variable {strict : Bool} {op v : Word} {t : BitVec 4}

theorem OpRow.hits_same_iff (mask v op : Word) : (OpRow.same mask v).hits strict op = true ↔ op &&& mask = v := by
  cases strict <;> simp [OpRow.hits, OpRow.same]

/-- A row over the family alone. -/
theorem OpRow.hits_family_iff (hv : v = encA t 0#12) :
    (OpRow.same 0xF000#16 v).hits strict op = true ↔ opT op = t := by
  rw [hits_same_iff, hv, and_F000_eq_iff]

/-- A row over the family and the low nibble. -/
theorem OpRow.hits_nibble_iff {f : BitVec 4} (hv : v = encRR t 0 0 f) :
    (OpRow.same 0xF00F#16 v).hits strict op = true ↔ opT op = t ∧ opN op = f := by
  rw [hits_same_iff, hv, and_F00F_eq_iff]

/-- A row over the family and the low byte. -/
theorem OpRow.hits_byte_iff {kk : Byte} (hv : v = encRK t 0 kk) :
    (OpRow.same 0xF0FF#16 v).hits strict op = true ↔ opT op = t ∧ opKK op = kk := by
  rw [hits_same_iff, hv, and_F0FF_eq_iff]

/-- A row of family 0x0: the low nibble, or the whole word when strict. -/
theorem OpRow.hits_family0_iff {w : Word} {f : BitVec 4} {c : BitVec 12} (hv : v = encRR 0x0#4 0 0 f)
    (hw : w = encA 0x0#4 c) : (OpRow.mk 0xF00F#16 v 0xFFFF#16 w).hits strict op = true ↔
      opT op = 0x0#4 ∧ if strict then opNNN op = c else opN op = f := by
  cases strict
  · simp [hits, hv, and_F00F_eq_iff]
  · simp only [hits, and_FFFF, hw, if_true, beq_iff_eq]
    exact ⟨fun h => by simp [h], fun ⟨ht, hc⟩ => word_of_family0 ht c hc⟩

/-- A row of families 0x5 and 0x9: the family, and the low nibble when strict. -/
theorem OpRow.hits_pair_iff {w : Word} (hv : v = encA t 0#12) (hw : w = encRR t 0 0 0x0#4) :
    (OpRow.mk 0xF000#16 v 0xF00F#16 w).hits strict op = true ↔ opT op = t ∧ (strict = true → opN op = 0x0#4) := by
  cases strict
  · simp [hits, hv, and_F000_eq_iff]
  · simp [hits, hw, and_F00F_eq_iff]

/-- A row of family 0xE: the low nibble, or the low byte when strict. -/
theorem OpRow.hits_familyE_iff {w : Word} {f : BitVec 4} {kk : Byte} (hv : v = encRR t 0 0 f) (hw : w = encRK t 0 kk) :
    (OpRow.mk 0xF00F#16 v 0xF0FF#16 w).hits strict op = true ↔
      opT op = t ∧ if strict then opKK op = kk else opN op = f := by
  cases strict
  · simp [hits, hv, and_F00F_eq_iff]
  · simp [hits, hw, and_F0FF_eq_iff]

/-- A word matches the row of an instruction exactly when it selects it. -/
theorem Instr.hits_row_iff {i : Instr} {r : OpRow} (h : i.row = some r) :
    r.hits strict op = true ↔ i.SelectedBy strict op := by
  cases i
  case null w => cases h
  all_goals obtain rfl := Option.some.inj h
  case cls | ret => exact OpRow.hits_family0_iff rfl rfl
  case seVxVy | sneVxVy => exact OpRow.hits_pair_iff rfl rfl
  case skp | sknp => exact OpRow.hits_familyE_iff rfl rfl
  case ldVxVy | or | and | xor | addVxVy | sub | shr | subn | shl => exact OpRow.hits_nibble_iff rfl
  case ldVxDt | ldVxK | ldDtVx | ldStVx | addIVx | ldFVx | ldBVx | ldMiVx | ldVxMi => exact OpRow.hits_byte_iff rfl
  all_goals exact OpRow.hits_family_iff rfl

/-- The instruction a word selects has the row of the one it decodes to. -/
theorem Instr.SelectedBy.row_decodeWord {i : Instr} (h : i.SelectedBy strict op) :
    (decodeWord strict op).row = i.row := by
  cases i
  case null w =>
    obtain ⟨rfl, hw⟩ := h
    rw [decodeWord_null w strict hw]
  case cls | ret =>
    obtain ⟨ht, hsel⟩ := h
    cases strict
    · simp [decodeWord, decode0, row, ht, show opN op = _ from hsel]
    · simp [decodeWord, decode0, row, ht, show opNNN op = _ from hsel]
  case seVxVy | sneVxVy =>
    obtain ⟨ht, hn⟩ := h
    have hpair : (strict && opN op != 0x0#4) = false := by simpa using hn
    simp [decodeWord, decodePair, row, ht, hpair]
  case skp | sknp =>
    obtain ⟨ht, hsel⟩ := h
    cases strict
    · simp [decodeWord, decodeE, row, ht, show opN op = _ from hsel]
    · simp [decodeWord, decodeE, row, ht, show opKK op = _ from hsel]
  case ldVxVy | or | and | xor | addVxVy | sub | shr | subn | shl =>
    obtain ⟨ht, hn⟩ := h
    simp [decodeWord, decode8, row, ht, hn]
  case ldVxDt | ldVxK | ldDtVx | ldStVx | addIVx | ldFVx | ldBVx | ldMiVx | ldVxMi =>
    obtain ⟨ht, hk⟩ := h
    simp [decodeWord, decodeF, row, ht, hk]
  all_goals
    have ht : opT op = _ := h
    simp [decodeWord, row, ht]

end

/-- Settles O3: to match the row of an instruction is to select it, and a word selects what it decodes to. -/
theorem decodeAgreesWithOpcodeMap : Obligations.DecodeAgreesWithOpcodeMap := by
  unfold Obligations.DecodeAgreesWithOpcodeMap
  refine ⟨rfl, fun strict op r hr => ⟨fun hhit => ?_, fun hrow => ?_⟩⟩
  · obtain ⟨i, -, hi⟩ := List.mem_filterMap.mp hr
    exact ((Instr.hits_row_iff hi).mp hhit).row_decodeWord.trans hi
  · exact (Instr.hits_row_iff hrow).mpr (decodeWord_selectedBy strict op)

end Sys2Proof

/-! ## Every step completes (R89, R90, 60_exceptions.md R270, R291) -/

namespace Sys2Proof.Machine

theorem cycle_next (s : State) : ∃ t, cycle Config.hardware exec s = .next t := by
  cases hf : s.canFetch with
  | true =>
    obtain ⟨t, ht⟩ := exec_next (s.sampleKeys.advance (s.fetchWord Config.hardware)) s.fetchedInstr
    exact ⟨_, cycle_of_canFetch s hf ht⟩
  | false => exact ⟨_, cycle_of_cannotFetch s hf⟩

theorem stepDrawing_of_halted {s : State} (h : s.halt = true) (b : Byte) :
    stepDrawing Config.hardware exec b s = .next s := by
  simp [stepDrawing, h]

theorem stepDrawing_next (b : Byte) (s : State) : ∃ t, stepDrawing Config.hardware exec b s = .next t := by
  cases h : s.halt with
  | true => exact ⟨_, stepDrawing_of_halted h b⟩
  | false =>
    rw [stepDrawing_of_running s h b]
    exact cycle_next _

theorem step_next (s : State) : ∃ t, step s = .next t := stepDrawing_next (Config.randomByte s.draws) s.countDraw

theorem State.load_of_le (cfg : Config) (s : State) {bytes : List Byte} (h : bytes.length ≤ 3584) :
    s.load cfg bytes = .next (s.setMem (Memory.writeBytes cfg s.mem 0x200 bytes)) := by
  rw [State.load, if_neg (by omega)]

theorem transact_next (x : Transaction) (s : State) (h : ∀ bytes, x = .load bytes → bytes.length ≤ 3584) :
    ∃ t, transact x s = .next t := by
  cases x with
  | step b => exact stepDrawing_next b s
  | read => exact ⟨_, rfl⟩
  | keySet k v => exact ⟨_, rfl⟩
  | load bytes => exact ⟨_, s.load_of_le Config.hardware (h bytes rfl)⟩
  | reset => exact ⟨_, rfl⟩

/-- Settles O12: a halted core, a fetch fault and step 3 each answer a next state, and so does a transaction. -/
theorem everyStepCompletes : Obligations.EveryStepCompletes := by
  unfold Obligations.EveryStepCompletes
  exact ⟨step_next, fun i s => exec_next s i, transact_next⟩

end Sys2Proof.Machine
end

section
/-! PROOFS. The statements of 40_cycle.md: the fetch and its fault, step 3 of the instruction at the pc, the null
operation, and the tick of the timers. -/

namespace Sys2Proof.Machine

/-! ## The fetch (R111) -/

/-- The next STEP executes `i`, in the words of the laws of a STEP. -/
theorem State.runs_iff (s : State) (i : Instr) :
    s.runs i ↔ s.halt = false ∧ s.canFetch = true ∧ s.fetchedInstr = i := by
  rw [State.runs, State.canFetch_iff, State.fetchedInstr, fetchWord_eq]

theorem State.cannotFetch_of_le (s : State) (h : 0xFFF ≤ s.pc.toNat) : s.canFetch = false := by
  rw [State.canFetch, decide_eq_false (by omega)]

@[simp] theorem State.fetched_dt (s : State) : s.fetched.dt = s.dt := by simp [State.fetched, State.begun]

@[simp] theorem State.fetched_st (s : State) : s.fetched.st = s.st := by simp [State.fetched, State.begun]

@[simp] theorem State.fetched_halt (s : State) : s.fetched.halt = s.halt := by simp [State.fetched, State.begun]

/-- Settles O9: the cycle enters the fault on the sampled state, whichever draw it carries. -/
theorem fetchOutOfRangeFaults : Obligations.FetchOutOfRangeFaults := by
  unfold Obligations.FetchOutOfRangeFaults
  intro s hrun hpc
  have hfetch := s.cannotFetch_of_le hpc
  refine ⟨?_, fun b => ?_⟩
  · rw [step_of_cannotFetch s hrun hfetch, begun_eq s hrun]
    rfl
  · calc transact (.step b) s
      _ = cycle Config.hardware exec (s.withDraw b) := stepDrawing_of_running s hrun b
      _ = .next ((s.withDraw b).sampleKeys.enterFault s.pc .fetchRange s.pc) := cycle_of_cannotFetch (s.withDraw b) hfetch

/-! ## Step 3 and the end of the cycle (R113, R114) -/

theorem State.endCycle_eq (t : State) :
    t.endCycle = if t.halt then t else
      { t with dt := if t.dt = 0#8 then 0#8 else t.dt - 1#8, st := if t.st = 0#8 then 0#8 else t.st - 1#8 } := rfl

theorem State.endCycle_of_running {t : State} (h : t.halt = false) : t.endCycle = t.tick := by
  simp [State.endCycle, h]

/-- Settles O7: both forms of STEP are the cycle of a fetch in range, with their draw in place. -/
theorem stepRunsTheDecodedInstruction : Obligations.StepRunsTheDecodedInstruction := by
  unfold Obligations.StepRunsTheDecodedInstruction
  intro s t i hruns
  obtain ⟨hrun, hfetch, rfl⟩ := (s.runs_iff i).mp hruns
  rw [← State.endCycle_eq]
  refine ⟨fun ht => ?_, fun b ht => ?_⟩
  · rw [← fetched_eq s hrun] at ht
    exact step_of_canFetch s hrun hfetch ht
  · rw [← fetchWord_eq] at ht
    calc transact (.step b) s
      _ = cycle Config.hardware exec (s.withDraw b) := stepDrawing_of_running s hrun b
      _ = .next t.endCycle := cycle_of_canFetch (s.withDraw b) hfetch ht

/-! ## The null operation (R116) -/

/-- Settles O47: step 3 leaves the fetched state as it is, and the cycle ticks it. -/
theorem nullOperationDoesNothing : Obligations.NullOperationDoesNothing := by
  unfold Obligations.NullOperationDoesNothing
  refine fun op s => ⟨exec_null s op, fun hruns => ?_⟩
  obtain ⟨hrun, hfetch, hinstr⟩ := (s.runs_iff _).mp hruns
  have hexec : exec s.fetchedInstr s.fetched = .next s.fetched := by rw [hinstr, exec_null]
  have hstep := step_of_canFetch s hrun hfetch hexec
  rw [State.endCycle_of_running (s.fetched_halt.trans hrun)] at hstep
  refine ⟨s.fetched.tick, hstep, ?_, ?_, ?_, ?_⟩
  · rw [fetched_eq s hrun]
    rfl
  · simp [tickDown_toNat]
  · simp [tickDown_toNat]
  · simp [State.byte]

/-! ## The timers (R114, 10_state.md R30, R31) -/

/-- Settles O39: a fault, in the fetch or in step 3, keeps both timers and is not ticked; else step 3 keeps a timer it is
no writer of, and the tick follows. -/
theorem timersTickOncePerCompletedCycle : Obligations.TimersTickOncePerCompletedCycle := by
  unfold Obligations.TimersTickOncePerCompletedCycle
  intro s t hrun hstep
  rcases step_cases hstep with ⟨hhalt, -⟩ | ⟨-, -, rfl⟩ | ⟨-, hfetch, u, hu, rfl⟩
  · simp [hrun] at hhalt
  · simp [State.begun]
  · have hruns : ∀ {i}, s.fetchedInstr = i → s.runs i := fun hi => (s.runs_iff _).mpr ⟨hrun, hfetch, hi⟩
    obtain ⟨-, -, -, -, -, hdt, hst, -⟩ := everyPieceOfStateHasItsNamedWriters _ _ _ hu
    rw [State.endCycle_halt]
    refine ⟨fun ht hno => ?_, fun ht hno => ?_, fun ht => ?_⟩
    · have hkept : u.dt = s.fetched.dt := of_not_not fun hne =>
        let ⟨x, hx⟩ := hdt hne; hno x (hruns hx)
      rw [State.endCycle_of_running ht, State.tick_dt, tickDown_toNat, hkept, State.fetched_dt]
    · have hkept : u.st = s.fetched.st := of_not_not fun hne =>
        let ⟨x, hx⟩ := hst hne; hno x (hruns hx)
      rw [State.endCycle_of_running ht, State.tick_st, tickDown_toNat, hkept, State.fetched_st]
    · obtain ⟨c, info, rfl⟩ := exec_halts (s.fetched_halt.trans hrun) hu ht
      simp

end Sys2Proof.Machine
end

section
/-! PROOFS. The statements of 41_control_flow.md: the jumps, the skips, the stack and its bounds, and a CALL followed by
a RET as two whole steps. -/

namespace Sys2Proof

/-! ## The words of the jumps and skips (R84, R86, R87) -/

section
variable (strict : Bool) {op : Word}

theorem decodeWord_eq_jp (ht : opT op = 0x1#4) : decodeWord strict op = .jp (opNNN op) := by
  simp [decodeWord, ht]

theorem decodeWord_eq_seVxKk (ht : opT op = 0x3#4) : decodeWord strict op = .seVxKk (opX op) (opKK op) := by
  simp [decodeWord, ht]

theorem decodeWord_eq_sneVxKk (ht : opT op = 0x4#4) : decodeWord strict op = .sneVxKk (opX op) (opKK op) := by
  simp [decodeWord, ht]

theorem decodeWord_family5 (ht : opT op = 0x5#4) : decodeWord strict op = decodePair strict .seVxVy op := by
  simp [decodeWord, ht]

theorem decodeWord_family9 (ht : opT op = 0x9#4) : decodeWord strict op = decodePair strict .sneVxVy op := by
  simp [decodeWord, ht]

/-- R86: without STRICT_DECODE families 0x5 and 0x9 ignore the low nibble. -/
theorem decodePair_loose (mk : Reg → Reg → Instr) (op : Word) : decodePair false mk op = mk (opX op) (opY op) := rfl

/-- R86: under STRICT_DECODE families 0x5 and 0x9 need a zero low nibble. -/
theorem decodePair_of_opN_zero (mk : Reg → Reg → Instr) (hn : opN op = 0x0#4) :
    decodePair strict mk op = mk (opX op) (opY op) := by
  simp [decodePair, hn]

end

end Sys2Proof

namespace Sys2Proof.Machine

/-- A mask over the family alone: it is enough to know what the family decodes to. -/
theorem encodes_of_family (t : BitVec 4) {value : Word} {instr : Word → Instr} (hv : value = encA t 0#12)
    (h : ∀ op, opT op = t → decodeWord Config.hardware.strictDecode op = instr op) : Encodes 0xF000 value instr :=
  fun op hop => h op ((and_F000_eq_iff op t).mp (hop.trans hv))

/-! ## The jumps (R133, R138) -/

/-- Settles O23: JP writes the pc, with its operand widened. -/
theorem jumpSetsPc : Obligations.JumpSetsPc := by
  unfold Obligations.JumpSetsPc
  refine ⟨encodes_of_family 0x1#4 rfl fun _ => decodeWord_eq_jp _, fun nnn s => ?_⟩
  exact ⟨_, exec_jp s nnn, addrOperand_toNat nnn, onlyPc_setPc s _⟩

/-- A 12-bit address plus a byte fits in the pc (R138, decision D24). -/
theorem addrOperand_add_byteOperand_toNat (nnn : BitVec 12) (b : Byte) :
    (addrOperand nnn + byteOperand b).toNat = nnn.toNat + b.toNat := by
  have := nnn.isLt
  have := b.isLt
  rw [BitVec.toNat_add, addrOperand_toNat, byteOperand_toNat]
  omega

/-- Settles O28: the sum of the two operands stays below 65536. -/
theorem jumpWithOffsetDoesNotWrap : Obligations.JumpWithOffsetDoesNotWrap := by
  unfold Obligations.JumpWithOffsetDoesNotWrap
  exact fun nnn s => ⟨_, exec_jpV0 s nnn, onlyPc_setPc s _, addrOperand_add_byteOperand_toNat nnn _⟩

/-! ## The skips (R130, R134 to R137) -/

/-- An instruction that is a skip adds 2 to the pc under the condition its test decides, and changes nothing else. -/
theorem exec_skip_of_iff {i : Instr} {s : State} {c : Bool} {p : Prop} [Decidable p]
    (h : exec i s = .next (s.skipIf c)) (hc : c = true ↔ p) :
    ∃ t, exec i s = .next t ∧ OnlyPc s t ∧ t.pc = if p then s.pc + 2#16 else s.pc :=
  ⟨_, h, onlyPc_skipIf s c, by simp only [State.skipIf_pc, hc]⟩

/-- Settles O24: families 0x3, 0x4, 0x5 and 0x9 decode to the four skips, and each skips by its comparison. -/
theorem skipsAddTwoWhenTheirConditionHolds : Obligations.SkipsAddTwoWhenTheirConditionHolds := by
  unfold Obligations.SkipsAddTwoWhenTheirConditionHolds
  refine ⟨encodes_of_family 0x3#4 rfl fun _ => decodeWord_eq_seVxKk _,
    encodes_of_family 0x4#4 rfl fun _ => decodeWord_eq_sneVxKk _, encodes_of_family 0x5#4 rfl fun op ht => ?_,
    encodes_of_family 0x9#4 rfl fun op ht => ?_, fun op hop => ?_, fun op hop => ?_, fun x y kk s => ⟨?_, ?_, ?_, ?_⟩⟩
  · exact (decodeWord_family5 _ ht).trans (decodePair_loose .seVxVy op)
  · exact (decodeWord_family9 _ ht).trans (decodePair_loose .sneVxVy op)
  · obtain ⟨ht, hn⟩ := (and_F00F_eq_iff op 0x5#4 0x0#4).mp hop
    rw [decodeWord_family5 _ ht, decodePair_of_opN_zero _ _ hn]
  · obtain ⟨ht, hn⟩ := (and_F00F_eq_iff op 0x9#4 0x0#4).mp hop
    rw [decodeWord_family9 _ ht, decodePair_of_opN_zero _ _ hn]
  · exact exec_skip_of_iff (exec_seVxKk s x kk) beq_iff_eq
  · exact exec_skip_of_iff (exec_sneVxKk s x kk) bne_iff_ne
  · exact exec_skip_of_iff (exec_seVxVy s x y) beq_iff_eq
  · exact exec_skip_of_iff (exec_sneVxVy s x y) bne_iff_ne

/-! ## The stack (R131, R132, 10_state.md R28, R29) -/

/-- Settles O25: with room, CALL pushes the pc at S[SP] and jumps. -/
theorem callPushesTheReturnAddress : Obligations.CallPushesTheReturnAddress := by
  unfold Obligations.CallPushesTheReturnAddress
  intro nnn s hroom
  have hexec := exec_call s nnn
  rw [State.pushJump_of_lt s _ hroom] at hexec
  refine ⟨_, hexec, rfl, rfl, addrOperand_toNat nnn, fun j => ?_, fun _ => rfl⟩
  simp only [Fin.getElem_fin, Vector.getElem_set, eq_comm]

/-- Settles O26: with an entry, RET reads the pc from the top of the stack and lowers SP. -/
theorem returnPopsTheStack : Obligations.ReturnPopsTheStack := by
  unfold Obligations.ReturnPopsTheStack
  intro s hpos
  have hexec := exec_ret s
  rw [State.popJump_of_pos s hpos] at hexec
  refine ⟨_, hexec, rfl, Nat.sub_add_cancel hpos, fun j hj => ?_, fun _ => rfl⟩
  simp only [Fin.getElem_fin, hj]

/-! ## The bounds (R131, R132, 44_keypad_timers.md R220, R221, 60_exceptions.md R272, R275) -/

/-- A keypad skip whose key is out of range enters KEY_RANGE, whichever state of the key it asks for. -/
theorem faultsWith_keySkip {s : State} {x : Reg} (h : 15 < (s.getV x).toNat) (pressed : Bool) :
    FaultsWith 7#4 (s.getV x).toNat s (s.keySkip x pressed) := by
  rw [State.keySkip_of_ge s x pressed h, byteOperand_eq]
  exact faultsWith_raise s .keyRange _

/-- Settles O27: beyond its bound each of the four instructions enters its fault and does nothing else. -/
theorem stackAndKeyBoundsFault : Obligations.StackAndKeyBoundsFault := by
  unfold Obligations.StackAndKeyBoundsFault
  refine ⟨fun nnn s hfull => ⟨_, exec_call s nnn, ?_⟩, fun s hempty => ⟨_, exec_ret s, ?_⟩, fun x s hkey => ?_⟩
  · rw [State.pushJump_of_full s _ hfull]
    exact faultsWith_raise s .stackOverflow 16
  · rw [State.popJump_of_zero s hempty]
    exact faultsWith_raise s .stackUnderflow 0
  · exact ⟨⟨_, exec_skp s x, faultsWith_keySkip hkey true⟩, ⟨_, exec_sknp s x, faultsWith_keySkip hkey false⟩⟩

/-! ## A CALL followed at once by a RET (R139) -/

@[simp] theorem State.fetched_pc (s : State) : s.fetched.pc = s.pc + 2#16 := by simp [State.fetched, State.begun]

@[simp] theorem State.fetched_sp (s : State) : s.fetched.sp = s.sp := by simp [State.fetched, State.begun]

@[simp] theorem State.fetched_stack (s : State) : s.fetched.stack = s.stack := by simp [State.fetched, State.begun]

/-- The STEP of a core that runs `i`: step 3 of `i` on the fetched state, then the end of the cycle. -/
theorem step_of_runs {s t : State} {i : Instr} (hruns : s.runs i) (ht : exec i s.fetched = .next t) :
    step s = .next t.endCycle := by
  obtain ⟨hrun, hfetch, rfl⟩ := (s.runs_iff i).mp hruns
  exact step_of_canFetch s hrun hfetch ht

/-- A CALL with room on the stack as a whole step: the core runs on at nnn, with the address after the CALL pushed. -/
theorem step_call {s : State} {nnn : BitVec 12} (hruns : s.runs (.call nnn)) (hroom : s.sp.val < 16) :
    ∃ t, step s = .next t ∧ t.halt = false ∧ t.pc.toNat = nnn.toNat ∧ t.sp.val = s.sp.val + 1 ∧
      t.stack[s.sp.val] = s.pc + 2#16 ∧ ∀ a, t.byte a = s.byte a := by
  obtain ⟨t, hexec, hframe, hsp, hpc, hstack, hbyte⟩ :=
    callPushesTheReturnAddress nnn s.fetched (by simpa using hroom)
  have hhalt : t.halt = s.fetched.halt := by rw [hframe]
  have htop := hstack ⟨s.sp.val, hroom⟩
  refine ⟨t.endCycle, step_of_runs hruns hexec, ?_, ?_, ?_, ?_, fun a => ?_⟩
  · simp [hhalt, hruns.1]
  · simpa using hpc
  · simpa using hsp
  · simpa using htop
  · simpa [State.byte] using hbyte a

/-- A RET with an entry on the stack as a whole step: the core runs on at the entry popped. -/
theorem step_ret {s : State} (hruns : s.runs .ret) (hpos : 0 < s.sp.val) :
    ∃ t, step s = .next t ∧ t.halt = false ∧ t.sp.val + 1 = s.sp.val ∧ t.pc = s.stack[s.sp.val - 1] := by
  obtain ⟨t, hexec, hframe, hsp, hpc, -⟩ := returnPopsTheStack s.fetched (by simpa using hpos)
  have hhalt : t.halt = s.fetched.halt := by rw [hframe]
  rw [State.fetched_sp] at hsp
  have htop := hpc ⟨s.sp.val - 1, by omega⟩ (by simp; omega)
  refine ⟨t.endCycle, step_of_runs hruns hexec, ?_, ?_, ?_⟩
  · simp [hhalt, hruns.1]
  · simpa using hsp
  · simpa using htop

/-- Settles O29: the CALL's step leaves the return address on top of the stack, where the RET's step finds it. -/
theorem callThenReturnComesBack : Obligations.CallThenReturnComesBack := by
  unfold Obligations.CallThenReturnComesBack
  intro s nnn hruns hroom hrange hword
  obtain ⟨t, hcall, hhalt, hpc, hsp, htop, hbyte⟩ := step_call hruns hroom
  have hret : t.runs .ret := ⟨hhalt, by omega, by rw [hpc, State.wordAt, hbyte, hbyte]; exact hword⟩
  obtain ⟨u, hstep, hhalt', hsp', hpc'⟩ := step_ret hret (by omega)
  refine ⟨t, u, hcall, hstep, ?_, Fin.ext (by omega), hhalt'⟩
  calc u.pc
    _ = t.stack[t.sp.val - 1] := hpc'
    _ = t.stack[s.sp.val] := by simp only [hsp, Nat.add_sub_cancel]
    _ = s.pc + 2#16 := htop

end Sys2Proof.Machine
end

section
/-! PROOFS. The statements of 42_alu.md: the loads and the logic, the sum and its carry, the differences and the shifts
under LATCHED, and the cases of R173 under REREAD. -/

namespace Sys2Proof

/-! ## The words of the loads and of family 0x8 (R84, R85, R87) -/

section
variable (strict : Bool) {op : Word}

theorem decodeWord_eq_ldVxKk (ht : opT op = 0x6#4) : decodeWord strict op = .ldVxKk (opX op) (opKK op) := by
  simp [decodeWord, ht]

theorem decodeWord_eq_addVxKk (ht : opT op = 0x7#4) : decodeWord strict op = .addVxKk (opX op) (opKK op) := by
  simp [decodeWord, ht]

theorem decodeWord_family8 (ht : opT op = 0x8#4) : decodeWord strict op = decode8 op := by
  simp [decodeWord, ht]

end

section
variable {op : Word}

theorem decode8_eq_ldVxVy (hn : opN op = 0x0#4) : decode8 op = .ldVxVy (opX op) (opY op) := by simp [decode8, hn]

theorem decode8_eq_or (hn : opN op = 0x1#4) : decode8 op = .or (opX op) (opY op) := by simp [decode8, hn]

theorem decode8_eq_and (hn : opN op = 0x2#4) : decode8 op = .and (opX op) (opY op) := by simp [decode8, hn]

theorem decode8_eq_xor (hn : opN op = 0x3#4) : decode8 op = .xor (opX op) (opY op) := by simp [decode8, hn]

theorem decode8_eq_shr (hn : opN op = 0x6#4) : decode8 op = .shr (opX op) := by simp [decode8, hn]

theorem decode8_eq_shl (hn : opN op = 0xE#4) : decode8 op = .shl (opX op) := by simp [decode8, hn]

end

end Sys2Proof

namespace Sys2Proof.Machine

/-- A mask over the family and the low nibble, in family 0x8: it is enough to know what the nibble decodes to. -/
theorem encodes_of_family8 (f : BitVec 4) {value : Word} {instr : Word → Instr} (hv : value = encRR 0x8#4 0 0 f)
    (h : ∀ {op}, opN op = f → decode8 op = instr op) : Encodes 0xF00F value instr := fun op hop => by
  obtain ⟨ht, hn⟩ := (and_F00F_eq_iff op 0x8#4 f).mp (hop.trans hv)
  rw [decodeWord_family8 _ ht, h hn]

/-! ## The instructions that write no flag (R160 to R165, R171) -/

theorem State.getV_setV_self (s : State) (x : Reg) (b : Byte) : (s.setV x b).getV x = b := by
  rw [State.getV_setV, if_pos rfl]

/-- Settles O13: family 0x6 decodes to LD Vx, byte, which writes its immediate. -/
theorem loadImmediateSetsVx : Obligations.LoadImmediateSetsVx := by
  unfold Obligations.LoadImmediateSetsVx
  refine ⟨encodes_of_family 0x6#4 rfl fun _ => decodeWord_eq_ldVxKk _, fun x kk s => ?_⟩
  exact ⟨_, exec_ldVxKk s x kk, s.getV_setV_self x kk, onlyRegs_setV s x kk⟩

/-- Settles O14: family 0x7 decodes to ADD Vx, byte, whose sum wraps at the width of a byte. -/
theorem addImmediateWrapsWithoutFlag : Obligations.AddImmediateWrapsWithoutFlag := by
  unfold Obligations.AddImmediateWrapsWithoutFlag
  refine ⟨encodes_of_family 0x7#4 rfl fun _ => decodeWord_eq_addVxKk _, fun x kk s => ?_⟩
  refine ⟨_, exec_addVxKk s x kk, ?_, onlyRegs_setV s x _⟩
  rw [State.getV_setV_self, BitVec.toNat_add]

/-- Settles O15: the low nibbles 0 to 3 of family 0x8 select the four, and each writes its bitwise result. -/
theorem copyAndLogicWithoutFlags : Obligations.CopyAndLogicWithoutFlags := by
  unfold Obligations.CopyAndLogicWithoutFlags
  refine ⟨encodes_of_family8 0x0#4 rfl decode8_eq_ldVxVy, encodes_of_family8 0x1#4 rfl decode8_eq_or,
    encodes_of_family8 0x2#4 rfl decode8_eq_and, encodes_of_family8 0x3#4 rfl decode8_eq_xor,
    fun x y s => ⟨?_, ?_, ?_, ?_⟩⟩
  · exact ⟨_, exec_ldVxVy s x y, s.getV_setV_self x _, onlyRegs_setV s x _⟩
  · refine ⟨_, exec_or s x y, onlyRegs_setV s x _, fun k => ?_⟩
    rw [State.getV_setV_self, BitVec.getLsbD_or]
  · refine ⟨_, exec_and s x y, onlyRegs_setV s x _, fun k => ?_⟩
    rw [State.getV_setV_self, BitVec.getLsbD_and]
  · refine ⟨_, exec_xor s x y, onlyRegs_setV s x _, fun k => ?_⟩
    rw [State.getV_setV_self, BitVec.getLsbD_xor]

/-- Settles O21: RND writes the draw under the mask kk; kk = 0xFF is the mask of all bits. -/
theorem randomAndMaskUsesTheDraw : Obligations.RandomAndMaskUsesTheDraw := by
  unfold Obligations.RandomAndMaskUsesTheDraw
  intro x kk s
  refine ⟨_, exec_rnd s x kk, onlyRegs_setV s x _, s.getV_setV_self x _, fun hzero => ?_, fun hones => ?_⟩
  · rw [State.getV_setV_self, hzero, BitVec.and_zero]
  · rw [State.getV_setV_self, hones]
    exact BitVec.and_allOnes

/-! ## The flags and the results as numbers (R166 to R170) -/

theorem flagByte_decide (p : Prop) [Decidable p] : flagByte (decide p) = if p then 1#8 else 0#8 := by
  simp [flagByte]

theorem flagByte_eq_one_iff (b : Bool) : flagByte b = 1#8 ↔ b = true := by cases b <;> decide

/-- R166, read off the result: a carry is a sum below its first operand. -/
theorem carryFlag_eq_one_iff (a b : Byte) : carryFlag a b = 1#8 ↔ (a + b).toNat < a.toNat := by
  have := a.isLt
  have := b.isLt
  rw [carryFlag, flagByte_eq_one_iff, decide_eq_true_iff, BitVec.toNat_add]
  omega

theorem greaterFlag_eq (a b : Byte) : greaterFlag a b = if a.toNat > b.toNat then 1#8 else 0#8 := flagByte_decide _

theorem byte_sub_toNat (a b : Byte) : (a - b).toNat = (a.toNat + 256 - b.toNat) % 256 := by
  have := b.isLt
  rw [BitVec.toNat_sub]
  omega

theorem byte_shiftRight_one_toNat (a : Byte) : (a >>> 1).toNat = a.toNat / 2 := by
  rw [BitVec.toNat_ushiftRight, Nat.shiftRight_eq_div_pow, Nat.pow_one]

theorem byte_shiftLeft_one_toNat (a : Byte) : (a <<< 1).toNat = a.toNat * 2 % 256 := by
  rw [BitVec.toNat_shiftLeft, Nat.shiftLeft_eq, Nat.pow_one]

/-- The flag of one bit is that bit as a number. -/
theorem flagByte_testBit_toNat (n i : Nat) : (flagByte (n.testBit i)).toNat = n / 2 ^ i % 2 := by
  rw [Nat.testBit_eq_decide_div_mod_eq, flagByte_decide]
  split <;> simp <;> omega

theorem lowBitFlag_toNat (a : Byte) : (lowBitFlag a).toNat = a.toNat % 2 := by
  rw [lowBitFlag, ← BitVec.getLsbD_eq_getElem, BitVec.getLsbD, flagByte_testBit_toNat, Nat.pow_zero, Nat.div_one]

theorem highBitFlag_toNat (a : Byte) : (highBitFlag a).toNat = a.toNat / 128 := by
  have := a.isLt
  rw [highBitFlag, ← BitVec.getLsbD_eq_getElem, BitVec.getLsbD, flagByte_testBit_toNat]
  omega

/-! ## Result first, flag last (R166) -/

/-- Settles O16: VF, written last, is the carry; another register holds the sum. -/
theorem addRegistersSetsCarry : Obligations.AddRegistersSetsCarry := by
  unfold Obligations.AddRegistersSetsCarry
  intro x y s
  refine ⟨_, exec_addVxVy s x y, onlyRegs_resultThenFlag s x y _ _, ?_, fun hx => ?_⟩
  · rw [State.getV_resultThenFlag, if_pos rfl, carryFlag, flagByte_decide]
  · rw [State.getV_resultThenFlag, State.getV_resultThenFlag, if_neg hx, if_pos rfl, if_pos rfl]
    exact ⟨BitVec.toNat_add _ _, carryFlag_eq_one_iff _ _⟩

/-! ## Flag first, result last, LATCHED (R167 to R170) -/

/-- An instruction that writes its flag and then its result, over operands read once: the result stays in `V[x]`, and
the flag in VF unless `x` is VF. -/
theorem exec_latched {i : Instr} {s : State} {x y : Reg} {flag result : Byte → Byte → Byte}
    (h : exec i s = .next (s.flagThenResult .latched x y flag result)) :
    ∃ t, exec i s = .next t ∧ OnlyRegs [x, 15] s t ∧ t.getV x = result (s.getV x) (s.getV y) ∧
      (x ≠ 15 → t.getV 15 = flag (s.getV x) (s.getV y)) := by
  refine ⟨_, h, onlyRegs_flagThenResult s .latched x y _ _, ?_, fun hx => ?_⟩
  · rw [State.getV_flagThenResult_latched, if_pos rfl]
  · rw [State.getV_flagThenResult_latched, if_neg hx.symm, if_pos rfl]

/-- Settles O17: SUB and SUBN write the strict comparison of their operands, then the difference. -/
theorem subtractsSetStrictFlag : Obligations.SubtractsSetStrictFlag := by
  unfold Obligations.SubtractsSetStrictFlag
  intro x y s
  constructor
  · obtain ⟨t, hexec, hframe, hx, hflag⟩ := exec_latched (exec_sub s x y)
    exact ⟨t, hexec, hframe, by rw [hx, byte_sub_toNat], fun h => by rw [hflag h, greaterFlag_eq]⟩
  · obtain ⟨t, hexec, hframe, hx, hflag⟩ := exec_latched (exec_subn s x y)
    exact ⟨t, hexec, hframe, by rw [hx, byte_sub_toNat], fun h => by rw [hflag h, greaterFlag_eq]⟩

/-- Settles O18: the low nibbles 6 and E of family 0x8 select the shifts, which write the bit they lose, then the
shifted value. -/
theorem shiftsPutTheLostBitInVF : Obligations.ShiftsPutTheLostBitInVF := by
  unfold Obligations.ShiftsPutTheLostBitInVF
  refine ⟨encodes_of_family8 0x6#4 rfl decode8_eq_shr, encodes_of_family8 0xE#4 rfl decode8_eq_shl,
    fun x s => ⟨?_, ?_⟩⟩
  · obtain ⟨t, hexec, hframe, hx, hflag⟩ := exec_latched (exec_shr s x)
    exact ⟨t, hexec, hframe, by rw [hx, byte_shiftRight_one_toNat], fun h => by rw [hflag h, lowBitFlag_toNat]⟩
  · obtain ⟨t, hexec, hframe, hx, hflag⟩ := exec_latched (exec_shl s x)
    exact ⟨t, hexec, hframe, by rw [hx, byte_shiftLeft_one_toNat], fun h => by rw [hflag h, highBitFlag_toNat]⟩

/-! ## Flag first, result last, REREAD (R173) -/

section
variable {cfg : Config} (h : cfg.aluAlias = .reread) (s : State) (x y : Reg)
include h

theorem execWith_sub_reread :
    execWith cfg (.sub x y) s = .next (s.flagThenResult .reread x y greaterFlag (fun a b => a - b)) := by
  rw [← h]; rfl

theorem execWith_subn_reread : execWith cfg (.subn x y) s =
    .next (s.flagThenResult .reread x y (fun a b => greaterFlag b a) (fun a b => b - a)) := by
  rw [← h]; rfl

theorem execWith_shr_reread : execWith cfg (.shr x) s =
    .next (s.flagThenResult .reread x x (fun a _ => lowBitFlag a) (fun a _ => a >>> 1)) := by
  rw [← h]; rfl

theorem execWith_shl_reread : execWith cfg (.shl x) s =
    .next (s.flagThenResult .reread x x (fun a _ => highBitFlag a) (fun a _ => a <<< 1)) := by
  rw [← h]; rfl

end

section
variable (s : State) (flag result : Byte → Byte → Byte) {r : Reg}

/-- VF as the first operand: the result is computed over the flag in its place, and stays. -/
theorem State.getV_reread_first (hr : r ≠ 15) : (s.flagThenResult .reread 15 r flag result).getV 15 =
    result (flag (s.getV 15) (s.getV r)) (s.getV r) := by
  rw [State.getV_flagThenResult_reread, if_pos rfl, if_pos rfl, if_neg hr]

/-- VF as the second operand: the flag stays, and the result is computed over it. -/
theorem State.getV_reread_second (hr : r ≠ 15) :
    (s.flagThenResult .reread r 15 flag result).getV 15 = flag (s.getV r) (s.getV 15) ∧
      (s.flagThenResult .reread r 15 flag result).getV r = result (s.getV r) (flag (s.getV r) (s.getV 15)) := by
  constructor
  · rw [State.getV_flagThenResult_reread, if_neg hr.symm, if_pos rfl]
  · rw [State.getV_flagThenResult_reread, if_pos rfl, if_neg hr, if_pos rfl]

/-- VF as both operands: the result is computed over the flag alone, and stays. -/
theorem State.getV_reread_both : (s.flagThenResult .reread 15 15 flag result).getV 15 =
    result (flag (s.getV 15) (s.getV 15)) (flag (s.getV 15) (s.getV 15)) := by
  rw [State.getV_flagThenResult_reread, if_pos rfl, if_pos rfl]

end

/-- A flag is 0 or 1, so nothing of it is left after a shift to the right. -/
theorem lowBitFlag_shiftRight_one (a : Byte) : lowBitFlag a >>> 1 = 0#8 := by
  apply BitVec.eq_of_toNat_eq
  rw [byte_shiftRight_one_toNat, lowBitFlag_toNat, BitVec.toNat_ofNat]
  omega

theorem highBitFlag_shiftLeft_one_toNat (a : Byte) : (highBitFlag a <<< 1).toNat = a.toNat / 128 * 2 := by
  have := a.isLt
  rw [byte_shiftLeft_one_toNat, highBitFlag_toNat]
  omega

/-- Settles O19: each case puts the flag in the place of VF among the operands of its result. -/
theorem rereadAliasing : Obligations.RereadAliasing := by
  unfold Obligations.RereadAliasing
  intro cfg h s r hr
  refine ⟨⟨_, execWith_sub_reread h s 15 r, ?_⟩, ⟨_, execWith_sub_reread h s r 15, ?_, ?_⟩,
    ⟨_, execWith_shr_reread h s 15, ?_⟩, ⟨_, execWith_subn_reread h s 15 r, ?_⟩,
    ⟨_, execWith_subn_reread h s r 15, ?_, ?_⟩, ⟨_, execWith_shl_reread h s 15, ?_⟩,
    ⟨_, execWith_sub_reread h s 15 15, ?_⟩, ⟨_, execWith_subn_reread h s 15 15, ?_⟩⟩
  · rw [State.getV_reread_first s _ _ hr, greaterFlag_eq]
  · rw [(State.getV_reread_second s _ _ hr).1, greaterFlag_eq]
  · rw [(State.getV_reread_second s _ _ hr).1, (State.getV_reread_second s _ _ hr).2]
  · rw [State.getV_reread_both, lowBitFlag_shiftRight_one]
  · rw [State.getV_reread_first s _ _ hr, greaterFlag_eq]
  · rw [(State.getV_reread_second s _ _ hr).1, greaterFlag_eq]
  · rw [(State.getV_reread_second s _ _ hr).1, (State.getV_reread_second s _ _ hr).2]
  · rw [State.getV_reread_both, highBitFlag_shiftLeft_one_toNat]
  · rw [State.getV_reread_both, BitVec.sub_self]
  · rw [State.getV_reread_both, BitVec.sub_self]

end Sys2Proof.Machine
end

section
/-! PROOFS. The statements of 43_display.md: CLS, the cells DRW inverts and the collision it reports, the same sprite
drawn twice, and the reads past the end of memory that DRW shares with the register load of 45_index_memory.md. -/

namespace Sys2Proof

/-! ## The words of CLS (R84, R85) -/

theorem decodeWord_family0 (strict : Bool) {op : Word} (ht : opT op = 0x0#4) :
    decodeWord strict op = decode0 strict op := by
  simp [decodeWord, ht]

/-- R85: without STRICT_DECODE family 0x0 looks at the low nibble alone. -/
theorem decode0_loose_eq_cls {op : Word} (hn : opN op = 0x0#4) : decode0 false op = .cls := by
  simp [decode0, hn]

end Sys2Proof

namespace Sys2Proof.Machine

/-- Settles O30: the low nibble 0 of family 0x0 selects CLS, and CLS writes the framebuffer that is off everywhere. -/
theorem clearTurnsEveryCellOff : Obligations.ClearTurnsEveryCellOff := by
  unfold Obligations.ClearTurnsEveryCellOff
  refine ⟨fun op hop => ?_, by decide, fun s => ?_⟩
  · obtain ⟨ht, hn⟩ := (and_F00F_eq_iff op 0x0#4 0x0#4).mp hop
    exact (decodeWord_family0 _ ht).trans (decode0_loose_eq_cls hn)
  · exact ⟨_, exec_cls s, Framebuffer.cell_clear, rfl, fun _ => rfl⟩

/-! ## One sprite, clipped at the edges (R201, decisions D7, D8) -/

section
variable (s : State) (x y : Reg) (n : Fin 16)

theorem exec_drw_inside (h : n.val = 0 ∨ memBase s + n.val ≤ 0x1000) :
    exec (.drw x y n) s =
      .next ((s.setVF (collisionFlag (drawn s x y n).2)).setFb (drawn s x y n).1) := by
  rw [exec_drw, firstFailure_readCheck_none h, State.checked_none]

theorem drawn_cell (r : Fin 32) (c : Fin 64) :
    (drawn s x y n).1.cell r c = (s.fb.cell r c ^^ spriteClip s x y n r c) := by
  rw [drawn, drawRows_cell _ _ _ _ _ _ (spriteRows_length_le Config.hardware n s)]
  simp only [mem_spriteCells_clip, Bool.decide_eq_true]

theorem drawn_hit_iff :
    (drawn s x y n).2 = true ↔ ∃ r c, spriteClip s x y n r c = true ∧ s.fb.cell r c = true := by
  rw [drawn, drawRows_hit _ _ _ _ _ _ (spriteRows_length_le Config.hardware n s)]
  simp only [Bool.false_or, List.any_eq_true, Prod.exists, mem_spriteCells_clip]

end

/-- The flag of a test that decides a proposition. -/
theorem flagByte_of_iff {b : Bool} {p : Prop} [Decidable p] (h : b = true ↔ p) :
    flagByte b = if p then 1#8 else 0#8 := by
  simp only [flagByte, h]

/-- Settles O31: the pixel loop inverts the cells of `spriteClip` and reports whether one of them was on. -/
theorem drawTogglesExactlyTheSpriteCells : Obligations.DrawTogglesExactlyTheSpriteCells := by
  unfold Obligations.DrawTogglesExactlyTheSpriteCells
  intro x y n s hinside
  refine ⟨_, exec_drw_inside s x y n hinside, rfl, drawn_cell s x y n, ?_, fun r hr => ?_, fun _ => rfl⟩
  · rw [State.getV_setFb, State.getV_setVF, if_pos rfl]
    exact flagByte_of_iff (drawn_hit_iff s x y n)
  · rw [State.getV_setFb, State.getV_setVF, if_neg hr]

/-! ## The same sprite twice (R202) -/

/-- Where a sprite lands depends on V[x], V[y], I and memory alone. -/
theorem spriteClip_congr {s u : State} {x y : Reg} (hx : u.getV x = s.getV x) (hy : u.getV y = s.getV y)
    (hindex : u.index = s.index) (hmem : u.mem = s.mem) (n : Fin 16) : spriteClip u x y n = spriteClip s x y n := by
  funext r c
  simp only [spriteClip, memBase, State.byte, hx, hy, hindex, hmem]

/-- Settles O32: inverting the same cells again gives them back, and the second DRW finds a cell on exactly where the
first found it off. -/
theorem drawTwiceRestoresTheScreen : Obligations.DrawTwiceRestoresTheScreen := by
  unfold Obligations.DrawTwiceRestoresTheScreen
  intro x y n s t u hinside ht hfb hindex hmem hx hy
  obtain ⟨t', ht', -, hcell, -⟩ := drawTogglesExactlyTheSpriteCells x y n s hinside
  obtain rfl : t = t' := Host.Outcome.next.inj (ht.symm.trans ht')
  have hbase : memBase u = memBase s := congrArg BitVec.toNat hindex
  obtain ⟨w, hw, -, hcell', hflag, -⟩ := drawTogglesExactlyTheSpriteCells x y n u (hbase ▸ hinside)
  rw [spriteClip_congr hx hy hindex hmem, hfb] at hcell' hflag
  refine ⟨w, hw, Framebuffer.ext_cell fun r c => ?_, ?_⟩
  · rw [hcell', hcell, Bool.xor_assoc, Bool.xor_self, Bool.xor_false]
  · have hturned : ∀ r c, (spriteClip s x y n r c = true ∧ t.fb.cell r c = true) ↔
        (s.fb.cell r c = false ∧ t.fb.cell r c = true) := fun r c => by
      rw [hcell]
      cases s.fb.cell r c <;> simp
    simpa only [hturned] using hflag

/-! ## Reads past the end of memory (R201, R245, R246, decision D11) -/

/-- A run of checked reads from I that leaves memory enters MEM_READ_RANGE at its first address above 0xFFF, whatever
the instruction would have done. -/
theorem faultsWith_checkedReads {s : State} {k : Nat} (hk : 0 < k) (h : 0x1000 < memBase s + k) (t : State) :
    ∃ u, s.checked (firstFailure readCheck (memBase s) k) t = .next u ∧ FaultsWith 4#4 (max (memBase s) 0x1000) s u := by
  rw [firstFailure_readCheck_some hk h, State.checked_some]
  exact ⟨_, rfl, faultsWith_raise s .memReadRange _⟩

/-- Settles O34: DRW and the register load check n and x + 1 reads from I before they write anything. -/
theorem readsPastMemoryFault : Obligations.ReadsPastMemoryFault := by
  unfold Obligations.ReadsPastMemoryFault
  refine ⟨fun x y n s hn hpast => ?_, fun x s hpast => ?_⟩
  · rw [exec_drw]
    exact faultsWith_checkedReads hn hpast _
  · rw [exec_ldVxMi]
    exact faultsWith_checkedReads x.val.succ_pos hpast _

end Sys2Proof.Machine
end

section
/-! PROOFS. The statements of 44_keypad_timers.md: the skips on the sampled key, the wait for a key, the moves of the
timers, and the tick that follows such a move in the same cycle. -/

namespace Sys2Proof

/-! ## The words of families 0xE and 0xF (R84, R85, R87) -/

section
variable (strict : Bool) {op : Word}

theorem decodeWord_familyE (ht : opT op = 0xE#4) : decodeWord strict op = decodeE strict op := by
  simp [decodeWord, ht]

theorem decodeWord_familyF (ht : opT op = 0xF#4) : decodeWord strict op = decodeF op := by
  simp [decodeWord, ht]

end

/-! R85: without STRICT_DECODE family 0xE looks at the low nibble alone, under it at the low byte. -/

section
variable {op : Word}

theorem decodeE_loose_eq_skp (hn : opN op = 0xE#4) : decodeE false op = .skp (opX op) := by simp [decodeE, hn]

theorem decodeE_loose_eq_sknp (hn : opN op = 0x1#4) : decodeE false op = .sknp (opX op) := by simp [decodeE, hn]

theorem decodeE_strict_eq_skp (hkk : opKK op = 0x9E#8) : decodeE true op = .skp (opX op) := by simp [decodeE, hkk]

theorem decodeE_strict_eq_sknp (hkk : opKK op = 0xA1#8) : decodeE true op = .sknp (opX op) := by simp [decodeE, hkk]

theorem decodeF_eq_ldVxK (hkk : opKK op = 0x0A#8) : decodeF op = .ldVxK (opX op) := by simp [decodeF, hkk]

end

end Sys2Proof

namespace Sys2Proof.Machine

/-! ## The keypad skips (R220, R221, decision D13) -/

/-- A keypad skip on a key in range adds 2 to the pc when the sampled cell is in the state it asks for, and changes
nothing else. -/
theorem exec_keySkip_of_key {i : Instr} {s : State} {x k : Reg} {pressed : Bool}
    (h : exec i s = .next (s.keySkip x pressed)) (hk : (s.getV x).toNat = k.val) :
    ∃ t, exec i s = .next t ∧ OnlyPc s t ∧ t.pc = if s.keySample[k] = pressed then s.pc + 2#16 else s.pc := by
  rw [State.keySkip_of_lt s x pressed (hk ▸ k.isLt)] at h
  refine exec_skip_of_iff h ?_
  simp only [hk, beq_iff_eq, Fin.getElem_fin]

/-- A mask over the family and the low nibble, in family 0xE on this hardware: it is enough to know what the nibble
decodes to. -/
theorem encodes_of_familyE (f : BitVec 4) {value : Word} {instr : Word → Instr} (hv : value = encRR 0xE#4 0 0 f)
    (h : ∀ {op}, opN op = f → decodeE false op = instr op) : Encodes 0xF00F value instr := fun op hop => by
  obtain ⟨ht, hn⟩ := (and_F00F_eq_iff op 0xE#4 f).mp (hop.trans hv)
  exact (decodeWord_familyE _ ht).trans (h hn)

/-- A mask over the family and the low byte, in family 0xE under STRICT_DECODE: it is enough to know what the byte
decodes to. -/
theorem decodeWord_strict_of_familyE (kk : Byte) {value : Word} {instr : Word → Instr} (hv : value = encRK 0xE#4 0 kk)
    (h : ∀ {op}, opKK op = kk → decodeE true op = instr op) (op : Word) (hop : op &&& 0xF0FF = value) :
    decodeWord true op = instr op := by
  obtain ⟨ht, hkk⟩ := (and_F0FF_eq_iff op 0xE#4 kk).mp (hop.trans hv)
  exact (decodeWord_familyE _ ht).trans (h hkk)

/-- Settles O35: the low nibbles E and 1 of family 0xE, or the low bytes 9E and A1 under STRICT_DECODE, select the two
skips, and a key in range is read in the sample. -/
theorem keySkipsReadTheSample : Obligations.KeySkipsReadTheSample := by
  unfold Obligations.KeySkipsReadTheSample
  refine ⟨encodes_of_familyE 0xE#4 rfl decodeE_loose_eq_skp, encodes_of_familyE 0x1#4 rfl decodeE_loose_eq_sknp,
    decodeWord_strict_of_familyE 0x9E#8 rfl decodeE_strict_eq_skp,
    decodeWord_strict_of_familyE 0xA1#8 rfl decodeE_strict_eq_sknp, fun x k s hk => ?_⟩
  exact ⟨exec_keySkip_of_key (exec_skp s x) hk, exec_keySkip_of_key (exec_sknp s x) hk⟩

/-! ## The wait for a key (R223) -/

/-- The index of a key, as the byte a register holds. -/
theorem keyByte_toNat (k : Reg) : (BitVec.ofNat 8 k.val).toNat = k.val := by
  rw [BitVec.toNat_ofNat]
  omega

/-- Settles O36: the low byte 0A of family 0xF selects the wait, which scans the sample for its smallest pressed key. -/
theorem waitForKeyTakesTheLowestKey : Obligations.WaitForKeyTakesTheLowestKey := by
  unfold Obligations.WaitForKeyTakesTheLowestKey
  refine ⟨fun op hop => ?_, fun x s => ⟨fun k hpressed hlowest => ?_, fun hnone => ?_⟩⟩
  · obtain ⟨ht, hkk⟩ := (and_F0FF_eq_iff op 0xF#4 0x0A#8).mp hop
    exact (decodeWord_familyF _ ht).trans (decodeF_eq_ldVxK hkk)
  · have hscan := (lowestKey_eq_some_iff s.keySample k).mpr ⟨hpressed, hlowest⟩
    refine ⟨_, exec_ldVxK_some s x hscan, ?_, onlyRegs_setV s x _⟩
    rw [State.getV_setV_self, keyByte_toNat]
  · have hscan := (lowestKey_eq_none_iff s.keySample).mpr hnone
    exact ⟨_, exec_ldVxK_none s x hscan, s.rewind_pc, onlyPc_setPc s _⟩

/-! ## The moves of the timers (R222, R224, R225) -/

/-- Settles O37: each of the three is one write, of a register or of a timer. -/
theorem timerTransfersMoveOneByte : Obligations.TimerTransfersMoveOneByte := by
  unfold Obligations.TimerTransfersMoveOneByte
  refine fun x s => ⟨?_, ?_, ?_⟩
  · exact ⟨_, exec_ldVxDt s x, s.getV_setV_self x _, onlyRegs_setV s x _⟩
  · exact ⟨_, exec_ldDtVx s x, rfl, fun _ => rfl⟩
  · exact ⟨_, exec_ldStVx s x, rfl, fun _ => rfl⟩

/-! ## The tick in the cycle of a move (70_reset_and_hazards.md R315) -/

@[simp] theorem State.getV_fetched (s : State) (r : Reg) : s.fetched.getV r = s.getV r := by
  simp [State.fetched, State.begun]

/-- The STEP of an instruction that does not fault: step 3 on the fetched state, then the tick. -/
theorem step_of_runs_ticked {s t : State} {i : Instr} (hruns : s.runs i) (ht : exec i s.fetched = .next t)
    (hhalt : t.halt = s.fetched.halt) : step s = .next t.tick := by
  rw [step_of_runs hruns ht, State.endCycle_of_running (by rw [hhalt, s.fetched_halt, hruns.1])]

/-- Settles O38: the tick takes one from the timer as the move leaves it, and keeps the register that the move writes. -/
theorem timerWrittenIsTickedInTheSameCycle : Obligations.TimerWrittenIsTickedInTheSameCycle := by
  unfold Obligations.TimerWrittenIsTickedInTheSameCycle
  refine fun x s => ⟨fun hruns => ?_, fun hruns => ?_, fun hruns => ?_⟩
  · refine ⟨_, step_of_runs_ticked hruns (exec_ldDtVx s.fetched x) rfl, ?_⟩
    rw [State.tick_dt, tickDown_toNat, State.setDt_dt, State.getV_fetched]
  · refine ⟨_, step_of_runs_ticked hruns (exec_ldStVx s.fetched x) rfl, ?_⟩
    rw [State.tick_st, tickDown_toNat, State.setSt_st, State.getV_fetched]
  · refine ⟨_, step_of_runs_ticked hruns (exec_ldVxDt s.fetched x) rfl, ?_, ?_⟩
    · rw [State.getV_tick, State.getV_setV_self, State.fetched_dt]
    · rw [State.tick_dt, tickDown_toNat, State.setV_dt, State.fetched_dt]

end Sys2Proof.Machine
end

section
/-! PROOFS. The statements of 45_index_memory.md: the writes of I, the store of the decimal digits, the register dump and
load inside memory, and the faults of a store outside the program region. -/

namespace Sys2Proof

/-! ## The word of ADD I (R85, R87) -/

theorem decodeF_eq_addIVx {op : Word} (hkk : opKK op = 0x1E#8) : decodeF op = .addIVx (opX op) := by
  simp [decodeF, hkk]

end Sys2Proof

namespace Sys2Proof.Machine

/-! ## The writes of I (R240 to R242, decisions D4, D15) -/

/-- R242: a 12-bit base plus five times a byte fits in I, under any FONT_BASE. -/
theorem glyphAddr_toNat (cfg : Config) (b : Byte) : (glyphAddr cfg b).toNat = cfg.fontBase.toNat + 5 * b.toNat := by
  have := cfg.fontBase.isLt
  have := b.isLt
  rw [glyphAddr, BitVec.toNat_ofNat]
  omega

/-- Settles O40: both are one write of I, and neither value reaches 65536. -/
theorem indexLoadsAreExact : Obligations.IndexLoadsAreExact := by
  unfold Obligations.IndexLoadsAreExact
  refine fun nnn x s => ⟨?_, ?_⟩
  · exact ⟨_, exec_ldINnn s nnn, addrOperand_toNat nnn, onlyIndex_setIndex s _⟩
  · exact ⟨_, exec_ldFVx s x, onlyIndex_setIndex s _, glyphAddr_toNat Config.hardware _⟩

/-- Settles O41: the low byte 1E of family 0xF selects ADD I, whose sum is that of two 16-bit words. -/
theorem addToIndexWraps : Obligations.AddToIndexWraps := by
  unfold Obligations.AddToIndexWraps
  refine ⟨fun op hop => ?_, fun x s => ⟨_, exec_addIVx s x, ?_, onlyIndex_setIndex s _⟩⟩
  · obtain ⟨ht, hkk⟩ := (and_F0FF_eq_iff op 0xF#4 0x1E#8).mp hop
    exact (decodeWord_familyF _ ht).trans (decodeF_eq_addIVx hkk)
  · rw [State.setIndex_index, BitVec.toNat_add, byteOperand_toNat]

/-! ## Transfers inside their bounds (R243 to R246, decisions D6, D14) -/

/-- R8: DUMP_INCLUSIVE is true on this hardware. -/
theorem transferCount_hardware (x : Reg) : transferCount Config.hardware x = x.val + 1 := rfl

/-- Settles O42: the store of the digits under any parameters, at this hardware's. -/
theorem storeBcdWritesThreeDigits : Obligations.StoreBcdWritesThreeDigits := by
  unfold Obligations.StoreBcdWritesThreeDigits
  intro x s hlow hhigh
  obtain ⟨t, hexec, hframe, hhundreds, htens, hones, hout⟩ :=
    execWith_ldBVx_inside Config.hardware x s hhigh fun _ => hlow
  rw [execWith_hardware] at hexec
  exact ⟨t, hexec, ⟨hframe, hout⟩, hhundreds, htens, hones⟩

/-- Settles O43: the register dump under any parameters, at this hardware's. -/
theorem registerDumpWritesMemory : Obligations.RegisterDumpWritesMemory := by
  unfold Obligations.RegisterDumpWritesMemory
  intro x s hlow hhigh
  obtain ⟨t, hexec, hframe, hin, hout⟩ :=
    execWith_ldMiVx_inside Config.hardware x s (.inr ⟨hhigh, fun _ => hlow⟩)
  rw [execWith_hardware] at hexec
  rw [transferCount_hardware] at hin hout
  exact ⟨t, hexec, ⟨hframe, hout⟩, fun k hk => hin k (Nat.lt_succ_of_le hk)⟩

/-- Settles O44: the register load under any parameters, at this hardware's; no byte differs, since memory does not. -/
theorem registerLoadReadsMemory : Obligations.RegisterLoadReadsMemory := by
  unfold Obligations.RegisterLoadReadsMemory
  intro x s hhigh
  obtain ⟨t, hexec, hframe, hregs⟩ := execWith_ldVxMi_inside Config.hardware x s (.inr hhigh)
  rw [execWith_hardware] at hexec
  refine ⟨t, hexec, hframe, fun a => by rw [hframe], fun k => ?_⟩
  simpa only [transferCount_hardware, Nat.lt_succ_iff, ← Fin.le_def] using hregs k

/-! ## Stores outside the program region (R243, R244, R246, decisions D11, D12) -/

section
variable {s : State} {k : Nat} (t : State)

/-- A run of checked writes that begins in the reserved region enters RESERVED_WRITE at I, whatever would be stored. -/
theorem faultsWith_checkedWrites_low (hk : 0 < k) (h : memBase s < 0x200) :
    ∃ u, s.checked (firstFailure (writeCheck Config.hardware) (memBase s) k) t = .next u ∧
      FaultsWith 6#4 (memBase s) s u := by
  rw [firstFailure_writeCheck_low Config.hardware rfl hk h, State.checked_some]
  exact ⟨_, rfl, faultsWith_raise s .reservedWrite _⟩

/-- A run of checked writes that begins above the reserved region and leaves memory enters MEM_WRITE_RANGE at its first
address above 0xFFF, whatever would be stored. -/
theorem faultsWith_checkedWrites_high (hk : 0 < k) (hlow : 0x200 ≤ memBase s) (h : 0x1000 < memBase s + k) :
    ∃ u, s.checked (firstFailure (writeCheck Config.hardware) (memBase s) k) t = .next u ∧
      FaultsWith 5#4 (max (memBase s) 0x1000) s u := by
  rw [firstFailure_writeCheck_high Config.hardware hk (fun _ => hlow) h, State.checked_some]
  exact ⟨_, rfl, faultsWith_raise s .memWriteRange _⟩

end

/-- The two stores check all their writes, 1 to 16 from I, before the first of them. -/
theorem exec_store_checked {x : Reg} {i : Instr} {len : Nat} (s : State)
    (h : i = .ldBVx x ∧ len = 3 ∨ i = .ldMiVx x ∧ len = x.val + 1) :
    0 < len ∧ len ≤ 16 ∧
      ∃ t, exec i s = s.checked (firstFailure (writeCheck Config.hardware) (memBase s) len) t := by
  rcases h with ⟨rfl, rfl⟩ | ⟨rfl, rfl⟩
  · exact ⟨by decide, by decide, _, exec_ldBVx s x⟩
  · exact ⟨x.val.succ_pos, x.isLt, _, exec_ldMiVx s x⟩

/-- Settles O45: a run of at most 16 bytes that leaves memory does not begin in the reserved region, so that each clause
has its own first failing check. -/
theorem storesOutsideProgramRegionFault : Obligations.StoresOutsideProgramRegionFault := by
  unfold Obligations.StoresOutsideProgramRegionFault
  intro x s i len hi
  obtain ⟨hpos, hle, t, hexec⟩ := exec_store_checked s hi
  rw [hexec]
  exact ⟨faultsWith_checkedWrites_low t hpos, fun hpast => faultsWith_checkedWrites_high t hpos (by omega) hpast⟩

end Sys2Proof.Machine
end

section
/-! PROOFS. The statements of 60_exceptions.md: the halted core, the entry of a fault and its causes, which instruction
an input of the cycle reaches, and the host's transactions. -/

namespace Sys2Proof.Machine

/-! ## The halted core (R276, decision D9) -/

/-- Settles O8: neither form of STEP begins a cycle on a halted core. -/
theorem haltedStepChangesNothing : Obligations.HaltedStepChangesNothing := by
  unfold Obligations.HaltedStepChangesNothing
  exact fun s hhalt => ⟨step_of_halted s hhalt, stepDrawing_of_halted hhalt⟩

/-! ## Fault entry (R275, decision D9) -/

/-- No tick follows the entry of a fault (40_cycle.md R114). -/
theorem State.endCycle_raise (s : State) (c : Cause) (info : Word) : (s.raise c info).endCycle = s.raise c info := rfl

/-- Settles O10: a fetch fault is entered on the state before the fetch; a fault of step 3 takes back the advance of the
pc, and the word fetched stays in OPCODE. -/
theorem faultsArePrecise : Obligations.FaultsArePrecise := by
  unfold Obligations.FaultsArePrecise
  intro s t hrun hstep ht
  rcases step_cases hstep with ⟨hhalt, -⟩ | ⟨-, hfetch, rfl⟩ | ⟨-, hfetch, u, hu, rfl⟩
  · simp [hrun] at hhalt
  · have hout : ¬ s.pc.toNat + 1 ≤ 0xFFF := fun hin => by simp [(State.canFetch_iff s).mpr hin] at hfetch
    rw [begun_eq s hrun]
    exact ⟨rfl, fun hin => absurd hin hout, fun _ => ⟨rfl, rfl⟩⟩
  · have hin := (State.canFetch_iff s).mp hfetch
    obtain ⟨c, info, rfl⟩ := exec_halts (s.fetched_halt.trans hrun) hu (by simpa using ht)
    have hback : s.pc + 2#16 - 2#16 = s.pc := BitVec.add_sub_cancel ..
    rw [State.endCycle_raise, State.raise, State.fetched_pc, hback, fetched_eq s hrun]
    exact ⟨rfl, fun _ => rfl, fun hout => by omega⟩

/-! ## The causes of the table (R270 to R273, R278, decisions D9 to D13) -/

@[simp] theorem State.flagThenResult_halt (s : State) (mode : AluAlias) (x y : Reg) (flag result : Byte → Byte → Byte) :
    (s.flagThenResult mode x y flag result).halt = s.halt := by cases mode <;> rfl

@[simp] theorem State.resultThenFlag_halt (s : State) (x y : Reg) (flag result : Byte → Byte → Byte) :
    (s.resultThenFlag x y flag result).halt = s.halt := rfl

/-- LD Vx, K waits or takes a key; neither halts. -/
theorem exec_ldVxK_halt (s : State) (x : Reg) : ∃ t, exec (.ldVxK x) s = .next t ∧ t.halt = s.halt := by
  cases hk : lowestKey s.keySample with
  | some k => exact ⟨_, exec_ldVxK_some s x hk, rfl⟩
  | none => exact ⟨_, exec_ldVxK_none s x hk, rfl⟩

/-- What holds of some next state answered holds of the one answered. -/
theorem next_unique {o : Host.Outcome State Fault Refusal} {t : State} {P : State → Prop} (h : o = .next t)
    (hP : ∃ u, o = .next u ∧ P u) : P t := by
  obtain ⟨u, hu, hPu⟩ := hP
  rwa [Host.Outcome.next.inj (h.symm.trans hu)]

/-- A run of reads that fails a check leaves memory. -/
theorem range_of_firstFailure_readCheck_some {a k : Nat} {f : Cause × Nat} (h : firstFailure readCheck a k = some f) :
    0 < k ∧ 0x1000 < a + k := by
  by_contra hin
  rw [firstFailure_readCheck_none (by omega)] at h
  cases h

/-- A run of writes that fails a check leaves memory or touches the reserved region. -/
theorem range_of_firstFailure_writeCheck_some {a k : Nat} {f : Cause × Nat}
    (h : firstFailure (writeCheck Config.hardware) a k = some f) : a < 0x200 ∨ 0x1000 < a + k := by
  by_contra hin
  rw [firstFailure_writeCheck_none Config.hardware (.inr ⟨by omega, fun _ => by omega⟩)] at h
  cases h

section
variable {s t : State} (hrun : s.halt = false) (ht : t.halt = true)
include hrun ht

theorem call_halts {nnn : BitVec 12} (h : exec (.call nnn) s = .next t) : s.sp.val = 16 ∧ FaultsWith 2#4 16 s t := by
  have hfull : s.sp.val = 16 := by
    by_contra hroom
    rw [exec_call, State.pushJump_of_lt s _ (by omega)] at h
    obtain rfl := Host.Outcome.next.inj h
    simp [hrun] at ht
  exact ⟨hfull, next_unique h (stackAndKeyBoundsFault.1 nnn s hfull)⟩

theorem ret_halts (h : exec .ret s = .next t) : s.sp.val = 0 ∧ FaultsWith 3#4 0 s t := by
  have hempty : s.sp.val = 0 := by
    by_contra hentry
    rw [exec_ret, State.popJump_of_pos s (by omega)] at h
    obtain rfl := Host.Outcome.next.inj h
    simp [hrun] at ht
  exact ⟨hempty, next_unique h (stackAndKeyBoundsFault.2.1 s hempty)⟩

theorem keySkip_halts {i : Instr} {x : Reg} {pressed : Bool} (hi : exec i s = .next (s.keySkip x pressed))
    (h : exec i s = .next t) : 15 < (s.getV x).toNat ∧ FaultsWith 7#4 (s.getV x).toNat s t := by
  obtain rfl := Host.Outcome.next.inj (hi.symm.trans h)
  have hrange : 15 < (s.getV x).toNat := by
    by_contra hkey
    rw [State.keySkip_of_lt s x pressed (by omega)] at ht
    simp [hrun] at ht
  exact ⟨hrange, faultsWith_keySkip hrange pressed⟩

/-- The fault of checked reads, of `k` bytes from I, before an update that does not halt (R201, R245, R246). -/
theorem checkedReads_halt {u : State} (hu : u.halt = s.halt) {k : Nat}
    (h : s.checked (firstFailure readCheck (memBase s) k) u = .next t) :
    0 < k ∧ 0x1000 < memBase s + k ∧ FaultsWith 4#4 (max (memBase s) 0x1000) s t := by
  obtain ⟨c, a, hfail, -⟩ := State.checked_halts hrun hu h ht
  obtain ⟨hpos, hpast⟩ := range_of_firstFailure_readCheck_some hfail
  exact ⟨hpos, hpast, next_unique h (faultsWith_checkedReads hpos hpast u)⟩

/-- The fault of checked writes, by where their run begins and ends (R243, R244, R246). -/
theorem checkedWrites_halt {u : State} (hu : u.halt = s.halt) {k : Nat} (hk : 0 < k)
    (h : s.checked (firstFailure (writeCheck Config.hardware) (memBase s) k) u = .next t) :
    0x200 ≤ memBase s ∧ 0x1000 < memBase s + k ∧ FaultsWith 5#4 (max (memBase s) 0x1000) s t ∨
      memBase s < 0x200 ∧ FaultsWith 6#4 (memBase s) s t := by
  obtain ⟨c, a, hfail, -⟩ := State.checked_halts hrun hu h ht
  by_cases hlow : memBase s < 0x200
  · exact .inr ⟨hlow, next_unique h (faultsWith_checkedWrites_low u hk hlow)⟩
  · have hpast := (range_of_firstFailure_writeCheck_some hfail).resolve_left hlow
    exact .inl ⟨by omega, hpast, next_unique h (faultsWith_checkedWrites_high u hk (by omega) hpast)⟩

end

/-- Settles O11: an instruction with a row of the table halts beyond its bounds alone, and the others do not halt. -/
theorem faultCausesAreThoseOfTheTable : Obligations.FaultCausesAreThoseOfTheTable := by
  unfold Obligations.FaultCausesAreThoseOfTheTable
  intro i s t hrun h ht
  cases i
  case call nnn => exact .inl ⟨nnn, rfl, call_halts hrun ht h⟩
  case ret => exact .inr (.inl ⟨rfl, ret_halts hrun ht h⟩)
  case drw x y n => exact .inr (.inr (.inl ⟨x, y, n, rfl, checkedReads_halt hrun ht (by simp) h⟩))
  case ldVxMi x =>
    obtain ⟨-, hfault⟩ := checkedReads_halt hrun ht (by simp) h
    exact .inr (.inr (.inr (.inl ⟨x, rfl, hfault⟩)))
  case ldBVx x =>
    have hfault := checkedWrites_halt hrun ht (by simp) (by decide) ((exec_ldBVx s x).symm.trans h)
    exact .inr (.inr (.inr (.inr (.inl ⟨x, 3, .inl ⟨rfl, rfl⟩, hfault⟩))))
  case ldMiVx x =>
    have hfault := checkedWrites_halt hrun ht (by simp) x.val.succ_pos ((exec_ldMiVx s x).symm.trans h)
    exact .inr (.inr (.inr (.inr (.inl ⟨x, _, .inr ⟨rfl, rfl⟩, hfault⟩))))
  case skp x => exact .inr (.inr (.inr (.inr (.inr ⟨x, .inl rfl, keySkip_halts hrun ht (exec_skp s x) h⟩))))
  case sknp x => exact .inr (.inr (.inr (.inr (.inr ⟨x, .inr rfl, keySkip_halts hrun ht (exec_sknp s x) h⟩))))
  case ldVxK x =>
    have hkept : t.halt = s.halt := next_unique h (exec_ldVxK_halt s x)
    simp [hkept, hrun] at ht
  all_goals
    obtain rfl := Host.Outcome.next.inj h
    simp [hrun] at ht

/-! ## Which instruction an input of the cycle reaches (R288, 10_state.md R22, R32, 20_memory.md R62) -/

/-- The same state with other inputs of the cycle: the draw, the keypad sample, the keypad cells. -/
def State.withInputs (s : State) (b : Byte) (sample cells : Keypad) : State :=
  { s with rnd := b, keySample := sample, keys := cells }

section
variable {s : State} {b : Byte} {sample cells : Keypad}

/-- From a state with other inputs, an outcome that differs in those inputs alone. -/
def CarriesInputs (b : Byte) (sample cells : Keypad) (o p : Host.Outcome State Fault Refusal) : Prop :=
  ∃ t, o = .next t ∧ p = .next (t.withInputs b sample cells)

namespace CarriesInputs

theorem next {t u : State} (h : u = t.withInputs b sample cells) : CarriesInputs b sample cells (.next t) (.next u) :=
  ⟨t, rfl, by rw [h]⟩

theorem checked {t u : State} (h : u = t.withInputs b sample cells) (f : Option (Cause × Nat)) :
    CarriesInputs b sample cells (s.checked f t) ((s.withInputs b sample cells).checked f u) :=
  match f with
  | none => next h
  | some (_, _) => next rfl

end CarriesInputs

theorem State.withInputs_skipIf (c : Bool) :
    (s.withInputs b sample cells).skipIf c = (s.skipIf c).withInputs b sample cells := by cases c <;> rfl

theorem State.withInputs_pushJump (w : Word) :
    (s.withInputs b sample cells).pushJump w = (s.pushJump w).withInputs b sample cells := by
  by_cases h : s.sp.val < 16
  · rw [State.pushJump_of_lt s w h, State.pushJump_of_lt (s.withInputs b sample cells) w h]
    rfl
  · have hfull : s.sp.val = 16 := by omega
    rw [State.pushJump_of_full s w hfull, State.pushJump_of_full (s.withInputs b sample cells) w hfull]
    rfl

theorem State.withInputs_popJump :
    (s.withInputs b sample cells).popJump = s.popJump.withInputs b sample cells := by
  by_cases h : 0 < s.sp.val
  · rw [State.popJump_of_pos s h, State.popJump_of_pos (s.withInputs b sample cells) h]
    rfl
  · have hempty : s.sp.val = 0 := by omega
    rw [State.popJump_of_zero s hempty, State.popJump_of_zero (s.withInputs b sample cells) hempty]
    rfl

/-- A keypad skip reads the sample, so it carries the other two inputs alone. -/
theorem State.withInputs_keySkip (x : Reg) (pressed : Bool) :
    (s.withInputs b s.keySample cells).keySkip x pressed =
      (s.keySkip x pressed).withInputs b s.keySample cells := by
  by_cases h : (s.getV x).toNat < 16
  · rw [State.keySkip_of_lt s x pressed h, State.keySkip_of_lt (s.withInputs b s.keySample cells) x pressed h]
    exact State.withInputs_skipIf _
  · have hout : 16 ≤ (s.getV x).toNat := by omega
    rw [State.keySkip_of_ge s x pressed hout, State.keySkip_of_ge (s.withInputs b s.keySample cells) x pressed hout]
    rfl

open CarriesInputs in
/-- Step 3 carries the inputs of the cycle that its instruction does not read. -/
theorem exec_carriesInputs (i : Instr) (hdraw : ∀ x kk, i = .rnd x kk → b = s.rnd)
    (hsample : ∀ x, i = .skp x ∨ i = .sknp x ∨ i = .ldVxK x → sample = s.keySample) :
    CarriesInputs b sample cells (exec i s) (exec i (s.withInputs b sample cells)) := by
  cases i
  case rnd x kk => obtain rfl := hdraw x kk rfl; exact next rfl
  case skp x => obtain rfl := hsample x (.inl rfl); exact next (State.withInputs_keySkip x true)
  case sknp x => obtain rfl := hsample x (.inr (.inl rfl)); exact next (State.withInputs_keySkip x false)
  case ldVxK x =>
    obtain rfl := hsample x (.inr (.inr rfl))
    cases hk : lowestKey s.keySample with
    | some k =>
      rw [exec_ldVxK_some s x hk, exec_ldVxK_some (s.withInputs b s.keySample cells) x hk]
      exact next rfl
    | none =>
      rw [exec_ldVxK_none s x hk, exec_ldVxK_none (s.withInputs b s.keySample cells) x hk]
      exact next rfl
  case call nnn => exact next (State.withInputs_pushJump _)
  case ret => exact next State.withInputs_popJump
  case seVxKk x kk => exact next (State.withInputs_skipIf _)
  case sneVxKk x kk => exact next (State.withInputs_skipIf _)
  case seVxVy x y => exact next (State.withInputs_skipIf _)
  case sneVxVy x y => exact next (State.withInputs_skipIf _)
  case drw x y n => exact checked rfl _
  case ldBVx x => exact checked rfl _
  case ldMiVx x => exact checked rfl _
  case ldVxMi x => exact checked rfl _
  all_goals exact next rfl

end

/-- Step 3 writes no input of the cycle. -/
theorem exec_inputs {i : Instr} {s t : State} (h : exec i s = .next t) :
    t.keys = s.keys ∧ t.keySample = s.keySample ∧ t.rnd = s.rnd := by
  obtain ⟨-, -, -, -, -, -, -, -, -, hkeys, hsample, -, hrnd, -⟩ := everyPieceOfStateHasItsNamedWriters i s t h
  exact ⟨hkeys, hsample, hrnd⟩

/-- Settles O22: step 3 writes none of the three inputs, and carries a change of one of them that it does not read. -/
theorem inputsReachOnlyTheirReaders : Obligations.InputsReachOnlyTheirReaders := by
  unfold Obligations.InputsReachOnlyTheirReaders
  refine ⟨fun i s b hi => ?_, fun i s k hi => ?_, fun i s k => ?_⟩
  · obtain ⟨t, ht, hu⟩ := exec_carriesInputs (b := b) (sample := s.keySample) (cells := s.keys) i
      (fun x kk h => absurd h (hi x kk)) (fun _ _ => rfl)
    obtain ⟨hkeys, hsample, -⟩ := exec_inputs ht
    exact ⟨t, ht, hu.trans (by rw [State.withInputs, hkeys, hsample])⟩
  · obtain ⟨t, ht, hu⟩ := exec_carriesInputs (b := s.rnd) (sample := k) (cells := s.keys) i
      (fun _ _ _ => rfl) (fun x h => by simp [hi x] at h)
    obtain ⟨hkeys, -, hdraw⟩ := exec_inputs ht
    exact ⟨t, ht, hu.trans (by rw [State.withInputs, hkeys, hdraw])⟩
  · obtain ⟨t, ht, hu⟩ := exec_carriesInputs (b := s.rnd) (sample := s.keySample) (cells := k) i
      (fun _ _ _ => rfl) (fun _ _ => rfl)
    obtain ⟨-, hsample, hdraw⟩ := exec_inputs ht
    exact ⟨t, ht, hu.trans (by rw [State.withInputs, hsample, hdraw])⟩

/-! ## LOAD (R291, decision D19) -/

/-- Settles O52: within its length LOAD is one run of writes from 0x200 on. -/
theorem loadWritesTheProgramVerbatim : Obligations.LoadWritesTheProgramVerbatim := by
  unfold Obligations.LoadWritesTheProgramVerbatim
  refine fun s bytes => ⟨fun hfits => ⟨_, s.load_of_le Config.hardware hfits, ⟨rfl, fun a ha => ?_⟩, fun k hk => ?_⟩,
    fun hlong => if_pos hlong⟩
  · exact Memory.read_writeBytes_outside Config.hardware bytes s.mem 0x200 a ha
  · exact Memory.read_writeBytes_inside Config.hardware bytes s.mem 0x200 k hk

/-! ## KEY_SET, RESET and READ (R283, R289, R290, R292) -/

/-- The framebuffer READ returns is row-major (R289, 10_state.md R33). -/
theorem State.hostView_fb_cell (s : State) (r : Fin 32) (c : Fin 64) :
    s.hostView.fb[r.val * 64 + c.val]? = some (s.fb.cell r c) := by
  have hin : r.val * 64 + c.val < 2048 := by omega
  have hrow : (r.val * 64 + c.val) / 64 = r.val := by omega
  have hcol : (r.val * 64 + c.val) % 64 = c.val := by omega
  rw [Vector.getElem?_eq_getElem hin]
  simp only [State.hostView, Vector.getElem_ofFn, hrow, hcol]

/-- Settles O53: KEY_SET is one write of a cell, and the items of READ are the registers and cells of the state. -/
theorem keySetResetAndRead : Obligations.KeySetResetAndRead := by
  unfold Obligations.KeySetResetAndRead
  intro s
  refine ⟨fun k v => ⟨s.keySet k v, rfl, rfl, fun j => ?_⟩, rfl, rfl, s.hostView_fb_cell, rfl, rfl, ?_,
    rfl, rfl, rfl, rfl, rfl⟩
  · simp [Vector.getElem_set, Fin.ext_iff, eq_comm]
  · exact bne_iff_ne

/-! ## The invariants (R287 to R292, 10_state.md R27, R35, 20_memory.md R57) -/

/-- The inversion of a STEP with a given draw. -/
theorem stepDrawing_cases {s t : State} {b : Byte} (h : stepDrawing Config.hardware exec b s = .next t) :
    (s.halt = true ∧ t = s) ∨
    (s.halt = false ∧ s.canFetch = false ∧ t = (s.withDraw b).sampleKeys.enterFault s.pc .fetchRange s.pc) ∨
    (s.halt = false ∧ s.canFetch = true ∧
      ∃ u, exec s.fetchedInstr ((s.withDraw b).sampleKeys.advance (s.fetchWord Config.hardware)) = .next u ∧
        t = u.endCycle) := by
  cases hhalt : s.halt with
  | true => exact .inl ⟨rfl, Host.Outcome.next.inj (h.symm.trans (stepDrawing_of_halted hhalt b))⟩
  | false =>
    rw [stepDrawing_of_running s hhalt b] at h
    cases hfetch : s.canFetch with
    | false =>
      have hcycle := cycle_of_cannotFetch (s.withDraw b) hfetch
      exact .inr (.inl ⟨rfl, rfl, Host.Outcome.next.inj (h.symm.trans hcycle)⟩)
    | true =>
      obtain ⟨u, hu⟩ := exec_next ((s.withDraw b).sampleKeys.advance (s.fetchWord Config.hardware)) s.fetchedInstr
      have hcycle := cycle_of_canFetch (s.withDraw b) hfetch hu
      exact .inr (.inr ⟨rfl, rfl, u, hu, Host.Outcome.next.inj (h.symm.trans hcycle)⟩)

/-- The two invariants of memory are kept by what a step may leave of it. -/
theorem MemoryEffect.inv {s t : State} (h : MemoryEffect s.mem t.mem) (hmem : MemInv s) (hreserved : ReservedInv s) :
    MemInv t ∧ ReservedInv t :=
  ⟨h.wf hmem, fun a ha => (h.read_low ha).trans (hreserved a ha)⟩

/-- A cycle keeps the invariants from the state that step 3 finds. -/
theorem exec_endCycle_inv {i : Instr} {s u : State} (hu : exec i s = .next u) (hinv : Inv s) (hrun : s.halt = false)
    (hlow : 2 ≤ s.pc.toNat) (hhigh : s.pc.toNat ≤ 0x1000) : Inv u.endCycle := by
  obtain ⟨hmem, hreserved, ⟨-, hstack⟩, hfault⟩ := hinv
  obtain ⟨hmem', hreserved'⟩ := (exec_memoryEffect hu).inv hmem hreserved
  have hpc' := (exec_effect hu).pcInv hlow hhigh hstack
  have hfault' := (exec_effect hu).faultInv hrun hfault
  simpa [Inv, MemInv, ReservedInv, PcInv, FaultInv, State.byte] using And.intro hmem' ⟨hreserved', hpc', hfault'⟩

/-- STEP keeps the invariants, whichever draw it carries. -/
theorem stepDrawing_inv {s t : State} {b : Byte} (hinv : Inv s) (h : stepDrawing Config.hardware exec b s = .next t) :
    Inv t := by
  obtain ⟨hmem, hreserved, ⟨hpc, hstack⟩, hfault⟩ := hinv
  rcases stepDrawing_cases h with ⟨-, rfl⟩ | ⟨-, -, rfl⟩ | ⟨hrun, hfetch, u, hu, rfl⟩
  · exact ⟨hmem, hreserved, ⟨hpc, hstack⟩, hfault⟩
  · exact ⟨hmem, hreserved, ⟨hpc, hstack⟩, faultInv_enterFault ..⟩
  · have hrange := (State.canFetch_iff s).mp hfetch
    have hadvanced : ((s.withDraw b).sampleKeys.advance (s.fetchWord Config.hardware)).pc.toNat = s.pc.toNat + 2 := by
      rw [State.advance_pc, State.sampleKeys_pc, State.withDraw_pc]
      bv_omega
    have hrunning : FaultInv ((s.withDraw b).sampleKeys.advance (s.fetchWord Config.hardware)) :=
      ⟨fun _ => hfault.1 hrun, fun hhalt => by simp [hrun] at hhalt⟩
    exact exec_endCycle_inv hu ⟨hmem, hreserved, ⟨by omega, hstack⟩, hrunning⟩ hrun (by omega) (by omega)

/-- LOAD writes the program region alone. -/
theorem load_inv {s t : State} {bytes : List Byte} (hinv : Inv s) (h : s.load Config.hardware bytes = .next t) :
    Inv t := by
  obtain ⟨hmem, hreserved, hpc, hfault⟩ := hinv
  by_cases hfits : bytes.length ≤ 3584
  · obtain rfl := Host.Outcome.next.inj ((s.load_of_le Config.hardware hfits).symm.trans h)
    have heffect : MemoryEffect s.mem (s.setMem (Memory.writeBytes Config.hardware s.mem 0x200 bytes)).mem :=
      .stored 0x200 bytes (Nat.le_refl _) (by omega)
    obtain ⟨hmem', hreserved'⟩ := heffect.inv hmem hreserved
    exact ⟨hmem', hreserved', hpc, hfault⟩
  · rw [State.load, if_pos (by omega)] at h
    cases h

/-- Settles O59: STEP by the effect of its instruction, LOAD by its region, RESET since reset meets the invariants; READ
and KEY_SET write nothing the invariants speak of. -/
theorem transactionsKeepTheInvariants : Obligations.TransactionsKeepTheInvariants := by
  unfold Obligations.TransactionsKeepTheInvariants
  intro x s t hinv h
  cases x with
  | step b => exact stepDrawing_inv hinv h
  | read => exact Host.Outcome.next.inj h ▸ hinv
  | keySet k v => obtain rfl := Host.Outcome.next.inj h; exact hinv
  | load bytes => exact load_inv hinv h
  | reset => obtain rfl := Host.Outcome.next.inj h; exact resetMeetsTheInvariants

end Sys2Proof.Machine
end

section
/-! PROOFS. The words written out in the spec (30_encoding.md sections 1 and 2): a word laid out as bytes decodes as the
word does, so the words the assembler writes come by the round trip and the others by the bits that select them. -/

namespace Sys2Proof

/-! ## A word laid out as bytes (R52, R80, R91) -/

/-- Laying a table word out as bytes and reading them back changes nothing. -/
theorem decodeTableWord_eq (nbits w : Nat) :
    decodeTableWord nbits w = some (decodeWord Config.hardware.strictDecode (tableWord nbits w)) := by
  rw [decodeTableWord, decode, wordOfBytes_high_low]

/-- The word the assembler writes for a well-formed instruction is read as that instruction. -/
theorem decodeTableWord_of_encode {nbits w : Nat} {i : Instr} (h : tableWord nbits w = encode i)
    (hwf : i.wellFormed Config.hardware.strictDecode = true) : decodeTableWord nbits w = some i := by
  rw [decodeTableWord_eq, h, decode_encode i _ hwf]

/-! ## Words the assembler does not write: bits ignored without STRICT_DECODE (R85, R86, decision D3) -/

section
variable {nbits w : Nat}

theorem decode0_loose_eq_ret {op : Word} (hn : opN op = 0xE#4) : decode0 false op = .ret := by
  simp [decode0, hn]

/-- R85: family 0x0 with low nibble E is RET whatever its middle byte. -/
theorem decodeTableWord_eq_ret (ht : opT (tableWord nbits w) = 0x0#4) (hn : opN (tableWord nbits w) = 0xE#4) :
    decodeTableWord nbits w = some .ret := by
  rw [decodeTableWord_eq, decodeWord_family0 _ ht]
  exact congrArg some (decode0_loose_eq_ret hn)

/-- R86: family 0x5 is SE Vx, Vy whatever its low nibble. -/
theorem decodeTableWord_eq_seVxVy (ht : opT (tableWord nbits w) = 0x5#4) :
    decodeTableWord nbits w = some (.seVxVy (opX (tableWord nbits w)) (opY (tableWord nbits w))) := by
  rw [decodeTableWord_eq, decodeWord_family5 _ ht]
  exact congrArg some (decodePair_loose _ _)

/-- R85: family 0xE with low nibble E is SKP whatever the rest of its low byte. -/
theorem decodeTableWord_eq_skp (ht : opT (tableWord nbits w) = 0xE#4) (hn : opN (tableWord nbits w) = 0xE#4) :
    decodeTableWord nbits w = some (.skp (opX (tableWord nbits w))) := by
  rw [decodeTableWord_eq, decodeWord_familyE _ ht]
  exact congrArg some (decodeE_loose_eq_skp hn)

end

/-- Settles O1: seven words are encodings, the null operation's among them; 012E, 5121 and E0AE differ from the
assembler's words in bits this hardware ignores. -/
theorem specWordsDecode : Obligations.SpecWordsDecode := by
  unfold Obligations.SpecWordsDecode
  refine ⟨?w6005, ?w6103, ?w8014, ?w00E0, ?w012E, ?w5121, ?wD125, ?wE0AE, ?wF20A, ?w8008⟩
  case w012E => exact decodeTableWord_eq_ret rfl rfl
  case w5121 => exact decodeTableWord_eq_seVxVy rfl
  case wE0AE => exact decodeTableWord_eq_skp rfl rfl
  all_goals exact decodeTableWord_of_encode rfl rfl

end Sys2Proof
end
